-- ==== Sys2Proof/Word.lean ====
section
/-! DEFINITION. The words of the block: bytes, dimensions, counters, command words, pixels and runs
(spec/00_scope.md R10, R11, R14, spec/30_encoding.md R88). -/

namespace Sys2Proof

/-- A byte of a container, a colour channel or a run length (00_scope R11, 20_memory R50). -/
abbrev Byte := BitVec 8

/-- A width or a height: `DIM_W = 32` (00_scope R10). -/
abbrev Dim := BitVec 32

/-- A byte offset, byte count, pixel index or pixel count: `CNT_W = 64` (00_scope R14). -/
abbrev Cnt := BitVec 64

/-- A command word `cw = op ++ arg` (30_encoding R88). -/
abbrev CmdWord := BitVec 68

/-- "an RGB triplet of 8-bit channels; alpha is not represented" (00_scope R11). -/
structure Pixel where
  r : Byte
  g : Byte
  b : Byte
deriving DecidableEq, Repr

/-- A run length paired with one pixel (00_scope glossary, 30_encoding R82). -/
structure Run where
  len : Byte
  color : Pixel
deriving DecidableEq, Repr

end Sys2Proof
end

