-- ==== Sys2Proof/Config.lean ====
section
/-! DEFINITION. What the spec fixes by name (spec/00_scope.md R9 to R14), the parameters it leaves open
(R15, R16) and the free values of the model (log 8, log 9). -/

namespace Sys2Proof

/-- Whether the external sink and source can fail (00_scope R16). -/
inductive IoFaults where
  /-- `io_ok` is always true; IOError is never raised. -/
  | never
  /-- `io_ok` is a free input of each step that consults it. -/
  | any
deriving DecidableEq, Repr

/-- The two parameters the spec leaves OPEN (00_scope R15, R16). DESIGN CHOICE (log 1): they stand in
State, so that every statement about a state holds for every value of them. -/
structure Params where
  /-- `PIXBUF_CAP`, 0 to 2^64 - 1 (00_scope R15). -/
  pixbufCap : Cnt
  /-- `IO_FAULTS` (00_scope R16). -/
  ioFaults : IoFaults
deriving DecidableEq, Repr

/-- `RUN_MAX = 255` (00_scope R9). -/
def Config.runMax : Nat := 255

/-- `HDR_LEN = 8` (00_scope R10). -/
def Config.hdrLen : Nat := 8

/-- `REC_LEN = 4` (00_scope R10). -/
def Config.recLen : Nat := 4

/-- `DEFAULT_PIXEL = (0, 0, 0)` (00_scope R13). -/
def Config.defaultPixel : Pixel := ⟨0, 0, 0⟩

/-- Free value (log 8): `wr_len` after an IOError of the encode path is unspecified (41_container_writer R137, U11). -/
opaque Config.freeWrLen : Nat → Cnt

/-- Free value (log 8, log 10): the content of `COUT` after an IOError or a `RESET` is unspecified (41_container_writer
R137, U11, 70_reset_and_hazards R232). -/
opaque Config.freeCout : Nat → List Host.Cell

/-- Free value (log 9): the content of `PIXBUF` after a `DEC_BEGIN` that faults is unspecified
(42_container_reader R154, U13). -/
opaque Config.freePixbuf : Nat → List (Nat × Pixel)

end Sys2Proof
end

