-- ==== Sys2Proof/Syntax.lean ====
section
/-! DEFINITION. The instructions: one constructor per row of spec/opcode_table.json, the places an
instruction is fetched from, and why a decoder rejects. -/

namespace Sys2Proof

/-- One constructor per row of spec/opcode_table.json. The first six are host commands (30_encoding R89),
`decStep` is the autonomous step of the decode path (43_decoder R173, R174), `hdr` and `run` are the
container items (30_encoding R81, R82). Operand bits that the spec ignores (R90) are not kept. -/
inductive Instr where
  /-- `ENC_BEGIN width, height` (41_container_writer R134). -/
  | encBegin (width height : Dim)
  /-- `ENC_PIX r, g, b` (40_encoder R116). -/
  | encPix (r g b : Byte)
  /-- `ENC_END` (41_container_writer R135). -/
  | encEnd
  /-- `DEC_BEGIN clen` (42_container_reader R154). -/
  | decBegin (clen : Cnt)
  /-- `DEC_RDPIX idx` (43_decoder R177). -/
  | decRdpix (idx : Cnt)
  /-- `RD_REG n` (44_status_access R190). -/
  | rdReg (n : BitVec 4)
  /-- `DEC_STEP` (43_decoder R173, R174): no word selects it (30_encoding R94). -/
  | decStep
  /-- `HDR width height` (30_encoding R81): the item `DEC_BEGIN` fetches. -/
  | hdr (width height : Dim)
  /-- `RUN len r g b` (30_encoding R82): the item `DEC_STEP` fetches. -/
  | run (len r g b : Byte)
deriving DecidableEq, Repr

/-- The mnemonic of spec/opcode_table.json. -/
def Instr.mnemonic : Instr → String
  | .encBegin _ _ => "ENC_BEGIN"
  | .encPix _ _ _ => "ENC_PIX"
  | .encEnd => "ENC_END"
  | .decBegin _ => "DEC_BEGIN"
  | .decRdpix _ => "DEC_RDPIX"
  | .rdReg _ => "RD_REG"
  | .decStep => "DEC_STEP"
  | .hdr _ _ => "HDR"
  | .run _ _ _ _ => "RUN"

/-- What an instruction is read from. The place alone decides the format (30_encoding R85, R94). -/
inductive Code where
  /-- A command word at the command port (30_encoding R88). -/
  | command (cw : CmdWord)
  /-- The bytes at container offsets 0 to 7 (30_encoding R81). -/
  | header (bytes : List Byte)
  /-- The bytes at container offsets `8 + 4k` to `8 + 4k + 3` (30_encoding R82). -/
  | record (bytes : List Byte)
  /-- The decode path's turn: format `AUTO`, no word (30_encoding R94). -/
  | turn
deriving DecidableEq, Repr

/-- Why the decoder rejects. -/
inductive DecodeError where
  /-- Operation codes 0x0 and 0x7 to 0xF (30_encoding R90). The port ignores such a command; it does not stop. -/
  | unassignedOp (op : BitVec 4)
  /-- A header that is not 8 bytes long (30_encoding R81). No fetch of the machine produces it. -/
  | headerLength (n : Nat)
  /-- A record that is not 4 bytes long (30_encoding R82). No fetch of the machine produces it. -/
  | recordLength (n : Nat)
deriving DecidableEq, Repr

/-- A row of format `CMD` of spec/opcode_table.json: a word selects it when `word AND mask = pattern` (30_encoding R94). -/
structure CommandRow where
  mnemonic : String
  pattern : CmdWord
  mask : CmdWord
deriving DecidableEq, Repr

end Sys2Proof
end

