-- ==== Sys2Proof/WellFormed.lean ====
section
/-! DEFINITION. The terms that the data model calls legal. Neither the decoder nor the machine relies on
it: a record of length 0 and an unassigned register number have their meaning all the same
(spec/30_encoding.md R86, spec/44_status_access.md R190). -/

namespace Sys2Proof

/-- A run length is "1–255 inclusive" (00_scope R9); 0 is reserved (30_encoding R82, R86 (d)). -/
def legalRunLength (len : Byte) : Bool := len != 0

/-- Register numbers 0 to 7 are assigned, 8 to 15 are not (10_state R38). -/
def assignedRegister (n : BitVec 4) : Bool := decide (n.toNat < 8)

/-- A legal term: every operand at a value the spec does not call reserved or unassigned. All other
operands are legal at every value (30_encoding R86 (e), R89). -/
def Instr.wellFormed : Instr → Bool
  | .encBegin _ _ => true
  | .encPix _ _ _ => true
  | .encEnd => true
  | .decBegin _ => true
  | .decRdpix _ => true
  | .rdReg n => assignedRegister n
  | .decStep => true
  | .hdr _ _ => true
  | .run len _ _ _ => legalRunLength len

end Sys2Proof
end

