-- ==== Sys2Proof/Decode.lean ====
section
/-! DEFINITION. The byte order, the serializers and parsers of the container (spec/20_memory.md R55,
spec/41_container_writer.md R131, R132, spec/42_container_reader.md R151, R152), the decoder and, after it, the
encoder (spec/30_encoding.md R81 to R90). -/

namespace Sys2Proof

/-- `le32(s) = s[0] + 2^8 s[1] + 2^16 s[2] + 2^24 s[3]` (20_memory R55): the byte at the lowest offset is the least significant. -/
def le32 (b0 b1 b2 b3 : Byte) : Dim := b3 ++ b2 ++ b1 ++ b0

/-- `bytes_le32(v) = [v[7:0], v[15:8], v[23:16], v[31:24]]` (20_memory R55). -/
def bytesLe32 (v : Dim) : List Byte :=
  [v.extractLsb' 0 8, v.extractLsb' 8 8, v.extractLsb' 16 8, v.extractLsb' 24 8]

/-- Byte `i` of a sequence, index 0 first (00_scope R17). It is used below the length only. -/
def byteAt (s : List Byte) (i : Nat) : Byte := s.getD i 0

/-- `ser_hdr(width, height)` (41_container_writer R131). -/
def serHdr (width height : Dim) : List Byte := bytesLe32 width ++ bytesLe32 height

/-- `ser_rec(len, (r, g, b)) = [len, r, g, b]` (41_container_writer R132). -/
def serRec (run : Run) : List Byte := [run.len, run.color.r, run.color.g, run.color.b]

/-- `par_hdr(s)`, for a sequence of length 8 (42_container_reader R151). -/
def parHdr (s : List Byte) : Dim × Dim :=
  (le32 (byteAt s 0) (byteAt s 1) (byteAt s 2) (byteAt s 3),
   le32 (byteAt s 4) (byteAt s 5) (byteAt s 6) (byteAt s 7))

/-- `par_rec(s)`, for a sequence of length 4 (42_container_reader R152). -/
def parRec (s : List Byte) : Run := ⟨byteAt s 0, ⟨byteAt s 1, byteAt s 2, byteAt s 3⟩⟩

/-- `cw[67:64]` (30_encoding R88). -/
def opField (cw : CmdWord) : BitVec 4 := cw.extractLsb' 64 4

/-- The command decoder: the operand fields of 30_encoding R89; unassigned codes are rejected by name (R90). -/
def decodeCommand (cw : CmdWord) : Except DecodeError Instr :=
  if opField cw = 0x1 then .ok (.encBegin (cw.extractLsb' 0 32) (cw.extractLsb' 32 32))
  else if opField cw = 0x2 then .ok (.encPix (cw.extractLsb' 0 8) (cw.extractLsb' 8 8) (cw.extractLsb' 16 8))
  else if opField cw = 0x3 then .ok .encEnd
  else if opField cw = 0x4 then .ok (.decBegin (cw.extractLsb' 0 64))
  else if opField cw = 0x5 then .ok (.decRdpix (cw.extractLsb' 0 64))
  else if opField cw = 0x6 then .ok (.rdReg (cw.extractLsb' 0 4))
  else .error (.unassignedOp (opField cw))

/-- The decoder of a header item: 8 bytes, width then height (30_encoding R81, R83). -/
def decodeHeader (bytes : List Byte) : Except DecodeError Instr :=
  if bytes.length = 8 then .ok (.hdr (parHdr bytes).1 (parHdr bytes).2) else .error (.headerLength bytes.length)

/-- The decoder of a record: 4 bytes, all operand; every pattern is accepted (30_encoding R82, R86). -/
def decodeRecord (bytes : List Byte) : Except DecodeError Instr :=
  if bytes.length = 4 then
    .ok (.run (parRec bytes).len (parRec bytes).color.r (parRec bytes).color.g (parRec bytes).color.b)
  else .error (.recordLength bytes.length)

/-- The decoder: the place decides the format, the bits the rest (30_encoding R85, R94). -/
def decode : Code → Except DecodeError Instr
  | .command cw => decodeCommand cw
  | .header bytes => decodeHeader bytes
  | .record bytes => decodeRecord bytes
  | .turn => .ok .decStep

/-- The encoder (30_encoding R81, R82, R89). Unused operand bits are written as 0. -/
def encode : Instr → Code
  | .encBegin width height => .command (0x1#4 ++ (height ++ width))
  | .encPix r g b => .command (0x2#4 ++ (0#40 ++ (b ++ (g ++ r))))
  | .encEnd => .command (0x3#4 ++ 0#64)
  | .decBegin clen => .command (0x4#4 ++ clen)
  | .decRdpix idx => .command (0x5#4 ++ idx)
  | .rdReg n => .command (0x6#4 ++ (0#60 ++ n))
  | .decStep => .turn
  | .hdr width height => .header (serHdr width height)
  | .run len r g b => .record (serRec ⟨len, ⟨r, g, b⟩⟩)

/-- The rows of format `CMD` of spec/opcode_table.json. -/
def commandTable : List CommandRow :=
  [⟨"ENC_BEGIN", 0x10000000000000000, 0xF0000000000000000⟩,
   ⟨"ENC_PIX", 0x20000000000000000, 0xF0000000000000000⟩,
   ⟨"ENC_END", 0x30000000000000000, 0xF0000000000000000⟩,
   ⟨"DEC_BEGIN", 0x40000000000000000, 0xF0000000000000000⟩,
   ⟨"DEC_RDPIX", 0x50000000000000000, 0xF0000000000000000⟩,
   ⟨"RD_REG", 0x60000000000000000, 0xF0000000000000000⟩]

/-- `word AND mask = pattern` (30_encoding R94). -/
def CommandRow.selects (row : CommandRow) (cw : CmdWord) : Bool := cw &&& row.mask == row.pattern

/-- The first `n` bytes of an item given as one number. DESIGN CHOICE (log 22): the first byte is the lowest 8 bits of the
number, each later byte the 8 bits above; the spec gives an item as a string only (30_encoding R94). -/
def itemBytes : Nat → Nat → List Byte
  | 0, _ => []
  | n + 1, w => BitVec.ofNat 8 w :: itemBytes n (w / 256)

/-- Where a table word is read from, by its width (log 4): no bits are the autonomous step, up to 32 a record,
up to 64 a header, more a command word of 68 bits. -/
def tableCode (nbits w : Nat) : Option Code :=
  if nbits = 0 then some .turn
  else if nbits ≤ 32 then some (.record (itemBytes 4 w))
  else if nbits ≤ 64 then some (.header (itemBytes 8 w))
  else if w < 2 ^ 68 then some (.command (BitVec.ofNat 68 w))
  else none

/-- The instruction the decoder reads from a table word: a command word is the number `match` and `mask` are compared with
(30_encoding R94); the numbering of an item's bits is the model's choice (log 22). -/
def decodeTableWord (nbits w : Nat) : Option Instr :=
  match tableCode nbits w with
  | some code => (decode code).toOption
  | none => none

end Sys2Proof
end

