-- ==== Sys2Proof/Machine/State.lean ====
section
/-! DEFINITION. The state of the block (spec/10_state.md R20), the inputs that the one-argument step finds in
it (R35), the reasons a step can stop, and the state after reset (spec/70_reset_and_hazards.md R231). -/

namespace Sys2Proof.Machine

/-- A phase of a path: codes 0 IDLE, 1 BODY, 2 DONE, 3 FAULT (10_state R21, R27). -/
inductive Phase where
  | idle
  | body
  | done
  | fault
deriving DecidableEq, Repr

/-- A cause: codes 0 to 3 (60_exceptions R201). Codes 4 to 7 are never produced and have no constructor (log 16). -/
inductive Cause where
  | none
  | formatError
  | outOfBounds
  | ioError
deriving DecidableEq, Repr

/-- The sub-reason of a FormatError: codes 0 to 3 (10_state R33). -/
inductive SubReason where
  | none
  | short
  | unaligned
  | dims
deriving DecidableEq, Repr

/-- The response of the last host command (30_encoding R91). -/
inductive Response where
  /-- The command returns nothing. -/
  | none
  /-- `DEC_RDPIX` with `ok = 1`. -/
  | pixel (p : Pixel)
  /-- `DEC_RDPIX` with `ok = 0`: the channels are unspecified and not given (93 U12, log 14). -/
  | refusedPixel
  /-- `RD_REG`. -/
  | value (v : Cnt)
deriving DecidableEq, Repr

/-- What the host does next (00_scope R7, 70_reset_and_hazards R240). DESIGN CHOICE (log 2): the order of the
entries is the interleaving of the two paths, which the spec leaves open (93 U21, U22). -/
inductive HostEvent where
  /-- A command word, with the `io_ok` the environment supplies to its step (00_scope R18). -/
  | command (cw : CmdWord) (ioOk : Bool)
  /-- The decode path takes its autonomous step here, if it is enabled (43_decoder R180). -/
  | decTurn
  /-- The host places a container in `CIN` (70_reset_and_hazards R234 (2)). -/
  | place (bytes : List Byte)
  /-- The `RESET` event (70_reset_and_hazards R230). -/
  | reset
deriving DecidableEq, Repr

/-- A byte-addressed space, `COUT` or `CIN`: strictly rising addresses, no entry equal to 0, which is what an
unlisted address reads as (log 5, log 10). -/
abbrev Memory := List Host.Cell

/-- `PIXBUF`: strictly rising pixel indices, no entry equal to `DEFAULT_PIXEL`, which is what an unlisted slot
reads as (43_decoder R171). -/
abbrev PixelMemory := List (Nat × Pixel)

structure State where
  /-- `enc_phase` (10_state R21). -/
  encPhase : Phase
  /-- `enc_last` (10_state R22). -/
  encLast : Pixel
  /-- `enc_run` (10_state R23). -/
  encRun : Byte
  /-- `wr_len` (10_state R24). -/
  wrLen : Cnt
  /-- `enc_err` (10_state R25). -/
  encErr : Cause
  /-- `COUT` (10_state R26): its bytes are those at offsets 0 to `wrLen - 1`. -/
  cout : Memory
  /-- `dec_phase` (10_state R27). -/
  decPhase : Phase
  /-- `dec_w` (10_state R28). -/
  decW : Dim
  /-- `dec_h` (10_state R28). -/
  decH : Dim
  /-- `dec_npix` (10_state R29). -/
  decNpix : Cnt
  /-- `dec_cursor` (10_state R30). -/
  decCursor : Cnt
  /-- `rd_off` (10_state R31). -/
  rdOff : Cnt
  /-- `rd_len` (10_state R32). -/
  rdLen : Cnt
  /-- `dec_err` (10_state R33). -/
  decErr : Cause
  /-- `dec_sub` (10_state R33). -/
  decSub : SubReason
  /-- `PIXBUF` (10_state R34): its slots are those below `decNpix`. -/
  pixbuf : PixelMemory
  /-- `proto` (10_state R36). -/
  proto : Bool
  /-- The response of the last host command (30_encoding R91, log 15). -/
  resp : Response
  /-- INPUT: `CIN` (10_state R35 (a)); its bytes are those at offsets 0 to `cinLen - 1` (log 5). -/
  cin : Memory
  /-- INPUT: the true length of the container in `CIN` (70_reset_and_hazards R236, R242); 0 with nothing placed. -/
  cinLen : Nat
  /-- INPUT: `io_ok` of the current step (10_state R35 (d), log 7). -/
  ioOk : Bool
  /-- INPUT: what the host does next (10_state R35 (b), (c), log 2). -/
  host : List HostEvent
  /-- INPUT: the parameters (10_state R35 (e), log 1). No step writes them. -/
  par : Params
  /-- MODEL'S OWN: how many free values the encode path and its sink have drawn (log 8, log 10). -/
  encFree : Nat
  /-- MODEL'S OWN: how many free values the decode path has drawn (log 9). -/
  decFree : Nat
deriving DecidableEq, Repr

/-- Where a step stops with a fault of the MODEL. The block's own errors are next states (60_exceptions R206). -/
inductive Fault where
  /-- `DEC_STEP` in D_BODY with `rd_off` neither at `rd_len` nor 4 bytes or more below it. No run reaches such a
  state (20_memory R65, 43_decoder R174). SAFE (log 13). -/
  | fetchOutOfRange
  /-- The host changes or drops a byte of `CIN[0..rd_len)` in D_BODY (70_reset_and_hazards R236, 93 U15). SAFE (log 6). -/
  | cinChanged
deriving DecidableEq, Repr

/-- Where a step has no meaning. -/
inductive Refusal where
  /-- An instruction without a meaning. No arm of `exec` uses it. SAFE. -/
  | notModelled (mnemonic : String)
  /-- `ENC_PIX` or `ENC_END` would append a record that takes `wr_len` past 2^64 - 1
  (41_container_writer R133, 93 U9). SAFE (log 11). -/
  | coutOverflow
  /-- A `DEC_BEGIN` outside D_BODY whose `clen` is not the length of the container in `CIN`: the spec says nothing of
  such an operation and a model refuses it (70_reset_and_hazards R236, 93 U15). SAFE (log 21). -/
  | lengthMismatch
deriving DecidableEq, Repr

/-- The state after reset: every register 0 (70_reset_and_hazards R231, 10_state R20). The inputs and the model's
own fields are DESIGN CHOICES: nothing placed and nothing pending (log 4, log 5), `io_ok` true (log 7), the largest capacity
and failures allowed (log 1), no free value drawn (log 8, log 9). -/
def State.reset : State where
  encPhase := .idle
  encLast := ⟨0, 0, 0⟩
  encRun := 0
  wrLen := 0
  encErr := .none
  cout := []
  decPhase := .idle
  decW := 0
  decH := 0
  decNpix := 0
  decCursor := 0
  rdOff := 0
  rdLen := 0
  decErr := .none
  decSub := .none
  pixbuf := []
  proto := false
  resp := .none
  cin := []
  cinLen := 0
  ioOk := true
  host := []
  par := ⟨0xFFFFFFFFFFFFFFFF, .any⟩
  encFree := 0
  decFree := 0

end Sys2Proof.Machine
end

