-- ==== Sys2Proof/Machine/Ops.lean ====
section
/-! DEFINITION. The named operations: sparse memories, the container sink and source, the pixel buffer
(spec/20_memory.md R65, spec/41_container_writer.md R133), taking a fault and leaving it (spec/60_exceptions.md R206, R210). -/

namespace Sys2Proof.Machine

/-! ### Sparse memories in canonical form -/

/-- What address `a` holds: its entry, or the value `d` of an unlisted address. -/
def cellsGet {α : Type} (d : α) : List (Nat × α) → Nat → α
  | [], _ => d
  | (b, u) :: m, a => if a = b then u else cellsGet d m a

/-- Write `v` at `a`, keeping the addresses rising and listing no entry equal to `d`. -/
def cellsSet {α : Type} [DecidableEq α] (d : α) : List (Nat × α) → Nat → α → List (Nat × α)
  | [], a, v => if v = d then [] else [(a, v)]
  | (b, u) :: m, a, v =>
    if a < b then (if v = d then (b, u) :: m else (a, v) :: (b, u) :: m)
    else if a = b then (if v = d then m else (a, v) :: m)
    else (b, u) :: cellsSet d m a v

/-- The canonical form from address `lo` on. -/
def cellsWfFrom {α : Type} [DecidableEq α] (d : α) : Nat → List (Nat × α) → Bool
  | _, [] => true
  | lo, (b, u) :: m => decide (lo ≤ b) && decide (u ≠ d) && cellsWfFrom d (b + 1) m

/-- Any list of cells brought into canonical form; of two cells at one address the first counts. -/
def cellsOf {α : Type} [DecidableEq α] (d : α) : List (Nat × α) → List (Nat × α)
  | [] => []
  | (a, v) :: m => cellsSet d (cellsOf d m) a v

/-- The byte at an offset. An unlisted offset holds 0 (log 5, log 10). -/
def Memory.read (m : Memory) (a : Nat) : Byte := cellsGet 0 m a

/-- Write one byte. -/
def Memory.write (m : Memory) (a : Nat) (v : Byte) : Memory := cellsSet 0 m a v

/-- `[M[a], ..., M[a + n - 1]]`, lowest address first (20_memory R65). -/
def Memory.readBytes (m : Memory) : Nat → Nat → List Byte
  | _, 0 => []
  | a, n + 1 => m.read a :: Memory.readBytes m (a + 1) n

/-- Write a byte sequence from offset `a` up (41_container_writer R133). -/
def Memory.writeBytes (m : Memory) : Nat → List Byte → Memory
  | _, [] => m
  | a, v :: vs => Memory.writeBytes (m.write a v) (a + 1) vs

/-- The bytes below offset `n`. -/
def Memory.below (m : Memory) (n : Nat) : Memory := m.filter (fun c => decide (c.1 < n))

/-- The canonical form of a byte memory. -/
def Memory.wf (m : Memory) : Bool := cellsWfFrom (0 : Byte) 0 m

/-- The pixel in a slot. An unlisted slot holds `DEFAULT_PIXEL` (43_decoder R171). -/
def PixelMemory.read (m : PixelMemory) (i : Nat) : Pixel := cellsGet Config.defaultPixel m i

/-- `PIXBUF.MemWrite(i, p)` (20_memory R65). -/
def PixelMemory.write (m : PixelMemory) (i : Nat) (p : Pixel) : PixelMemory := cellsSet Config.defaultPixel m i p

/-- Write `p` to the `n` slots from `i` up (43_decoder R172). -/
def PixelMemory.fill (m : PixelMemory) (p : Pixel) : Nat → Nat → PixelMemory
  | _, 0 => m
  | i, n + 1 => PixelMemory.fill (m.write i p) p (i + 1) n

/-- The canonical form of a pixel memory. -/
def PixelMemory.wf (m : PixelMemory) : Bool := cellsWfFrom Config.defaultPixel 0 m

/-- `dec_alloc(npix)`: every slot holds `DEFAULT_PIXEL` (43_decoder R171). Slots at or beyond `npix` do not
exist (10_state R34); no step reads or writes one, and the canonical form lists none. -/
def decAlloc (_npix : Nat) : PixelMemory := []

/-! ### The sink -/

/-- `wr_len + n` still fits 64 bits (41_container_writer R133). -/
def coutFits (n : Nat) (s : State) : Bool := decide (s.wrLen.toNat + n < 2 ^ 64)

/-- `COUT.append(bytes)` (41_container_writer R133). -/
def appendCout (bytes : List Byte) (s : State) : State :=
  { s with
    cout := s.cout.writeBytes s.wrLen.toNat bytes
    wrLen := s.wrLen + BitVec.ofNat 64 bytes.length }

/-- A byte of `COUT` as the host may read it: only in E_DONE and only below `wr_len`
(41_container_writer R136, 70_reset_and_hazards R235). Otherwise nothing is promised (93 U14, log 10). -/
def sinkByte (s : State) (a : Nat) : Option Byte :=
  if s.encPhase = .done ∧ a < s.wrLen.toNat then some (s.cout.read a) else none

/-! ### The environment -/

/-- `io_ok` of this step: always true when `IO_FAULTS = never` (00_scope R16, R18). -/
def ioGood (s : State) : Bool := s.ioOk || decide (s.par.ioFaults = .never)

/-! ### Taking a fault and leaving it -/

/-- `raise K` on the encode path (60_exceptions R206): the cause is latched and the phase becomes E_FAULT. -/
def raiseEnc (cause : Cause) (s : State) : State := { s with encErr := cause, encPhase := .fault }

/-- `raise K(sub)` on the decode path (60_exceptions R206): `dec_sub` is 0 unless K is FormatError. -/
def raiseDec (cause : Cause) (sub : SubReason) (s : State) : State :=
  { s with
    decErr := cause
    decSub := if cause = .formatError then sub else .none
    decPhase := .fault }

/-- IOError of the encode path: `COUT` and `wr_len` become unspecified (41_container_writer R137): free values (log 8). -/
def encIoError (s : State) : State :=
  raiseEnc .ioError
    { s with
      cout := cellsOf 0 (Config.freeCout s.encFree)
      wrLen := Config.freeWrLen s.encFree
      encFree := s.encFree + 1
      resp := .none }

/-- A fault of `DEC_BEGIN`: `PIXBUF` is not created and its content is unspecified (42_container_reader R154): a
free value (log 9) over the slots that exist, those below `dec_npix`. -/
def decBeginFault (cause : Cause) (sub : SubReason) (s : State) : State :=
  raiseDec cause sub
    { s with
      pixbuf := cellsOf Config.defaultPixel
        ((Config.freePixbuf s.decFree).filter (fun c => decide (c.1 < s.decNpix.toNat)))
      decFree := s.decFree + 1 }

/-- What an accepted `ENC_BEGIN` clears before anything can fail (41_container_writer R134, 60_exceptions R210). -/
def openEncode (s : State) : State :=
  { s with encErr := .none, encRun := 0, wrLen := 0, cout := [], resp := .none }

/-- What an accepted `DEC_BEGIN` clears before anything can fail (42_container_reader R154, 60_exceptions R210). -/
def openDecode (clen : Cnt) (s : State) : State :=
  { s with
    decErr := .none
    decSub := .none
    decW := 0
    decH := 0
    decNpix := 0
    decCursor := 0
    rdOff := 0
    rdLen := clen
    resp := .none }

end Sys2Proof.Machine
end

