-- ==== Sys2Proof/Machine/Operands.lean ====
section
/-! DEFINITION. The operand forms: the header at offset 0 and the record at `rd_off` of `CIN`
(spec/30_encoding.md R83), the register numbers of `RD_REG` (spec/10_state.md R38) and the slot index of
`DEC_RDPIX` (spec/43_decoder.md R177). -/

namespace Sys2Proof.Machine

/-- `CIN.MemRead(0, 8)` (42_container_reader R154). -/
def fetchHeader (s : State) : List Byte := s.cin.readBytes 0 8

/-- `CIN.MemRead(rd_off, 4)` (43_decoder R173). -/
def fetchRecord (s : State) : List Byte := s.cin.readBytes s.rdOff.toNat 4

/-- A record can be fetched: 4 bytes lie between `rd_off` and `rd_len` (20_memory R65). Since both are congruent
modulo 4 in every reachable state, this is `rd_off < rd_len` there (10_state R39, log 13). -/
def recordReady (s : State) : Bool := decide (s.rdOff.toNat + 4 ≤ s.rdLen.toNat)

/-- `width * height`, exact in 64 bits (00_scope R14, 10_state R42 (c)). -/
def pixelCount (width height : Dim) : Cnt := width.setWidth 64 * height.setWidth 64

/-- `clen` is the true length of the container in `CIN`, the host's duty at `DEC_BEGIN` (70_reset_and_hazards R236, R242). -/
def lengthTrue (clen : Cnt) (s : State) : Bool := decide (clen.toNat = s.cinLen)

/-- The slot exists and the buffer may be read: D_DONE and `idx < dec_npix` (43_decoder R177). -/
def pixelReadable (idx : Cnt) (s : State) : Bool :=
  decide (s.decPhase = .done) && decide (idx.toNat < s.decNpix.toNat)

end Sys2Proof.Machine
end

