-- ==== Sys2Proof/Machine/Flags.lean ====
section
/-! DEFINITION. The status bits: the codes of phases, causes and sub-reasons, `STATUS` (spec/10_state.md R37),
the host-visible registers (R38) and the sticky flag `proto` (R36). The block has no arithmetic flags (R40). -/

namespace Sys2Proof.Machine

/-- 0 IDLE, 1 BODY, 2 DONE, 3 FAULT (10_state R21, R27). -/
def phaseCode : Phase → BitVec 2
  | .idle => 0
  | .body => 1
  | .done => 2
  | .fault => 3

/-- 0 NONE, 1 FormatError, 2 OutOfBoundsError, 3 IOError (60_exceptions R201). -/
def causeCode : Cause → BitVec 3
  | .none => 0
  | .formatError => 1
  | .outOfBounds => 2
  | .ioError => 3

/-- 0 none, 1 SHORT, 2 UNALIGNED, 3 DIMS (10_state R33). -/
def subCode : SubReason → BitVec 2
  | .none => 0
  | .short => 1
  | .unaligned => 2
  | .dims => 3

/-- `STATUS` (10_state R37), from bit 63 down. -/
def statusWord (s : State) : Cnt :=
  0#47 ++ (BitVec.ofBool s.proto ++ (0#1 ++ (subCode s.decSub ++ (causeCode s.decErr ++ (phaseCode s.decPhase ++
    (0#3 ++ (causeCode s.encErr ++ phaseCode s.encPhase)))))))

/-- The host-visible registers (10_state R38); `none` for the unassigned numbers 8 to 15. -/
def regValue (n : BitVec 4) (s : State) : Option Cnt :=
  if n = 0 then some (statusWord s)
  else if n = 1 then some s.wrLen
  else if n = 2 then some (s.decW.setWidth 64)
  else if n = 3 then some (s.decH.setWidth 64)
  else if n = 4 then some s.decNpix
  else if n = 5 then some s.decCursor
  else if n = 6 then some s.rdOff
  else if n = 7 then some s.rdLen
  else none

/-- An ignored command: `proto <- 1`, nothing else, no response (44_status_access R191). -/
def ignoreCommand (s : State) : State := { s with proto := true, resp := .none }

/-- The 25-bit response word of an answered `DEC_RDPIX`: `ok ++ b ++ g ++ r` with `ok = 1` (30_encoding R91). -/
def pixelResponseWord (p : Pixel) : BitVec 25 := 1#1 ++ (p.b ++ (p.g ++ p.r))

end Sys2Proof.Machine
end

