-- ==== Sys2Proof/Machine/Decoder.lean ====
section
/-! DEFINITION. The run-length decoder: `DEC_STEP`, the record item `RUN` it executes, and `DEC_RDPIX`
(spec/43_decoder.md R172, R173, R174, R177). -/

namespace Sys2Proof.Machine

/-- `dec_run(cursor, npix, (len, c))`: `none` is OutOfBounds, found before any slot is written (43_decoder R172). The
subtraction is that of the natural numbers (log 18). -/
def decRun (cursor npix : Cnt) (run : Run) (buf : PixelMemory) : Option (Cnt × PixelMemory) :=
  if npix.toNat - cursor.toNat < run.len.toNat then none
  else some (cursor + run.len.setWidth 64, buf.fill run.color cursor.toNat run.len.toNat)

/-- What `DEC_STEP` does with the record it has fetched (43_decoder R173). -/
def consumeRun (run : Run) (s : State) : State :=
  match decRun s.decCursor s.decNpix run s.pixbuf with
  | none => raiseDec .outOfBounds .none s
  | some (cursor, buf) =>
    { s with pixbuf := buf, decCursor := cursor, rdOff := s.rdOff + BitVec.ofNat 64 Config.recLen }

/-- `RUN len r g b` (30_encoding R82): its execution by `DEC_STEP` (log 17). Where `DEC_STEP` is not enabled or no record
is left, nothing happens (44_status_access R191, log 12). -/
def execRun (len r g b : Byte) (s : State) : Host.Outcome State Fault Refusal :=
  if s.decPhase = .body ∧ recordReady s = true then .next (consumeRun ⟨len, ⟨r, g, b⟩⟩ s) else .next s

/-- `DEC_STEP` (43_decoder R173, R174). Outside D_BODY it is not enabled and nothing happens (R180, log 12). -/
def execDecStep (s : State) : Host.Outcome State Fault Refusal :=
  if s.decPhase ≠ .body then .next s
  else if recordReady s = true then .next (consumeRun (parRec (fetchRecord s)) s)
  else if s.rdOff = s.rdLen then .next { s with decPhase := .done }
  else .fault .fetchOutOfRange

/-- `DEC_RDPIX idx` (43_decoder R177). -/
def execDecRdpix (idx : Cnt) (s : State) : Host.Outcome State Fault Refusal :=
  if pixelReadable idx s = true then .next { s with resp := .pixel (s.pixbuf.read idx.toNat) }
  else .next { s with proto := true, resp := .refusedPixel }

end Sys2Proof.Machine
end

