-- ==== Sys2Proof/Machine/Reader.lean ====
section
/-! DEFINITION. The container reader: `DEC_BEGIN` and the header item `HDR` it consumes
(spec/42_container_reader.md R153, R154, spec/30_encoding.md R81). -/

namespace Sys2Proof.Machine

/-- `rd_check(clen, CIN)`: the first failure condition that holds, or the dimensions and the pixel count
(42_container_reader R153). `bytes` is `CIN.MemRead(0, 8)`, looked at only when `clen >= 8`. -/
def rdCheck (pixbufCap clen : Cnt) (bytes : List Byte) : Except SubReason (Dim × Dim × Cnt) :=
  if clen.toNat < Config.hdrLen then .error .short
  else if (clen.toNat - Config.hdrLen) % Config.recLen ≠ 0 then .error .unaligned
  else if pixbufCap.toNat < (pixelCount (parHdr bytes).1 (parHdr bytes).2).toNat then .error .dims
  else .ok ((parHdr bytes).1, (parHdr bytes).2, pixelCount (parHdr bytes).1 (parHdr bytes).2)

/-- What `DEC_BEGIN` does with the header it has fetched (42_container_reader R154, from `dec_w <- w` on): on DIMS the
parsed dimensions stay (R154, 90_conflicts C10). -/
def consumeHeader (width height : Dim) (s : State) : State :=
  let parsed := { s with decW := width, decH := height, decNpix := pixelCount width height }
  if s.par.pixbufCap.toNat < (pixelCount width height).toNat then decBeginFault .formatError .dims parsed
  else
    { parsed with
      pixbuf := decAlloc (pixelCount width height).toNat
      decCursor := 0
      rdOff := BitVec.ofNat 64 Config.hdrLen
      decPhase := .body }

/-- `HDR width height` (30_encoding R81): its execution by `DEC_BEGIN` (log 17). In D_BODY no header is ever fetched
(30_encoding R85, 44_status_access R191), and nothing happens (log 12). -/
def execHdr (width height : Dim) (s : State) : Host.Outcome State Fault Refusal :=
  if s.decPhase = .body then .next s else .next (consumeHeader width height s)

/-- `DEC_BEGIN clen` (42_container_reader R154). The order of the checks is IOError, SHORT, UNALIGNED, DIMS. An operation
whose `clen` is not the container's length is refused (70_reset_and_hazards R236, 93 U15, log 21). -/
def execDecBegin (clen : Cnt) (s : State) : Host.Outcome State Fault Refusal :=
  if s.decPhase = .body then .next (ignoreCommand s)
  else if lengthTrue clen s = false then .refused .lengthMismatch
  else if ioGood s = false then .next (decBeginFault .ioError .none (openDecode clen s))
  else if clen.toNat < Config.hdrLen then .next (decBeginFault .formatError .short (openDecode clen s))
  else if (clen.toNat - Config.hdrLen) % Config.recLen ≠ 0 then
    .next (decBeginFault .formatError .unaligned (openDecode clen s))
  else
    .next (consumeHeader (parHdr (fetchHeader s)).1 (parHdr (fetchHeader s)).2 (openDecode clen s))

end Sys2Proof.Machine
end

