-- ==== Sys2Proof/Machine/Status.lean ====
section
/-! DEFINITION. Status access: `RD_REG` (spec/44_status_access.md R190). -/

namespace Sys2Proof.Machine

/-- `RD_REG n` (44_status_access R190): an unassigned number answers 0 and sets `proto` after the response is formed. -/
def execRdReg (n : BitVec 4) (s : State) : Host.Outcome State Fault Refusal :=
  match regValue n s with
  | some v => .next { s with resp := .value v }
  | none => .next { s with proto := true, resp := .value 0 }

end Sys2Proof.Machine
end

