-- ==== Sys2Proof/Machine/Encoder.lean ====
section
/-! DEFINITION. The run-length encoder: `ENC_PIX` and its two functions (spec/40_encoder.md R112, R113, R116). -/

namespace Sys2Proof.Machine

/-- `enc_pix(last, run, p)`: the new `last`, the new `run` and at most one emitted run (40_encoder R112). -/
def encPix (last : Pixel) (run : Byte) (p : Pixel) : Pixel × Byte × Option Run :=
  if p = last ∧ run.toNat < Config.runMax then (last, run + 1, none)
  else (p, 1, if 0 < run.toNat then some ⟨run, last⟩ else none)

/-- `enc_flush(last, run)`: the new `run` and the final run, if one is pending (40_encoder R113). -/
def encFlush (last : Pixel) (run : Byte) : Byte × Option Run :=
  (0, if 0 < run.toNat then some ⟨run, last⟩ else none)

/-- `ENC_PIX r, g, b` (40_encoder R116). Only a step that emits a run touches the sink and consults `io_ok`. -/
def execEncPix (r g b : Byte) (s : State) : Host.Outcome State Fault Refusal :=
  if s.encPhase ≠ .body then .next (ignoreCommand s)
  else
    match encPix s.encLast s.encRun ⟨r, g, b⟩ with
    | (last, run, none) => .next { s with encLast := last, encRun := run, resp := .none }
    | (last, run, some out) =>
      if ioGood s = false then .next (encIoError s)
      else if coutFits Config.recLen s = false then .refused .coutOverflow
      else .next { appendCout (serRec out) s with encLast := last, encRun := run, resp := .none }

end Sys2Proof.Machine
end

