-- ==== Sys2Proof/Machine/Writer.lean ====
section
/-! DEFINITION. The container writer: `ENC_BEGIN` and `ENC_END` (spec/41_container_writer.md R134, R135). -/

namespace Sys2Proof.Machine

/-- `ENC_BEGIN width, height` (41_container_writer R134). The width and the height are not kept. -/
def execEncBegin (width height : Dim) (s : State) : Host.Outcome State Fault Refusal :=
  if s.encPhase = .body then .next (ignoreCommand s)
  else if ioGood s = false then .next (encIoError (openEncode s))
  else .next { appendCout (serHdr width height) (openEncode s) with encPhase := .body }

/-- `ENC_END` (41_container_writer R135). It always consults `io_ok`, for the flush and sync; `sync(COUT)` changes no
register and no byte, its meaning is what `sinkByte` promises in E_DONE (R136). -/
def execEncEnd (s : State) : Host.Outcome State Fault Refusal :=
  if s.encPhase ≠ .body then .next (ignoreCommand s)
  else if ioGood s = false then .next (encIoError s)
  else
    match encFlush s.encLast s.encRun with
    | (run, none) => .next { s with encRun := run, encPhase := .done, resp := .none }
    | (run, some out) =>
      if coutFits Config.recLen s = false then .refused .coutOverflow
      else .next { appendCout (serRec out) s with encRun := run, encPhase := .done, resp := .none }

end Sys2Proof.Machine
end

