-- ==== Sys2Proof/Machine/Dispatch.lean ====
section
/-! DEFINITION. The meaning of each instruction, one arm per row of spec/opcode_table.json. -/

namespace Sys2Proof.Machine

def exec (i : Instr) (s : State) : Host.Outcome State Fault Refusal :=
  match i with
  | .encBegin width height => Sys2Proof.Machine.execEncBegin width height s
  | .encPix r g b => Sys2Proof.Machine.execEncPix r g b s
  | .encEnd => Sys2Proof.Machine.execEncEnd s
  | .decBegin clen => Sys2Proof.Machine.execDecBegin clen s
  | .decRdpix idx => Sys2Proof.Machine.execDecRdpix idx s
  | .rdReg n => Sys2Proof.Machine.execRdReg n s
  | .decStep => Sys2Proof.Machine.execDecStep s
  | .hdr width height => Sys2Proof.Machine.execHdr width height s
  | .run len r g b => Sys2Proof.Machine.execRun len r g b s

end Sys2Proof.Machine
end

