-- ==== Sys2Proof/Machine/HostPort.lean ====
section
/-! DEFINITION. What the host's events do besides commands: `RESET` and placing a container
(spec/70_reset_and_hazards.md R230 to R236), and laying a table word out where the step fetches it. -/

namespace Sys2Proof.Machine

/-- `RESET` (70_reset_and_hazards R231, R232): every register as in `State.reset`; the inputs and the counter of the
decode path's free values stay. The sink is not touched and what it holds is unspecified: a free value (log 10).
`PIXBUF` has no slots. -/
def applyReset (s : State) : State :=
  { State.reset with
    cout := cellsOf 0 (Config.freeCout s.encFree)
    encFree := s.encFree + 1
    cin := s.cin
    cinLen := s.cinLen
    ioOk := s.ioOk
    host := s.host
    par := s.par
    decFree := s.decFree }

/-- A container's bytes as a memory, from offset 0 (20_memory R59). -/
def containerOf (bytes : List Byte) : Memory := Memory.writeBytes [] 0 bytes

/-- The host places a container in `CIN`, with its length (70_reset_and_hazards R234). In D_BODY it must leave
`CIN[0..rd_len)` as it was, every byte still there (R236); the spec says nothing of a run in which it does not: a fault
(log 6). -/
def placeContainer (bytes : List Byte) (s : State) : Host.Outcome State Fault Refusal :=
  if s.decPhase = .body ∧
      (bytes.length < s.rdLen.toNat ∨ (containerOf bytes).below s.rdLen.toNat ≠ s.cin.below s.rdLen.toNat) then
    .fault .cinChanged
  else .next { s with cin := containerOf bytes, cinLen := bytes.length }

/-- The command word of `DEC_BEGIN 8` (30_encoding R89). -/
def decBeginHeaderWord : CmdWord := 0x40000000000000008

/-- The length of the container in `CIN` when a command word is laid out: `clen` for a `DEC_BEGIN clen`, since the host
has placed what it announces (70_reset_and_hazards R234, R236), else as it is. -/
def layOutLength (cw : CmdWord) (s : State) : Nat :=
  if opField cw = 0x4 then (cw.extractLsb' 0 64).toNat else s.cinLen

/-- `s` with what a table word is fetched from laid out, so that the next step runs it (log 4): a command word at the
port, a `DEC_BEGIN` with a container of its length; a header in `CIN[0..8)` and `DEC_BEGIN 8` at the port, outside
D_BODY; a record at offset 8 of `CIN`, in D_BODY, the decode path's turn next; the autonomous step in D_BODY, its turn
next. -/
def layOut (code : Code) (s : State) : State :=
  match code with
  | .command cw => { s with cinLen := layOutLength cw s, host := .command cw true :: s.host }
  | .header bytes =>
    { s with
      cin := s.cin.writeBytes 0 bytes
      cinLen := 8
      decPhase := if s.decPhase = .body then .idle else s.decPhase
      host := .command decBeginHeaderWord true :: s.host }
  | .record bytes =>
    { s with
      cin := s.cin.writeBytes Config.hdrLen bytes
      cinLen := 12
      decPhase := .body
      rdOff := 8
      rdLen := 12
      host := .decTurn :: s.host }
  | .turn => { s with decPhase := .body, host := .decTurn :: s.host }

end Sys2Proof.Machine
end

