-- ==== Sys2Proof/Machine/Step.lean ====
section
/-! DEFINITION. One step of the machine: the host's next event, or, when it has none, the autonomous step of the
decode path (spec/00_scope.md R6, R7, spec/43_decoder.md R180). -/

namespace Sys2Proof.Machine

/-- A command at the port: the decoded instruction runs; an unassigned code is ignored (30_encoding R90). -/
def stepCommand (cw : CmdWord) (s : State) : Host.Outcome State Fault Refusal :=
  match decode (.command cw) with
  | .ok i => exec i s
  | .error _ => .next (ignoreCommand s)

/-- The autonomous turn of the decode path. -/
def stepTurn (s : State) : Host.Outcome State Fault Refusal :=
  match decode .turn with
  | .ok i => exec i s
  | .error _ => .next s

/-- One step. With no event pending and `DEC_STEP` not enabled nothing happens (70_reset_and_hazards R231, log 3). -/
def step (s : State) : Host.Outcome State Fault Refusal :=
  match s.host with
  | [] => stepTurn s
  | .command cw ioOk :: rest => stepCommand cw { s with host := rest, ioOk := ioOk }
  | .decTurn :: rest => stepTurn { s with host := rest }
  | .place bytes :: rest => placeContainer bytes { s with host := rest }
  | .reset :: rest => .next (applyReset { s with host := rest })

/-- `s` with a table word stored where `step` fetches its next instruction (log 4, log 22). -/
def State.withFetchWord (s : State) (nbits w : Nat) : State :=
  match tableCode nbits w with
  | some code => layOut code s
  | none => s

end Sys2Proof.Machine
end

