-- ==== Sys2Proof/Safety.lean ====
section
/-! DEFINITION. The terms that statements about the block use: encoded streams and what they expand to
(spec/40_encoder.md R118, spec/43_decoder.md R178), sequences of steps, the invariants of spec/10_state.md R39, and the
edges of the phase registers (R43). -/

namespace Sys2Proof.Machine

/-! ### Streams of runs -/

/-- `expand`: each run `(len, c)` becomes `rep(len, c)` (40_encoder R118). -/
def expand : List Run → List Pixel
  | [] => []
  | run :: runs => List.replicate run.len.toNat run.color ++ expand runs

/-- The sum of the run lengths. -/
def totalLength : List Run → Nat
  | [] => 0
  | run :: runs => run.len.toNat + totalLength runs

/-- The runs emitted by the `ENC_PIX` steps over the given pixels and the final `ENC_END`, in order, from an encoder
state `(last, run)` (40_encoder R118). -/
def encodedStream (last : Pixel) (run : Byte) : List Pixel → List Run
  | [] => (encFlush last run).2.toList
  | p :: ps =>
    (encPix last run p).2.2.toList ++ encodedStream (encPix last run p).1 (encPix last run p).2.1 ps

/-- Two consecutive runs have the same colour only if the first has length 255 (40_encoder R118 (d)). -/
def cappedBeforeRepeat : List Run → Prop
  | r1 :: r2 :: rs => (r1.color = r2.color → r1.len = 255) ∧ cappedBeforeRepeat (r2 :: rs)
  | _ => True

/-- Record `k` of a container: the run in its bytes `8 + 4k` to `8 + 4k + 3` (20_memory R57). -/
def recordAt (c : Memory) (k : Nat) : Run :=
  parRec (c.readBytes (Config.hdrLen + Config.recLen * k) Config.recLen)

/-- The first `n` records of a container. -/
def recordsUpTo (c : Memory) (n : Nat) : List Run := (List.range n).map (recordAt c)

/-- How many records lie below offset `off`. -/
def recordIndex (off : Nat) : Nat := (off - Config.hdrLen) / Config.recLen

/-- Slot `i` of a buffer into which the given runs were expanded: the pixel of the run that covers it, else
`DEFAULT_PIXEL` (10_state R39 (g), 43_decoder R178). -/
def expandedSlot (runs : List Run) (i : Nat) : Pixel := (expand runs).getD i Config.defaultPixel

/-- A whole container: the header, then every run in order (41_container_writer R136). -/
def containerBytes (width height : Dim) (runs : List Run) : List Byte := serHdr width height ++ runs.flatMap serRec

/-! ### Sequences of steps -/

/-- Instructions one after another; the first fault or refusal ends the sequence. -/
def execAll : List Instr → State → Host.Outcome State Fault Refusal
  | [], s => .next s
  | i :: is, s =>
    match exec i s with
    | .next t => execAll is t
    | .fault f => .fault f
    | .refused r => .refused r

/-- The commands that encode a grid: `ENCODE width, height, pixels` (30_encoding R93). -/
def encodeCommands (width height : Dim) (pixels : List Pixel) : List Instr :=
  .encBegin width height :: (pixels.map (fun p => Instr.encPix p.r p.g p.b) ++ [.encEnd])

/-! ### Families -/

/-- The instructions whose steps belong to the encode path (00_scope R7). -/
def onEncodePath : Instr → Bool
  | .encBegin _ _ => true
  | .encPix _ _ _ => true
  | .encEnd => true
  | .decBegin _ => false
  | .decRdpix _ => false
  | .rdReg _ => false
  | .decStep => false
  | .hdr _ _ => false
  | .run _ _ _ _ => false

/-- The instructions whose steps belong to the decode path (00_scope R7), with the items it executes. -/
def onDecodePath : Instr → Bool
  | .encBegin _ _ => false
  | .encPix _ _ _ => false
  | .encEnd => false
  | .decBegin _ => true
  | .decRdpix _ => true
  | .rdReg _ => false
  | .decStep => true
  | .hdr _ _ => true
  | .run _ _ _ _ => true

/-- The acceptance table (44_status_access R191): in which states an instruction has its own effect. For `HDR` and `RUN`
these are the states in which `DEC_BEGIN` and `DEC_STEP` fetch them (42_container_reader R154, 43_decoder R173). -/
def accepts (i : Instr) (s : State) : Bool :=
  match i with
  | .encBegin _ _ => decide (s.encPhase ≠ .body)
  | .encPix _ _ _ => decide (s.encPhase = .body)
  | .encEnd => decide (s.encPhase = .body)
  | .decBegin _ => decide (s.decPhase ≠ .body)
  | .decRdpix idx => decide (s.decPhase = .done) && decide (idx.toNat < s.decNpix.toNat)
  | .rdReg _ => true
  | .decStep => decide (s.decPhase = .body)
  | .hdr _ _ => decide (s.decPhase ≠ .body)
  | .run _ _ _ _ => decide (s.decPhase = .body) && decide (s.rdOff.toNat + 4 ≤ s.rdLen.toNat)

/-- The registers and the memory of the encode path, and what its steps consult, are the same in both states. -/
def sameEncodePath (s t : State) : Prop :=
  s.encPhase = t.encPhase ∧ s.encLast = t.encLast ∧ s.encRun = t.encRun ∧ s.wrLen = t.wrLen ∧ s.encErr = t.encErr ∧
  s.cout = t.cout ∧ s.encFree = t.encFree

/-- The registers and the memory of the decode path, and what its steps consult, are the same in both states. -/
def sameDecodePath (s t : State) : Prop :=
  s.decPhase = t.decPhase ∧ s.decW = t.decW ∧ s.decH = t.decH ∧ s.decNpix = t.decNpix ∧ s.decCursor = t.decCursor ∧
  s.rdOff = t.rdOff ∧ s.rdLen = t.rdLen ∧ s.decErr = t.decErr ∧ s.decSub = t.decSub ∧ s.pixbuf = t.pixbuf ∧
  s.decFree = t.decFree

/-- The inputs are the same in both states (10_state R35). -/
def sameInputs (s t : State) : Prop :=
  s.cin = t.cin ∧ s.cinLen = t.cinLen ∧ s.ioOk = t.ioOk ∧ s.host = t.host ∧ s.par = t.par

/-- The response aside: the two paths answer through one port. -/
def withoutResponse (s : State) : State := { s with resp := .none }

/-! ### Invariants -/

/-- Every memory is in canonical form. -/
def memoriesWf (s : State) : Bool := s.cout.wf && s.cin.wf && s.pixbuf.wf

/-- The encode path (10_state R39 (a), (b), (c), R23, R25). `enc_run <= 255` holds by its width. -/
def EncodeInv (s : State) : Prop :=
  (s.encPhase = .fault ↔ s.encErr ≠ .none) ∧
  (s.encErr = .none ∨ s.encErr = .ioError) ∧
  (s.encPhase = .idle → s.wrLen = 0 ∧ s.encRun = 0) ∧
  (s.encPhase = .body ∨ s.encPhase = .done →
    Config.hdrLen ≤ s.wrLen.toNat ∧ (s.wrLen.toNat - Config.hdrLen) % Config.recLen = 0) ∧
  (s.encPhase = .body → s.encRun = 0 → s.wrLen.toNat = Config.hdrLen) ∧
  (s.encPhase = .done → s.encRun = 0)

/-- What the encode path has written is canonical (40_encoder R118 (b), (d), 30_encoding R87): every record in `COUT`
has length 1 to 255, and a record has the colour of the next one, or of the pending run, only if its length is 255. -/
def OutputCanonical (s : State) : Prop :=
  s.encPhase = .body ∨ s.encPhase = .done →
    ∀ k < recordIndex s.wrLen.toNat,
      (recordAt s.cout k).len ≠ 0 ∧
      (k + 1 < recordIndex s.wrLen.toNat → (recordAt s.cout k).color = (recordAt s.cout (k + 1)).color →
        (recordAt s.cout k).len = 255) ∧
      (s.encPhase = .body → k + 1 = recordIndex s.wrLen.toNat → (recordAt s.cout k).color = s.encLast →
        (recordAt s.cout k).len = 255)

/-- The decode path has taken a container: D_BODY, D_DONE, or D_FAULT with OutOfBoundsError (10_state R39 (d), (f)). -/
def decodeOpened (s : State) : Prop :=
  s.decPhase = .body ∨ s.decPhase = .done ∨ s.decErr = .outOfBounds

/-- The registers of the decode path (10_state R39 (b), (d), (e), (f), R33, 60_exceptions R201). -/
def DecodeInv (s : State) : Prop :=
  (s.decPhase = .fault ↔ s.decErr ≠ .none) ∧
  (s.decSub ≠ .none ↔ s.decErr = .formatError) ∧
  s.decNpix = pixelCount s.decW s.decH ∧
  (s.decPhase = .idle → s.decW = 0 ∧ s.decH = 0 ∧ s.decCursor = 0 ∧ s.rdOff = 0 ∧ s.rdLen = 0) ∧
  (s.decErr = .ioError ∨ s.decSub = .short ∨ s.decSub = .unaligned →
    s.decW = 0 ∧ s.decH = 0 ∧ s.decCursor = 0 ∧ s.rdOff = 0) ∧
  (s.decSub = .dims → s.par.pixbufCap.toNat < s.decNpix.toNat ∧ s.decCursor = 0 ∧ s.rdOff = 0) ∧
  (decodeOpened s →
    Config.hdrLen ≤ s.rdLen.toNat ∧ (s.rdLen.toNat - Config.hdrLen) % Config.recLen = 0 ∧
    Config.hdrLen ≤ s.rdOff.toNat ∧ s.rdOff.toNat ≤ s.rdLen.toNat ∧
    (s.rdOff.toNat - Config.hdrLen) % Config.recLen = 0 ∧
    s.decNpix.toNat ≤ s.par.pixbufCap.toNat ∧ s.decCursor.toNat ≤ s.decNpix.toNat) ∧
  (s.decPhase = .done → s.rdOff = s.rdLen) ∧
  (s.decErr = .outOfBounds → s.rdOff.toNat < s.rdLen.toNat)

/-- What the decode path has done with the container `c` (10_state R39 (d), (f), (g)): the dimensions are its header's,
the cursor is the sum of the lengths of the records below `rd_off`, the buffer holds their expansion and `DEFAULT_PIXEL`
elsewhere, and after an OutOfBoundsError the record at `rd_off` is one that does not fit. -/
def DecodedFrom (c : Memory) (s : State) : Prop :=
  parHdr (c.readBytes 0 Config.hdrLen) = (s.decW, s.decH) ∧
  s.decCursor.toNat = totalLength (recordsUpTo c (recordIndex s.rdOff.toNat)) ∧
  (∀ i, s.pixbuf.read i = expandedSlot (recordsUpTo c (recordIndex s.rdOff.toNat)) i) ∧
  (s.decErr = .outOfBounds →
    s.decNpix.toNat - s.decCursor.toNat < (recordAt c (recordIndex s.rdOff.toNat)).len.toNat)

/-- The content of the decode path is that of one container, which in D_BODY is `CIN[0..rd_len)`; afterwards the host
may have placed another (70_reset_and_hazards R236). -/
def DecodeContent (s : State) : Prop :=
  decodeOpened s →
    ∃ c : Memory, (s.decPhase = .body → ∀ a < s.rdLen.toNat, c.read a = s.cin.read a) ∧ DecodedFrom c s

/-- No slot at or beyond `dec_npix` is listed (10_state R34, 60_exceptions R217). -/
def SlotsBounded (s : State) : Prop := ∀ cell ∈ s.pixbuf, cell.1 < s.decNpix.toNat

/-- The host's duty of 70_reset_and_hazards R236: in D_BODY the container is still there, and `CIN` lists no byte beyond
its length. -/
def ContainerPlaced (s : State) : Prop :=
  (s.decPhase = .body → s.rdLen.toNat ≤ s.cinLen) ∧ ∀ cell ∈ s.cin, cell.1 < s.cinLen

/-- The invariant of the block (10_state R39) and of its source (70_reset_and_hazards R236). -/
def BlockInv (s : State) : Prop :=
  memoriesWf s = true ∧ EncodeInv s ∧ DecodeInv s ∧ DecodeContent s ∧ SlotsBounded s ∧ ContainerPlaced s

/-! ### Phase edges -/

/-- The edges of a phase register (10_state R43 (b)), staying put among them; RESET is apart. -/
def phaseEdge : Phase → Phase → Bool
  | .idle, .idle => true
  | .idle, .body => true
  | .idle, .fault => true
  | .idle, .done => false
  | .body, .body => true
  | .body, .done => true
  | .body, .fault => true
  | .body, .idle => false
  | .done, .done => true
  | .done, .body => true
  | .done, .fault => true
  | .done, .idle => false
  | .fault, .fault => true
  | .fault, .body => true
  | .fault, .done => false
  | .fault, .idle => false

end Sys2Proof.Machine
end

