-- ==== Sys2Proof/Certificates/Slice0/Obligations.lean ====
section
/-! DEFINITION. The statements for the provers. Each docstring names the rules of spec/ it rests on. -/

open Sys2Proof Sys2Proof.Machine

/-! ### Encodings -/

/-- R83, R88, R89: no bit of a well-formed word is dropped. Unused operand bits (R90) are no part of an instruction. -/
def Obligations.DecodeOfEncode : Prop := ∀ i : Instr, decode (encode i) = .ok i

/-- R94: a command word selects a row of format `CMD` exactly when the decoder reads that row's instruction from it. -/
def Obligations.CommandTableAgreesWithDecoder : Prop :=
  ∀ row ∈ commandTable, ∀ cw : CmdWord,
    row.selects cw = true ↔ ∃ i, decode (.command cw) = .ok i ∧ i.mnemonic = row.mnemonic

/-- R90. -/
def Obligations.UnassignedCodesAndUnusedBits : Prop :=
  (∀ (s : State) (cw : CmdWord) (ok : Bool) (rest : List HostEvent),
    s.host = .command cw ok :: rest → ((opField cw).toNat = 0 ∨ 7 ≤ (opField cw).toNat) →
    step s = .next { s with host := rest, ioOk := ok, proto := true, resp := .none }) ∧
  (∀ arg arg' : BitVec 64, arg.extractLsb' 0 24 = arg'.extractLsb' 0 24 →
    decode (.command (0x2#4 ++ arg)) = decode (.command (0x2#4 ++ arg'))) ∧
  (∀ arg arg' : BitVec 64, decode (.command (0x3#4 ++ arg)) = decode (.command (0x3#4 ++ arg'))) ∧
  (∀ arg arg' : BitVec 64, arg.extractLsb' 0 4 = arg'.extractLsb' 0 4 →
    decode (.command (0x6#4 ++ arg)) = decode (.command (0x6#4 ++ arg')))

/-- R55: the byte order as numbers, the two functions inverse to each other, and the same order in the writer and the
reader. -/
def Obligations.HeaderFieldsLittleEndian : Prop :=
  (∀ b0 b1 b2 b3 : Byte,
    (le32 b0 b1 b2 b3).toNat = b0.toNat + 2 ^ 8 * b1.toNat + 2 ^ 16 * b2.toNat + 2 ^ 24 * b3.toNat) ∧
  (∀ v : Dim, (bytesLe32 v).map BitVec.toNat =
    [v.toNat % 2 ^ 8, v.toNat / 2 ^ 8 % 2 ^ 8, v.toNat / 2 ^ 16 % 2 ^ 8, v.toNat / 2 ^ 24 % 2 ^ 8]) ∧
  (∀ v : Dim, ∀ b0 b1 b2 b3 : Byte, bytesLe32 v = [b0, b1, b2, b3] → le32 b0 b1 b2 b3 = v) ∧
  (∀ b0 b1 b2 b3 : Byte, bytesLe32 (le32 b0 b1 b2 b3) = [b0, b1, b2, b3]) ∧
  (∀ w h : Dim, serHdr w h = bytesLe32 w ++ bytesLe32 h) ∧
  (∀ b0 b1 b2 b3 b4 b5 b6 b7 : Byte,
    parHdr [b0, b1, b2, b3, b4, b5, b6, b7] = (le32 b0 b1 b2 b3, le32 b4 b5 b6 b7))

/-- R151, R131. -/
def Obligations.HeaderParserInvertsSerializer : Prop :=
  (∀ b0 b1 b2 b3 b4 b5 b6 b7 : Byte,
    parHdr [b0, b1, b2, b3, b4, b5, b6, b7] = (le32 b0 b1 b2 b3, le32 b4 b5 b6 b7)) ∧
  (∀ w h : Dim, serHdr w h =
    [w.extractLsb' 0 8, w.extractLsb' 8 8, w.extractLsb' 16 8, w.extractLsb' 24 8,
     h.extractLsb' 0 8, h.extractLsb' 8 8, h.extractLsb' 16 8, h.extractLsb' 24 8]) ∧
  (∀ w h : Dim, parHdr (serHdr w h) = (w, h)) ∧
  (∀ bytes : List Byte, bytes.length = 8 → serHdr (parHdr bytes).1 (parHdr bytes).2 = bytes) ∧
  serHdr 2 2 = [0x02, 0, 0, 0, 0x02, 0, 0, 0] ∧
  serHdr 1 300 = [0x01, 0, 0, 0, 0x2C, 0x01, 0, 0] ∧
  parHdr [0x01, 0, 0, 0, 0x2C, 0x01, 0, 0] = (1, 300) ∧
  parHdr [0, 0, 0, 0x01, 0xFF, 0xFF, 0xFF, 0xFF] = (16777216, 4294967295)

/-- R152, R132. -/
def Obligations.RecordParserInvertsSerializer : Prop :=
  (∀ b0 b1 b2 b3 : Byte, parRec [b0, b1, b2, b3] = ⟨b0, ⟨b1, b2, b3⟩⟩) ∧
  (∀ run : Run, serRec run = [run.len, run.color.r, run.color.g, run.color.b]) ∧
  (∀ run : Run, parRec (serRec run) = run) ∧
  (∀ bytes : List Byte, bytes.length = 4 → serRec (parRec bytes) = bytes) ∧
  serRec ⟨4, ⟨0, 0, 0⟩⟩ = [0x04, 0x00, 0x00, 0x00] ∧
  serRec ⟨255, ⟨255, 0, 0⟩⟩ = [0xFF, 0xFF, 0x00, 0x00] ∧
  serRec ⟨45, ⟨255, 0, 0⟩⟩ = [0x2D, 0xFF, 0x00, 0x00] ∧
  parRec [0x2D, 0xFF, 0x00, 0x00] = ⟨45, ⟨255, 0, 0⟩⟩

/-- R89, R81, R82: words of 95_test_vectors, written out from the encodings (P1, E13, E14, P2, G4, F6c, S2). -/
def Obligations.WrittenOutWordsDecode : Prop :=
  decode (.command 0x10000000200000002) = .ok (.encBegin 2 2) ∧
  decode (.command 0x10A0B0C0D01020304) = .ok (.encBegin 0x01020304 0x0A0B0C0D) ∧
  decode (.command 0x2FFFFFFFFFF1E140A) = .ok (.encPix 10 20 30) ∧
  decode (.command 0x3DEADBEEFDEADBEEF) = .ok .encEnd ∧
  decode (.command 0x40000000000000010) = .ok (.decBegin 16) ∧
  decode (.command 0x5000000000000012B) = .ok (.decRdpix 299) ∧
  decode (.command 0x6FFFFFFFFFFFFFFF1) = .ok (.rdReg 1) ∧
  decode (.command 0xF0123456789ABCDEF) = .error (.unassignedOp 0xF) ∧
  decode (.header [0x04, 0x03, 0x02, 0x01, 0x0D, 0x0C, 0x0B, 0x0A]) = .ok (.hdr 0x01020304 0x0A0B0C0D) ∧
  decode (.record [0x2D, 0xFF, 0x00, 0x00]) = .ok (.run 45 255 0 0)

/-! ### The encoder as functions -/

/-- R112, R113. -/
def Obligations.EncoderFunctions : Prop :=
  ∀ (last p : Pixel) (run : Byte),
    (p = last ∧ run.toNat < 255 →
      encPix last run p = (last, run + 1, none) ∧ (run + 1).toNat = run.toNat + 1) ∧
    (¬(p = last ∧ run.toNat < 255) →
      encPix last run p = (p, 1, if 0 < run.toNat then some ⟨run, last⟩ else none)) ∧
    encFlush last run = (0, if 0 < run.toNat then some ⟨run, last⟩ else none)

/-- R115: with nothing pending, neither the next state nor any output depends on the colour kept. -/
def Obligations.PendingColourIrrelevantAtZero : Prop :=
  (∀ last p : Pixel, encPix last 0 p = (p, 1, none)) ∧
  ∀ (last last' : Pixel) (pixels : List Pixel), encodedStream last 0 pixels = encodedStream last' 0 pixels

/-- R114. -/
def Obligations.CapPolicy : Prop :=
  ∀ c : Pixel,
    encPix c 255 c = (c, 1, some ⟨255, c⟩) ∧
    (∀ run : Byte, run.toNat < 255 → (encPix c run c).2.2 = none) ∧
    encFlush c 255 = (0, some ⟨255, c⟩) ∧
    ∀ last : Pixel, encodedStream last 0 (List.replicate 255 c) = [⟨255, c⟩] ∧
      encodedStream last 0 (List.replicate 256 c) = [⟨255, c⟩, ⟨1, c⟩]

/-- R118 (a), (c). -/
def Obligations.StreamExpandsToPixels : Prop :=
  ∀ (last : Pixel) (pixels : List Pixel),
    expand (encodedStream last 0 pixels) = pixels ∧ totalLength (encodedStream last 0 pixels) = pixels.length

/-- R118 (b), (d). -/
def Obligations.StreamIsCanonical : Prop :=
  ∀ (last : Pixel) (pixels : List Pixel),
    (∀ run ∈ encodedStream last 0 pixels, 1 ≤ run.len.toNat ∧ run.len.toNat ≤ 255) ∧
    cappedBeforeRepeat (encodedStream last 0 pixels)

/-- R118 (e): a maximal block of `m` equal pixels becomes `m div 255` runs of length 255, then one of length `m mod 255`
if that is not 0; what is emitted before and after is what the pixels before and after give by themselves. -/
def Obligations.MaximalBlockRuns : Prop :=
  ∀ (last c : Pixel) (before after : List Pixel) (m : Nat), 1 ≤ m →
    before.getLast? ≠ some c → after.head? ≠ some c →
    encodedStream last 0 (before ++ List.replicate m c ++ after) =
      encodedStream last 0 before ++
        (List.replicate (m / 255) ⟨255, c⟩ ++ (if 0 < m % 255 then [⟨BitVec.ofNat 8 (m % 255), c⟩] else [])) ++
        encodedStream last 0 after

/-! ### The encode path -/

/-- R134. -/
def Obligations.EncBeginResult : Prop :=
  ∀ (w h : Dim) (s : State),
    decode (.command (0x1#4 ++ (h ++ w))) = .ok (.encBegin w h) ∧
    (s.encPhase = .body → exec (.encBegin w h) s = .next { s with proto := true, resp := .none }) ∧
    (s.encPhase ≠ .body → ioGood s = true →
      exec (.encBegin w h) s = .next { s with
        encErr := .none, encRun := 0, wrLen := 8, cout := Memory.writeBytes [] 0 (serHdr w h),
        encPhase := .body, resp := .none }) ∧
    (s.encPhase ≠ .body → ioGood s = false →
      ∃ (len : Cnt) (bytes : Memory), exec (.encBegin w h) s = .next { s with
        encErr := .ioError, encRun := 0, wrLen := len, cout := bytes, encPhase := .fault, resp := .none,
        encFree := s.encFree + 1 })

/-- R116. -/
def Obligations.EncPixResult : Prop :=
  ∀ (r g b : Byte) (s : State),
    (∀ unused : BitVec 40, decode (.command (0x2#4 ++ (unused ++ (b ++ (g ++ r))))) = .ok (.encPix r g b)) ∧
    (s.encPhase ≠ .body → exec (.encPix r g b) s = .next { s with proto := true, resp := .none }) ∧
    (s.encPhase = .body → (⟨r, g, b⟩ : Pixel) = s.encLast → s.encRun.toNat < 255 →
      exec (.encPix r g b) s = .next { s with encRun := s.encRun + 1, resp := .none }) ∧
    (s.encPhase = .body → s.encRun = 0 →
      exec (.encPix r g b) s = .next { s with encLast := ⟨r, g, b⟩, encRun := 1, resp := .none }) ∧
    (s.encPhase = .body → s.encRun ≠ 0 → ((⟨r, g, b⟩ : Pixel) ≠ s.encLast ∨ s.encRun = 255) →
      ioGood s = true → s.wrLen.toNat + 4 < 2 ^ 64 →
      exec (.encPix r g b) s = .next { s with
        cout := s.cout.writeBytes s.wrLen.toNat [s.encRun, s.encLast.r, s.encLast.g, s.encLast.b],
        wrLen := s.wrLen + 4, encLast := ⟨r, g, b⟩, encRun := 1, resp := .none }) ∧
    (s.encPhase = .body → s.encRun ≠ 0 → ((⟨r, g, b⟩ : Pixel) ≠ s.encLast ∨ s.encRun = 255) →
      ioGood s = false →
      ∃ (len : Cnt) (bytes : Memory), exec (.encPix r g b) s = .next { s with
        encErr := .ioError, wrLen := len, cout := bytes, encPhase := .fault, resp := .none,
        encFree := s.encFree + 1 })

/-- R135. -/
def Obligations.EncEndResult : Prop :=
  ∀ s : State,
    (∀ unused : BitVec 64, decode (.command (0x3#4 ++ unused)) = .ok .encEnd) ∧
    (s.encPhase ≠ .body → exec .encEnd s = .next { s with proto := true, resp := .none }) ∧
    (s.encPhase = .body → ioGood s = true → s.encRun = 0 →
      exec .encEnd s = .next { s with encPhase := .done, resp := .none }) ∧
    (s.encPhase = .body → ioGood s = true → s.encRun ≠ 0 → s.wrLen.toNat + 4 < 2 ^ 64 →
      exec .encEnd s = .next { s with
        cout := s.cout.writeBytes s.wrLen.toNat [s.encRun, s.encLast.r, s.encLast.g, s.encLast.b],
        wrLen := s.wrLen + 4, encRun := 0, encPhase := .done, resp := .none }) ∧
    (s.encPhase = .body → ioGood s = false →
      ∃ (len : Cnt) (bytes : Memory), exec .encEnd s = .next { s with
        encErr := .ioError, wrLen := len, cout := bytes, encPhase := .fault, resp := .none,
        encFree := s.encFree + 1 })

/-- R133, 93 U9, the model's choice of log 11: where a record would take `wr_len` past 2^64 - 1 the model refuses. -/
def Obligations.SinkOverflowRefused : Prop :=
  ∀ s : State, s.encPhase = .body → s.encRun ≠ 0 → ioGood s = true → 2 ^ 64 ≤ s.wrLen.toNat + 4 →
    exec .encEnd s = .refused .coutOverflow ∧
    ∀ r g b : Byte, ((⟨r, g, b⟩ : Pixel) ≠ s.encLast ∨ s.encRun = 255) →
      exec (.encPix r g b) s = .refused .coutOverflow

/-! ### The decode path -/

/-- R154, under the host's duty that `clen` is the container's length (R236, R242); PlacingContainer says what the model
does where it is not (log 21). -/
def Obligations.DecBeginResult : Prop :=
  ∀ (clen : Cnt) (s : State),
    decode (.command (0x4#4 ++ clen)) = .ok (.decBegin clen) ∧
    (s.decPhase = .body → exec (.decBegin clen) s = .next { s with proto := true, resp := .none }) ∧
    (s.decPhase ≠ .body → clen.toNat = s.cinLen → ioGood s = false →
      ∃ buf : PixelMemory, exec (.decBegin clen) s = .next { s with
        decErr := .ioError, decSub := .none, decPhase := .fault, decW := 0, decH := 0, decNpix := 0, decCursor := 0,
        rdOff := 0, rdLen := clen, pixbuf := buf, resp := .none, decFree := s.decFree + 1 }) ∧
    (s.decPhase ≠ .body → clen.toNat = s.cinLen → ioGood s = true → clen.toNat < 8 →
      ∃ buf : PixelMemory, exec (.decBegin clen) s = .next { s with
        decErr := .formatError, decSub := .short, decPhase := .fault, decW := 0, decH := 0, decNpix := 0,
        decCursor := 0, rdOff := 0, rdLen := clen, pixbuf := buf, resp := .none, decFree := s.decFree + 1 }) ∧
    (s.decPhase ≠ .body → clen.toNat = s.cinLen → ioGood s = true → 8 ≤ clen.toNat → (clen.toNat - 8) % 4 ≠ 0 →
      ∃ buf : PixelMemory, exec (.decBegin clen) s = .next { s with
        decErr := .formatError, decSub := .unaligned, decPhase := .fault, decW := 0, decH := 0, decNpix := 0,
        decCursor := 0, rdOff := 0, rdLen := clen, pixbuf := buf, resp := .none, decFree := s.decFree + 1 }) ∧
    (∀ w h : Dim, s.decPhase ≠ .body → clen.toNat = s.cinLen → ioGood s = true → 8 ≤ clen.toNat → (clen.toNat - 8) % 4 = 0 →
      parHdr (s.cin.readBytes 0 8) = (w, h) → s.par.pixbufCap.toNat < w.toNat * h.toNat →
      ∃ buf : PixelMemory, exec (.decBegin clen) s = .next { s with
        decErr := .formatError, decSub := .dims, decPhase := .fault, decW := w, decH := h,
        decNpix := BitVec.ofNat 64 (w.toNat * h.toNat), decCursor := 0, rdOff := 0, rdLen := clen, pixbuf := buf,
        resp := .none, decFree := s.decFree + 1 }) ∧
    (∀ w h : Dim, s.decPhase ≠ .body → clen.toNat = s.cinLen → ioGood s = true → 8 ≤ clen.toNat → (clen.toNat - 8) % 4 = 0 →
      parHdr (s.cin.readBytes 0 8) = (w, h) → w.toNat * h.toNat ≤ s.par.pixbufCap.toNat →
      exec (.decBegin clen) s = .next { s with
        decErr := .none, decSub := .none, decPhase := .body, decW := w, decH := h,
        decNpix := BitVec.ofNat 64 (w.toNat * h.toNat), decCursor := 0, rdOff := 8, rdLen := clen, pixbuf := [],
        resp := .none })

/-- R81, R154, the model's reading of log 17: the header item does the second half of `DEC_BEGIN`. -/
def Obligations.HdrResult : Prop :=
  ∀ (w h : Dim) (s : State),
    (s.decPhase ≠ .body → w.toNat * h.toNat ≤ s.par.pixbufCap.toNat →
      exec (.hdr w h) s = .next { s with
        decPhase := .body, decW := w, decH := h, decNpix := BitVec.ofNat 64 (w.toNat * h.toNat), decCursor := 0,
        rdOff := 8, pixbuf := [] }) ∧
    (s.decPhase ≠ .body → s.par.pixbufCap.toNat < w.toNat * h.toNat →
      ∃ buf : PixelMemory, exec (.hdr w h) s = .next { s with
        decErr := .formatError, decSub := .dims, decPhase := .fault, decW := w, decH := h,
        decNpix := BitVec.ofNat 64 (w.toNat * h.toNat), pixbuf := buf, decFree := s.decFree + 1 })

/-- R153: the checks in their order, first failure first, and `DEC_BEGIN` of the container's length (R236) ends as they
say. -/
def Obligations.DecBeginFollowsRdCheck : Prop :=
  (∀ (cap clen : Cnt) (bytes : List Byte),
    (clen.toNat < 8 → rdCheck cap clen bytes = .error .short) ∧
    (8 ≤ clen.toNat → (clen.toNat - 8) % 4 ≠ 0 → rdCheck cap clen bytes = .error .unaligned) ∧
    (∀ w h : Dim, 8 ≤ clen.toNat → (clen.toNat - 8) % 4 = 0 → parHdr bytes = (w, h) →
      (cap.toNat < w.toNat * h.toNat → rdCheck cap clen bytes = .error .dims) ∧
      (w.toNat * h.toNat ≤ cap.toNat → rdCheck cap clen bytes = .ok (w, h, BitVec.ofNat 64 (w.toNat * h.toNat)) ∧
        (BitVec.ofNat 64 (w.toNat * h.toNat)).toNat = w.toNat * h.toNat))) ∧
  (∀ (clen : Cnt) (s : State), s.decPhase ≠ .body → clen.toNat = s.cinLen → ioGood s = true →
    ∃ t, exec (.decBegin clen) s = .next t ∧
      match rdCheck s.par.pixbufCap clen (s.cin.readBytes 0 8) with
      | .error sub => t.decPhase = .fault ∧ t.decErr = .formatError ∧ t.decSub = sub
      | .ok (w, h, npix) => t.decPhase = .body ∧ t.decErr = .none ∧ t.decW = w ∧ t.decH = h ∧ t.decNpix = npix)

/-- R172: a run that does not fit is OutOfBounds; one that fits writes its slots and no other and moves the cursor by
its length. -/
def Obligations.RunExpansion : Prop :=
  ∀ (cursor npix : Cnt) (run : Run) (buf : PixelMemory), buf.wf = true → cursor.toNat ≤ npix.toNat →
    (npix.toNat - cursor.toNat < run.len.toNat → decRun cursor npix run buf = none) ∧
    (run.len.toNat ≤ npix.toNat - cursor.toNat →
      ∃ cursor' buf', decRun cursor npix run buf = some (cursor', buf') ∧
        cursor'.toNat = cursor.toNat + run.len.toNat ∧ cursor'.toNat ≤ npix.toNat ∧
        ∀ i, buf'.read i =
          if cursor.toNat ≤ i ∧ i < cursor.toNat + run.len.toNat then run.color else buf.read i)

/-- R173 (with R172): `DEC_STEP` where a record is left. -/
def Obligations.DecStepExecutesRecord : Prop :=
  ∀ (len r g b : Byte) (s : State),
    s.decPhase = .body → s.rdOff.toNat + 4 ≤ s.rdLen.toNat → s.cin.readBytes s.rdOff.toNat 4 = [len, r, g, b] →
    (len.toNat ≤ s.decNpix.toNat - s.decCursor.toNat →
      exec .decStep s = .next { s with
        pixbuf := s.pixbuf.fill ⟨r, g, b⟩ s.decCursor.toNat len.toNat,
        decCursor := s.decCursor + len.setWidth 64, rdOff := s.rdOff + 4 }) ∧
    (s.decNpix.toNat - s.decCursor.toNat < len.toNat →
      exec .decStep s = .next { s with decErr := .outOfBounds, decSub := .none, decPhase := .fault })

/-- R174. -/
def Obligations.DecStepFinishes : Prop :=
  ∀ s : State, s.decPhase = .body → s.rdOff = s.rdLen → exec .decStep s = .next { s with decPhase := .done }

/-- R82, R86 (d), R173, the model's reading of log 17: the record item as `DEC_STEP` executes it. -/
def Obligations.RunResult : Prop :=
  ∀ (len r g b : Byte) (s : State), s.decPhase = .body → s.rdOff.toNat + 4 ≤ s.rdLen.toNat →
    (len.toNat ≤ s.decNpix.toNat - s.decCursor.toNat →
      exec (.run len r g b) s = .next { s with
        pixbuf := s.pixbuf.fill ⟨r, g, b⟩ s.decCursor.toNat len.toNat,
        decCursor := s.decCursor + len.setWidth 64, rdOff := s.rdOff + 4 }) ∧
    (len = 0 → exec (.run len r g b) s = .next { s with rdOff := s.rdOff + 4 }) ∧
    (s.decNpix.toNat - s.decCursor.toNat < len.toNat →
      exec (.run len r g b) s = .next { s with decErr := .outOfBounds, decSub := .none, decPhase := .fault })

/-- R177, and R91: the response word of an answered read. -/
def Obligations.DecRdpixResult : Prop :=
  ∀ (idx : Cnt) (s : State),
    decode (.command (0x5#4 ++ idx)) = .ok (.decRdpix idx) ∧
    (s.decPhase = .done → idx.toNat < s.decNpix.toNat →
      exec (.decRdpix idx) s = .next { s with resp := .pixel (s.pixbuf.read idx.toNat) }) ∧
    (s.decPhase ≠ .done ∨ s.decNpix.toNat ≤ idx.toNat →
      exec (.decRdpix idx) s = .next { s with proto := true, resp := .refusedPixel }) ∧
    (∀ p : Pixel, (pixelResponseWord p).extractLsb' 24 1 = 1 ∧ (pixelResponseWord p).extractLsb' 16 8 = p.b ∧
      (pixelResponseWord p).extractLsb' 8 8 = p.g ∧ (pixelResponseWord p).extractLsb' 0 8 = p.r)

/-- R190, R38. -/
def Obligations.RdRegResult : Prop :=
  ∀ s : State,
    (∀ (n : BitVec 4) (unused : BitVec 60), decode (.command (0x6#4 ++ (unused ++ n))) = .ok (.rdReg n)) ∧
    exec (.rdReg 0) s = .next { s with resp := .value (statusWord s) } ∧
    exec (.rdReg 1) s = .next { s with resp := .value s.wrLen } ∧
    exec (.rdReg 2) s = .next { s with resp := .value (BitVec.ofNat 64 s.decW.toNat) } ∧
    exec (.rdReg 3) s = .next { s with resp := .value (BitVec.ofNat 64 s.decH.toNat) } ∧
    exec (.rdReg 4) s = .next { s with resp := .value s.decNpix } ∧
    exec (.rdReg 5) s = .next { s with resp := .value s.decCursor } ∧
    exec (.rdReg 6) s = .next { s with resp := .value s.rdOff } ∧
    exec (.rdReg 7) s = .next { s with resp := .value s.rdLen } ∧
    (∀ n : BitVec 4, 8 ≤ n.toNat → exec (.rdReg n) s = .next { s with proto := true, resp := .value 0 })

/-- R37, with the codes of R21, R27, R33, R201; the sum is that of 95_test_vectors. -/
def Obligations.StatusLayout : Prop :=
  (phaseCode .idle = 0 ∧ phaseCode .body = 1 ∧ phaseCode .done = 2 ∧ phaseCode .fault = 3) ∧
  (causeCode .none = 0 ∧ causeCode .formatError = 1 ∧ causeCode .outOfBounds = 2 ∧ causeCode .ioError = 3) ∧
  (subCode .none = 0 ∧ subCode .short = 1 ∧ subCode .unaligned = 2 ∧ subCode .dims = 3) ∧
  ∀ s : State,
    (statusWord s).extractLsb' 0 2 = phaseCode s.encPhase ∧
    (statusWord s).extractLsb' 2 3 = causeCode s.encErr ∧
    (statusWord s).extractLsb' 5 3 = 0 ∧
    (statusWord s).extractLsb' 8 2 = phaseCode s.decPhase ∧
    (statusWord s).extractLsb' 10 3 = causeCode s.decErr ∧
    (statusWord s).extractLsb' 13 2 = subCode s.decSub ∧
    (statusWord s).extractLsb' 15 1 = 0 ∧
    (statusWord s).extractLsb' 16 1 = BitVec.ofBool s.proto ∧
    (statusWord s).extractLsb' 17 47 = 0 ∧
    (statusWord s).toNat = (phaseCode s.encPhase).toNat + 4 * (causeCode s.encErr).toNat +
      256 * (phaseCode s.decPhase).toNat + 1024 * (causeCode s.decErr).toNat + 8192 * (subCode s.decSub).toNat +
      65536 * s.proto.toNat ∧
    statusWord State.reset = 0

/-! ### Acceptance and faults -/

/-- R191 (b), R177, R190, R36: outside the table's phases a host command only sets `proto`; inside, it leaves `proto`
alone, but for `RD_REG` of an unassigned number. -/
def Obligations.AcceptanceTable : Prop :=
  ∀ (i : Instr) (s : State),
    (i = .encEnd ∨ (∃ w h, i = .encBegin w h) ∨ (∃ r g b, i = .encPix r g b) ∨ (∃ n, i = .decBegin n) →
      accepts i s = false → exec i s = .next { s with proto := true, resp := .none }) ∧
    (∀ idx, i = .decRdpix idx → accepts i s = false →
      exec i s = .next { s with proto := true, resp := .refusedPixel }) ∧
    (∀ t, accepts i s = true → exec i s = .next t →
      t.proto = (s.proto || (match i with | .rdReg n => decide (8 ≤ n.toNat) | _ => false)))

/-- R180, R191, the model's choice of log 12: where the decode path fetches nothing, nothing happens. -/
def Obligations.NotEnabledMeansNothing : Prop :=
  ∀ s : State,
    (s.decPhase ≠ .body → exec .decStep s = .next s) ∧
    (∀ len r g b, accepts (.run len r g b) s = false → exec (.run len r g b) s = .next s) ∧
    (∀ w h, s.decPhase = .body → exec (.hdr w h) s = .next s)

/-- R65, R174, the model's choice of log 13: `DEC_STEP` stops exactly where no record can be fetched and `rd_off` is not
at `rd_len`. -/
def Obligations.FetchStopsOnlyOutOfRange : Prop :=
  ∀ s : State, exec .decStep s = .fault .fetchOutOfRange ↔
    s.decPhase = .body ∧ s.rdLen.toNat < s.rdOff.toNat + 4 ∧ s.rdOff ≠ s.rdLen

/-- R202, R203, R204: which instruction can raise which cause. -/
def Obligations.CausesRaisedOnlyBy : Prop :=
  ∀ (i : Instr) (s t : State), exec i s = .next t →
    (t.decErr = .formatError → s.decErr ≠ .formatError → (∃ n, i = .decBegin n) ∨ ∃ w h, i = .hdr w h) ∧
    (t.decErr = .outOfBounds → s.decErr ≠ .outOfBounds → i = .decStep ∨ ∃ len r g b, i = .run len r g b) ∧
    (t.decErr = .ioError → s.decErr ≠ .ioError → (∃ n, i = .decBegin n) ∧ ioGood s = false) ∧
    (t.encErr = .ioError → s.encErr ≠ .ioError → onEncodePath i = true ∧ ioGood s = false) ∧
    (t.encErr = s.encErr ∨ t.encErr = .none ∨ t.encErr = .ioError)

/-- R206: taking a fault latches the cause, sets the phase and leaves the other path, `proto` and the inputs alone; the
sub-reason is 0 unless the cause is FormatError. -/
def Obligations.FaultEntry : Prop :=
  ∀ (i : Instr) (s t : State), exec i s = .next t →
    (t.encPhase = .fault → s.encPhase ≠ .fault →
      t.encErr = .ioError ∧ sameDecodePath t s ∧ sameInputs t s ∧ t.proto = s.proto) ∧
    (t.decPhase = .fault → s.decPhase ≠ .fault →
      t.decErr ≠ .none ∧ (t.decErr ≠ .formatError → t.decSub = .none) ∧ (t.decErr = .formatError → t.decSub ≠ .none) ∧
      sameEncodePath t s ∧ sameInputs t s ∧ t.proto = s.proto)

/-- R209, R210: a fault ends its operation, and the path's next BEGIN leaves it. The clause that `DEC_STEP` executed in
D_FAULT leaves the state as it is is the model's choice (log 12): the spec says only that it is not enabled. -/
def Obligations.FaultIsTerminal : Prop :=
  ∀ s : State,
    (s.encPhase = .fault →
      exec .encEnd s = .next { s with proto := true, resp := .none } ∧
      (∀ r g b, exec (.encPix r g b) s = .next { s with proto := true, resp := .none }) ∧
      ∀ w h, ioGood s = true → ∃ t, exec (.encBegin w h) s = .next t ∧ t.encPhase = .body ∧ t.encErr = .none) ∧
    (s.decPhase = .fault →
      exec .decStep s = .next s ∧
      (∀ idx, exec (.decRdpix idx) s = .next { s with proto := true, resp := .refusedPixel }) ∧
      ∀ (clen npix : Cnt) (w h : Dim), clen.toNat = s.cinLen → ioGood s = true →
        rdCheck s.par.pixbufCap clen (s.cin.readBytes 0 8) = .ok (w, h, npix) →
        ∃ t, exec (.decBegin clen) s = .next t ∧ t.decPhase = .body ∧ t.decErr = .none ∧ t.decSub = .none ∧
          t.decW = w ∧ t.decH = h)

/-! ### Frames -/

/-- R7, R20: a step of the encode path leaves the decode path, `PIXBUF`, the inputs and `CIN` alone; a step of the decode
path leaves the encode path, `COUT`, the inputs and `CIN` alone; an accepted one leaves `proto` alone. -/
def Obligations.PathFrames : Prop :=
  ∀ (i : Instr) (s t : State), exec i s = .next t →
    (onEncodePath i = true → sameDecodePath t s ∧ sameInputs t s ∧ (accepts i s = true → t.proto = s.proto)) ∧
    (onDecodePath i = true → sameEncodePath t s ∧ sameInputs t s ∧ (accepts i s = true → t.proto = s.proto))

/-- R22, R23, R25, R52: within the encode path, `ENC_BEGIN` and `ENC_END` leave `enc_last` alone, `ENC_PIX` the phase
and the cause unless it faults, and the bytes of `COUT` outside the record stored at `wr_len` stay; where no run is
emitted all bytes stay. After `ENC_BEGIN` only the header is left: that the field reads 0 at offset 8 and above, where
`COUT` has no bytes (R26), is the model's choice (log 10). -/
def Obligations.EncodeWritesFrame : Prop :=
  ∀ s t : State, memoriesWf s = true →
    (∀ w h, exec (.encBegin w h) s = .next t →
      t.encLast = s.encLast ∧
      (t.encPhase = .body → s.encPhase ≠ .body → ∀ a, 8 ≤ a → t.cout.read a = 0) ∧
      (s.encPhase = .body → ∀ a, t.cout.read a = s.cout.read a)) ∧
    (∀ r g b, exec (.encPix r g b) s = .next t → t.encErr = .ioError ∧ t.encPhase = .fault ∧ ioGood s = false ∧
          t.encLast = s.encLast ∧ t.encRun = s.encRun ∨
        t.encErr = s.encErr ∧ t.encPhase = s.encPhase ∧ t.encFree = s.encFree ∧
        (∀ a, a < s.wrLen.toNat ∨ s.wrLen.toNat + 4 ≤ a → t.cout.read a = s.cout.read a) ∧
        (s.encPhase ≠ .body ∨ (encPix s.encLast s.encRun ⟨r, g, b⟩).2.2 = none →
          t.wrLen = s.wrLen ∧ ∀ a, t.cout.read a = s.cout.read a)) ∧
    (exec .encEnd s = .next t → t.encErr = .ioError ∧ t.encPhase = .fault ∧ ioGood s = false ∧
          t.encLast = s.encLast ∧ t.encRun = s.encRun ∨
        t.encErr = s.encErr ∧ t.encLast = s.encLast ∧ t.encFree = s.encFree ∧
        (∀ a, a < s.wrLen.toNat ∨ s.wrLen.toNat + 4 ≤ a → t.cout.read a = s.cout.read a) ∧
        (s.encPhase ≠ .body ∨ s.encRun = 0 → t.wrLen = s.wrLen ∧ ∀ a, t.cout.read a = s.cout.read a))

/-- R28 to R34, R54: within the decode path, `DEC_STEP` and `RUN` leave the dimensions, `rd_len` and every slot outside
the run's alone. -/
def Obligations.DecodeWritesFrame : Prop :=
  ∀ (i : Instr) (run : Run) (s t : State), memoriesWf s = true →
    (i = .decStep ∧ run = parRec (s.cin.readBytes s.rdOff.toNat 4) ∨
      i = .run run.len run.color.r run.color.g run.color.b) →
    exec i s = .next t →
    t.decW = s.decW ∧ t.decH = s.decH ∧ t.decNpix = s.decNpix ∧ t.rdLen = s.rdLen ∧ t.decFree = s.decFree ∧
    t.proto = s.proto ∧ t.resp = s.resp ∧
    (t.decErr = s.decErr ∧ t.decSub = s.decSub ∨ t.decErr = .outOfBounds ∧ t.decSub = .none) ∧
    (∀ x, x < s.decCursor.toNat ∨ s.decCursor.toNat + run.len.toNat ≤ x → t.pixbuf.read x = s.pixbuf.read x) ∧
    (t.decPhase = .fault ∨ t.rdOff = s.rdOff →
      t.decCursor = s.decCursor ∧ t.rdOff = s.rdOff ∧ ∀ x, t.pixbuf.read x = s.pixbuf.read x)

/-- R28 to R34: `DEC_BEGIN` and `HDR` write only the decode path; a buffer they create holds `DEFAULT_PIXEL` in every
slot, and a `DEC_BEGIN` that is not accepted changes nothing of the decode path. That `HDR` in D_BODY, for which the
spec gives no execution, changes nothing either is the model's choice (log 12). -/
def Obligations.DecodeOpenFrame : Prop :=
  ∀ (i : Instr) (s t : State), (∃ n, i = .decBegin n) ∨ (∃ w h, i = .hdr w h) → exec i s = .next t →
    sameEncodePath t s ∧ sameInputs t s ∧
    (accepts i s = true → t.proto = s.proto ∧ (t.decPhase = .body ∨ t.decPhase = .fault) ∧
      (t.decPhase = .body → ∀ x, t.pixbuf.read x = ⟨0, 0, 0⟩)) ∧
    (accepts i s = false → sameDecodePath t s)

/-- R38, R60, R177, R190: a read changes nothing but `proto` and the response. -/
def Obligations.ReadsChangeNothing : Prop :=
  ∀ (i : Instr) (s t : State), (∃ idx, i = .decRdpix idx) ∨ (∃ n, i = .rdReg n) → exec i s = .next t →
    sameEncodePath t s ∧ sameDecodePath t s ∧ sameInputs t s ∧ (s.proto = true → t.proto = true) ∧ t.resp ≠ .none

/-! ### The two paths -/

/-- R7, R61: steps of the two paths commute, but for which response the port shows last (log 15). -/
def Obligations.PathsCommute : Prop :=
  ∀ (i j : Instr) (s s1 s2 s12 s21 : State), onEncodePath i = true → onDecodePath j = true →
    exec i s = .next s1 → exec j s1 = .next s12 → exec j s = .next s2 → exec i s2 = .next s21 →
    withoutResponse s12 = withoutResponse s21

/-- R7: what a step of a path does to the path depends on nothing of the other path. -/
def Obligations.PathsIsolated : Prop :=
  ∀ (i : Instr) (s s' t : State), sameInputs s s' → exec i s = .next t →
    (onEncodePath i = true → sameEncodePath s s' → ∃ t', exec i s' = .next t' ∧ sameEncodePath t t' ∧ t.resp = t'.resp) ∧
    (onDecodePath i = true → sameDecodePath s s' → ∃ t', exec i s' = .next t' ∧ sameDecodePath t t')

/-! ### The machine -/

/-- R6, R88, R89: a command word at the port that decodes to `i` is `i` executed, the event taken off the queue and its
`io_ok` supplied. -/
def Obligations.StepRunsDecodedCommand : Prop :=
  ∀ (s : State) (cw : CmdWord) (ok : Bool) (rest : List HostEvent) (i : Instr),
    s.host = .command cw ok :: rest → decode (.command cw) = .ok i →
    step s = exec i { s with host := rest, ioOk := ok }

/-- R173, R180: on the decode path's turn the record at `rd_off` that decodes to `i` is `i` executed. -/
def Obligations.StepRunsDecodedRecord : Prop :=
  ∀ (s : State) (i : Instr), s.decPhase = .body → s.rdOff.toNat + 4 ≤ s.rdLen.toNat →
    decode (.record (s.cin.readBytes s.rdOff.toNat 4)) = .ok i →
    (s.host = [] → step s = exec i s) ∧
    (∀ rest, s.host = .decTurn :: rest → step s = exec i { s with host := rest })

/-- R154, R80: an accepted `DEC_BEGIN` whose length checks pass executes the header at offset 0. -/
def Obligations.DecBeginRunsDecodedHeader : Prop :=
  ∀ (clen : Cnt) (s : State) (i : Instr), s.decPhase ≠ .body → clen.toNat = s.cinLen → ioGood s = true →
    8 ≤ clen.toNat → (clen.toNat - 8) % 4 = 0 → decode (.header (s.cin.readBytes 0 8)) = .ok i →
    exec (.decBegin clen) s = exec i { s with
      decErr := .none, decSub := .none, decW := 0, decH := 0, decNpix := 0, decCursor := 0, rdOff := 0, rdLen := clen,
      resp := .none }

/-- R231, R180: with nothing pending, the step is `DEC_STEP` in D_BODY and nothing otherwise; a turn of the decode path
is `DEC_STEP`. The order of events is the model's (log 2, log 3). -/
def Obligations.StepWithoutCommand : Prop :=
  ∀ s : State,
    (s.host = [] → step s = exec .decStep s) ∧
    (s.host = [] → s.decPhase ≠ .body → step s = .next s) ∧
    (∀ rest, s.host = .decTurn :: rest → step s = exec .decStep { s with host := rest })

/-- R231, R230, R20: every register of the reset state, and after the `RESET` event from any state. -/
def Obligations.ResetValues : Prop :=
  (State.reset.encPhase = .idle ∧ State.reset.decPhase = .idle ∧ State.reset.encErr = .none ∧
    State.reset.decErr = .none ∧ State.reset.decSub = .none ∧ State.reset.encLast = ⟨0, 0, 0⟩ ∧
    State.reset.encRun = 0 ∧ State.reset.wrLen = 0 ∧ State.reset.decW = 0 ∧ State.reset.decH = 0 ∧
    State.reset.decNpix = 0 ∧ State.reset.decCursor = 0 ∧ State.reset.rdOff = 0 ∧ State.reset.rdLen = 0 ∧
    State.reset.proto = false ∧ statusWord State.reset = 0) ∧
  (∀ (s : State) (rest : List HostEvent), s.host = .reset :: rest →
    ∃ t, step s = .next t ∧ t.encPhase = .idle ∧ t.decPhase = .idle ∧ t.encErr = .none ∧ t.decErr = .none ∧
      t.decSub = .none ∧ t.encLast = ⟨0, 0, 0⟩ ∧ t.encRun = 0 ∧ t.wrLen = 0 ∧ t.decW = 0 ∧ t.decH = 0 ∧
      t.decNpix = 0 ∧ t.decCursor = 0 ∧ t.rdOff = 0 ∧ t.rdLen = 0 ∧ t.proto = false ∧ statusWord t = 0 ∧ t.cin = s.cin ∧
      t.cinLen = s.cinLen ∧ t.host = rest)

/-- R234, R236, 93 U15: placing a container changes `CIN` and its length alone, to the bytes placed; in D_BODY it is the
bytes below `rd_len` again, or the model stops (log 6). Outside D_BODY the model refuses a `DEC_BEGIN` whose `clen` is
not the container's length (log 21). -/
def Obligations.PlacingContainer : Prop :=
  (∀ (s : State) (bytes : List Byte) (rest : List HostEvent), s.host = .place bytes :: rest →
    (s.decPhase ≠ .body ∨ s.cin.wf = true ∧ s.rdLen.toNat ≤ bytes.length ∧
        (∀ a < s.rdLen.toNat, s.cin.read a = bytes.getD a 0) →
      ∃ c : Memory, step s = .next { s with cin := c, cinLen := bytes.length, host := rest } ∧ c.wf = true ∧
        ∀ a, c.read a = bytes.getD a 0) ∧
    (s.decPhase = .body → bytes.length < s.rdLen.toNat ∨ (∃ a < s.rdLen.toNat, s.cin.read a ≠ bytes.getD a 0) →
      step s = .fault .cinChanged)) ∧
  (∀ (clen : Cnt) (s : State), s.decPhase ≠ .body → clen.toNat ≠ s.cinLen →
    exec (.decBegin clen) s = .refused .lengthMismatch)

/-! ### Invariants -/

/-- R39, R231: the invariant holds at reset. -/
def Obligations.InvariantAtReset : Prop := BlockInv State.reset ∧ OutputCanonical State.reset

/-- R39: every step keeps the invariant. -/
def Obligations.StepKeepsInvariant : Prop := ∀ s t : State, BlockInv s → step s = .next t → BlockInv t

/-- R118 (b), (d), R87: every step keeps the output canonical. -/
def Obligations.StepKeepsOutputCanonical : Prop :=
  ∀ s t : State, memoriesWf s = true ∧ EncodeInv s ∧ OutputCanonical s → step s = .next t →
    memoriesWf t = true ∧ EncodeInv t ∧ OutputCanonical t

/-- R8: in every state that meets the invariant a step has a next state, but for the cases the spec leaves without a
meaning (93 U9, and the two of U15). -/
def Obligations.BlockNeverHangs : Prop :=
  ∀ s : State, BlockInv s →
    (∃ t, step s = .next t) ∨
    (step s = .refused .coutOverflow ∧ s.encPhase = .body ∧ 2 ^ 64 ≤ s.wrLen.toNat + 4) ∨
    (step s = .fault .cinChanged ∧ s.decPhase = .body ∧ ∃ bytes rest, s.host = .place bytes :: rest) ∨
    (step s = .refused .lengthMismatch ∧ s.decPhase ≠ .body ∧ ∃ cw ok rest clen, s.host = .command cw ok :: rest ∧
      decode (.command cw) = .ok (.decBegin clen) ∧ clen.toNat ≠ s.cinLen)

/-- R43 (b): the phases move only along the edges; E_BODY is left by a command of the encode path, to E_DONE by `ENC_END`
alone, D_BODY by a turn of the decode path, and either by `RESET`. (A turn of the decode path is an event of its own or a step with no event pending: log 2, log 3.) -/
def Obligations.PhaseEdges : Prop :=
  ∀ s t : State, step s = .next t → (∀ rest, s.host ≠ .reset :: rest) →
    phaseEdge s.encPhase t.encPhase = true ∧ phaseEdge s.decPhase t.decPhase = true ∧
    (s.decPhase = .body → t.decPhase ≠ .body → s.host = [] ∨ ∃ rest, s.host = .decTurn :: rest) ∧
    (s.encPhase = .body → t.encPhase ≠ .body →
      ∃ cw ok rest i, s.host = .command cw ok :: rest ∧ decode (.command cw) = .ok i ∧ onEncodePath i = true) ∧
    (s.encPhase = .body → t.encPhase = .done →
      ∃ cw ok rest, s.host = .command cw ok :: rest ∧ decode (.command cw) = .ok .encEnd)

/-- R36: `proto` is never cleared except by reset. -/
def Obligations.ProtoSticky : Prop :=
  ∀ s t : State, step s = .next t → (∀ rest, s.host ≠ .reset :: rest) → s.proto = true → t.proto = true

/-- R217, R52: within an operation no byte of `COUT` below `wr_len` is rewritten and `wr_len` never falls. -/
def Obligations.CoutNeverRewritten : Prop :=
  ∀ s t : State, memoriesWf s = true → step s = .next t → (∀ rest, s.host ≠ .reset :: rest) → s.encPhase = .body →
    t.encPhase ≠ .fault →
    s.wrLen.toNat ≤ t.wrLen.toNat ∧ ∀ a < s.wrLen.toNat, t.cout.read a = s.cout.read a

/-- R217, R65, R53, R236: no step reads `CIN` at or beyond `rd_len`, and, the container still being there, none at or
beyond its length: containers that agree below it give the same step. -/
def Obligations.CinReadsBounded : Prop :=
  ∀ (s t : State) (c : Memory),
    (s.decPhase = .body → (∀ a < s.rdLen.toNat, c.read a = s.cin.read a) → exec .decStep s = .next t →
      exec .decStep { s with cin := c } = .next { t with cin := c }) ∧
    (∀ clen : Cnt, (∀ a < clen.toNat, c.read a = s.cin.read a) → exec (.decBegin clen) s = .next t →
      exec (.decBegin clen) { s with cin := c } = .next { t with cin := c }) ∧
    (∀ i : Instr, ContainerPlaced s → (∀ a < s.cinLen, c.read a = s.cin.read a) → exec i s = .next t →
      exec i { s with cin := c } = .next { t with cin := c })

/-! ### Operations -/

/-- R180: from D_BODY the decode path leaves D_BODY within `(rd_len - 8) div 4 + 1` steps. -/
def Obligations.DecodeEnds : Prop :=
  ∀ s : State, BlockInv s → s.decPhase = .body →
    ∃ n ≤ (s.rdLen.toNat - 8) / 4 + 1, ∃ t, execAll (List.replicate n .decStep) s = .next t ∧
      (t.decPhase = .done ∨ t.decPhase = .fault)

/-- R136, R133, R135: what `COUT` is after a whole encode operation; and R235: the host finds exactly those bytes in the
sink in E_DONE, and may rely on none outside it. -/
def Obligations.EncodeOperation : Prop :=
  (∀ (w h : Dim) (pixels : List Pixel) (s : State), s.encPhase ≠ .body → ioGood s = true →
    pixels.length < 2 ^ 62 - 2 →
    ∃ t, execAll (encodeCommands w h pixels) s = .next t ∧ t.encPhase = .done ∧ t.encErr = .none ∧ t.encRun = 0 ∧
      t.wrLen.toNat = 8 + 4 * (encodedStream s.encLast 0 pixels).length ∧
      t.cout = containerOf (containerBytes w h (encodedStream s.encLast 0 pixels)) ∧
      sameDecodePath t s ∧ sameInputs t s ∧ t.proto = s.proto ∧
      (∀ a < t.wrLen.toNat,
        sinkByte t a = some ((containerBytes w h (encodedStream s.encLast 0 pixels)).getD a 0)) ∧
      ∀ a, t.wrLen.toNat ≤ a → sinkByte t a = none) ∧
  (∀ (s : State) (a : Nat), s.encPhase ≠ .done → sinkByte s a = none)

/-- R120: the bytes written in one operation depend only on its operands. -/
def Obligations.EncodeDeterministic : Prop :=
  ∀ (w h : Dim) (pixels : List Pixel) (s s' : State), s.encPhase ≠ .body → s'.encPhase ≠ .body →
    ioGood s = true → ioGood s' = true → pixels.length < 2 ^ 62 - 2 →
    ∃ t t', execAll (encodeCommands w h pixels) s = .next t ∧ execAll (encodeCommands w h pixels) s' = .next t' ∧
      t.cout = t'.cout ∧ t.wrLen = t'.wrLen ∧ t.encPhase = t'.encPhase

/-- R178, R175, R155: what the host receives after a decode operation that does not overflow; an underfilled buffer keeps
`DEFAULT_PIXEL` in its trailing slots. -/
def Obligations.DecodeOperation : Prop :=
  ∀ (w h : Dim) (runs : List Run) (clen : Cnt) (s : State), s.decPhase ≠ .body → ioGood s = true →
    w.toNat * h.toNat ≤ s.par.pixbufCap.toNat → totalLength runs ≤ w.toNat * h.toNat →
    clen.toNat = s.cinLen → clen.toNat = 8 + 4 * runs.length →
    (∀ a < clen.toNat, s.cin.read a = (containerBytes w h runs).getD a 0) →
    ∃ t, execAll (.decBegin clen :: List.replicate (runs.length + 1) .decStep) s = .next t ∧ t.decPhase = .done ∧
      t.decErr = .none ∧ t.decW = w ∧ t.decH = h ∧ t.decNpix.toNat = w.toNat * h.toNat ∧
      t.decCursor.toNat = totalLength runs ∧ t.rdOff = clen ∧ sameEncodePath t s ∧
      ∀ i < w.toNat * h.toNat, t.pixbuf.read i = (expand runs).getD i ⟨0, 0, 0⟩

/-- R176, R203, R207: the first record that does not fit ends the operation with OutOfBoundsError; what the records before
it wrote stays, and nothing of it is written. -/
def Obligations.DecodeOverflow : Prop :=
  ∀ (w h : Dim) (before : List Run) (run : Run) (after : List Run) (clen : Cnt) (s : State),
    s.decPhase ≠ .body → ioGood s = true → w.toNat * h.toNat ≤ s.par.pixbufCap.toNat →
    totalLength before ≤ w.toNat * h.toNat → w.toNat * h.toNat < totalLength before + run.len.toNat →
    clen.toNat = s.cinLen → clen.toNat = 8 + 4 * (before ++ run :: after).length →
    (∀ a < clen.toNat, s.cin.read a = (containerBytes w h (before ++ run :: after)).getD a 0) →
    ∃ t, execAll (.decBegin clen :: List.replicate (before.length + 1) .decStep) s = .next t ∧ t.decPhase = .fault ∧
      t.decErr = .outOfBounds ∧ t.decSub = .none ∧ t.rdOff.toNat = 8 + 4 * before.length ∧
      t.decCursor.toNat = totalLength before ∧
      ∀ i < w.toNat * h.toNat, t.pixbuf.read i = (expand before).getD i ⟨0, 0, 0⟩

/-- R179, R157: decoding what was encoded gives back the grid, for every grid. -/
def Obligations.RoundTrip : Prop :=
  ∀ (w h : Dim) (pixels : List Pixel) (s : State), s.encPhase ≠ .body → s.decPhase ≠ .body → ioGood s = true →
    pixels.length = w.toNat * h.toNat → pixels.length < 2 ^ 62 - 2 → w.toNat * h.toNat ≤ s.par.pixbufCap.toNat →
    ∃ t u, execAll (encodeCommands w h pixels) s = .next t ∧
      execAll (.decBegin t.wrLen :: List.replicate ((t.wrLen.toNat - 8) / 4 + 1) .decStep)
          { t with cin := t.cout, cinLen := t.wrLen.toNat } = .next u ∧
      u.decPhase = .done ∧ u.decErr = .none ∧ u.decW = w ∧ u.decH = h ∧ u.decNpix = u.decCursor ∧
      u.decCursor.toNat = w.toNat * h.toNat ∧
      ∀ i < w.toNat * h.toNat, u.pixbuf.read i = pixels.getD i ⟨0, 0, 0⟩
end

