-- ==== Sys2Proof/Laws/Codec.lean ====
section
/-! SUPPORT. Words as numbers: appended fields, extracted fields, and the byte order (spec/20_memory.md R55). -/

namespace Sys2Proof

/-- Concatenation as a number: the first field is the more significant one (00_scope R17). -/
theorem toNat_append_add {m n : Nat} (x : BitVec m) (y : BitVec n) : (x ++ y).toNat = x.toNat * 2 ^ n + y.toNat := by
  rw [BitVec.toNat_append, Nat.shiftLeft_eq, Nat.mul_comm, ← Nat.two_pow_add_eq_or_of_lt y.isLt]

/-- A field as a number: bits `k` to `k + n - 1` (00_scope R17). -/
theorem toNat_field {m : Nat} (x : BitVec m) (k n : Nat) : (x.extractLsb' k n).toNat = x.toNat / 2 ^ k % 2 ^ n := by
  rw [BitVec.extractLsb'_toNat, Nat.shiftRight_eq_div_pow]

/-- `le32` as a number (20_memory R55). -/
theorem le32_toNat (b0 b1 b2 b3 : Byte) :
    (le32 b0 b1 b2 b3).toNat = b0.toNat + 2 ^ 8 * b1.toNat + 2 ^ 16 * b2.toNat + 2 ^ 24 * b3.toNat := by
  have h : (le32 b0 b1 b2 b3).toNat = (b3 ++ b2 ++ b1 ++ b0).toNat := rfl
  rw [h, toNat_append_add, toNat_append_add, toNat_append_add]
  omega

/-- Parsing what was serialized gives the value back (20_memory R55). -/
theorem le32_bytes (v : Dim) :
    le32 (v.extractLsb' 0 8) (v.extractLsb' 8 8) (v.extractLsb' 16 8) (v.extractLsb' 24 8) = v := by
  apply BitVec.eq_of_toNat_eq
  have hv := v.isLt
  rw [le32_toNat, toNat_field, toNat_field, toNat_field, toNat_field]
  omega

/-- Serializing what was parsed gives the bytes back (20_memory R55). -/
theorem bytes_le32 (b0 b1 b2 b3 : Byte) : bytesLe32 (le32 b0 b1 b2 b3) = [b0, b1, b2, b3] := by
  have h0 := b0.isLt
  have h1 := b1.isLt
  have h2 := b2.isLt
  have h3 := b3.isLt
  have field : ∀ (k : Nat) (b : Byte), (le32 b0 b1 b2 b3).toNat / 2 ^ k % 2 ^ 8 = b.toNat →
      (le32 b0 b1 b2 b3).extractLsb' k 8 = b := by
    intro k b h
    apply BitVec.eq_of_toNat_eq
    rw [toNat_field]
    exact h
  rw [le32_toNat] at field
  unfold bytesLe32
  rw [field 0 b0 (by omega), field 8 b1 (by omega), field 16 b2 (by omega), field 24 b3 (by omega)]

/-- Parsing a serialized header (42_container_reader R151). -/
theorem parHdr_serHdr_append (w h : Dim) (rest : List Byte) : parHdr (serHdr w h ++ rest) = (w, h) := by
  show (le32 _ _ _ _, le32 _ _ _ _) = (w, h)
  exact Prod.ext (le32_bytes w) (le32_bytes h)

/-- Parsing a serialized header (42_container_reader R151). -/
theorem parHdr_serHdr (w h : Dim) : parHdr (serHdr w h) = (w, h) := by
  have := parHdr_serHdr_append w h []
  rwa [List.append_nil] at this

@[simp] theorem serHdr_length (w h : Dim) : (serHdr w h).length = 8 := rfl

@[simp] theorem serRec_length (run : Run) : (serRec run).length = 4 := rfl

/-- Parsing a serialized record (42_container_reader R152). -/
theorem parRec_serRec (run : Run) : parRec (serRec run) = run := rfl

/-! ### Fields of concatenations -/

/-- The more significant part. -/
theorem field_high {m n : Nat} (x : BitVec m) (y : BitVec n) : (x ++ y).extractLsb' n m = x := by
  apply BitVec.eq_of_toNat_eq
  rw [toNat_field, toNat_append_add, Nat.mul_comm, Nat.add_comm, Nat.add_mul_div_left _ _ (Nat.two_pow_pos n),
    Nat.div_eq_of_lt y.isLt, Nat.zero_add, Nat.mod_eq_of_lt x.isLt]

/-- A field that lies in the less significant part. -/
theorem field_low {m n : Nat} (x : BitVec m) (y : BitVec n) (k j : Nat) (h : k + j ≤ n) :
    (x ++ y).extractLsb' k j = y.extractLsb' k j := by
  apply BitVec.eq_of_toNat_eq
  rw [toNat_field, toNat_field, toNat_append_add]
  obtain ⟨d, hd⟩ : ∃ d, n = k + j + d := ⟨n - (k + j), by omega⟩
  have h2 : (2 : Nat) ^ n = 2 ^ k * (2 ^ j * 2 ^ d) := by rw [hd, pow_add, pow_add, Nat.mul_assoc]
  rw [h2, show x.toNat * (2 ^ k * (2 ^ j * 2 ^ d)) + y.toNat = y.toNat + 2 ^ k * (2 ^ j * (2 ^ d * x.toNat)) by ring,
    Nat.add_mul_div_left _ _ (Nat.two_pow_pos k), Nat.add_mul_mod_self_left]

/-- A field that lies in the more significant part. -/
theorem field_above {m n : Nat} (x : BitVec m) (y : BitVec n) (k j : Nat) (h : n ≤ k) :
    (x ++ y).extractLsb' k j = x.extractLsb' (k - n) j := by
  apply BitVec.eq_of_toNat_eq
  rw [toNat_field, toNat_field, toNat_append_add]
  obtain ⟨d, rfl⟩ : ∃ d, k = n + d := ⟨k - n, by omega⟩
  rw [pow_add, ← Nat.div_div_eq_div_mul, Nat.mul_comm, Nat.add_comm, Nat.add_mul_div_left _ _ (Nat.two_pow_pos n),
    Nat.div_eq_of_lt y.isLt, Nat.zero_add, Nat.add_sub_cancel_left]

/-- The whole word. -/
theorem field_all {n : Nat} (y : BitVec n) : y.extractLsb' 0 n = y := by
  apply BitVec.eq_of_toNat_eq
  rw [toNat_field, pow_zero, Nat.div_one, Nat.mod_eq_of_lt y.isLt]

/-- The operation code of a command word is its top field (30_encoding R88). -/
theorem opField_append (op : BitVec 4) (arg : BitVec 64) : opField (op ++ arg) = op := field_high op arg

/-- What the decoder reads from `op ++ arg` (30_encoding R89, R90). -/
theorem decode_command (op : BitVec 4) (arg : BitVec 64) :
    decode (.command (op ++ arg)) =
      if op = 0x1 then .ok (.encBegin (arg.extractLsb' 0 32) (arg.extractLsb' 32 32))
      else if op = 0x2 then .ok (.encPix (arg.extractLsb' 0 8) (arg.extractLsb' 8 8) (arg.extractLsb' 16 8))
      else if op = 0x3 then .ok .encEnd
      else if op = 0x4 then .ok (.decBegin arg)
      else if op = 0x5 then .ok (.decRdpix arg)
      else if op = 0x6 then .ok (.rdReg (arg.extractLsb' 0 4))
      else .error (.unassignedOp op) := by
  have low : ∀ k j, k + j ≤ 64 → BitVec.extractLsb' k j (op ++ arg : CmdWord) = arg.extractLsb' k j :=
    fun k j h => field_low op arg k j h
  simp only [decode, decodeCommand, opField_append]
  rw [low 0 32 (by omega), low 32 32 (by omega), low 0 8 (by omega), low 8 8 (by omega), low 16 8 (by omega),
    low 0 64 (by omega), low 0 4 (by omega), field_all]

end Sys2Proof
end

