-- ==== Sys2Proof/Laws/State.lean ====
section
/-! SUPPORT. One lemma per field per update of State, for every named update. -/

namespace Sys2Proof.Machine

/-! ### appendCout -/

@[simp] theorem appendCout_encPhase (bytes : List Byte) (s : State) :
    (appendCout bytes s).encPhase = s.encPhase := rfl

@[simp] theorem appendCout_encLast (bytes : List Byte) (s : State) :
    (appendCout bytes s).encLast = s.encLast := rfl

@[simp] theorem appendCout_encRun (bytes : List Byte) (s : State) :
    (appendCout bytes s).encRun = s.encRun := rfl

@[simp] theorem appendCout_wrLen (bytes : List Byte) (s : State) :
    (appendCout bytes s).wrLen = s.wrLen + BitVec.ofNat 64 bytes.length := rfl

@[simp] theorem appendCout_encErr (bytes : List Byte) (s : State) :
    (appendCout bytes s).encErr = s.encErr := rfl

@[simp] theorem appendCout_cout (bytes : List Byte) (s : State) :
    (appendCout bytes s).cout = s.cout.writeBytes s.wrLen.toNat bytes := rfl

@[simp] theorem appendCout_decPhase (bytes : List Byte) (s : State) :
    (appendCout bytes s).decPhase = s.decPhase := rfl

@[simp] theorem appendCout_decW (bytes : List Byte) (s : State) :
    (appendCout bytes s).decW = s.decW := rfl

@[simp] theorem appendCout_decH (bytes : List Byte) (s : State) :
    (appendCout bytes s).decH = s.decH := rfl

@[simp] theorem appendCout_decNpix (bytes : List Byte) (s : State) :
    (appendCout bytes s).decNpix = s.decNpix := rfl

@[simp] theorem appendCout_decCursor (bytes : List Byte) (s : State) :
    (appendCout bytes s).decCursor = s.decCursor := rfl

@[simp] theorem appendCout_rdOff (bytes : List Byte) (s : State) :
    (appendCout bytes s).rdOff = s.rdOff := rfl

@[simp] theorem appendCout_rdLen (bytes : List Byte) (s : State) :
    (appendCout bytes s).rdLen = s.rdLen := rfl

@[simp] theorem appendCout_decErr (bytes : List Byte) (s : State) :
    (appendCout bytes s).decErr = s.decErr := rfl

@[simp] theorem appendCout_decSub (bytes : List Byte) (s : State) :
    (appendCout bytes s).decSub = s.decSub := rfl

@[simp] theorem appendCout_pixbuf (bytes : List Byte) (s : State) :
    (appendCout bytes s).pixbuf = s.pixbuf := rfl

@[simp] theorem appendCout_proto (bytes : List Byte) (s : State) :
    (appendCout bytes s).proto = s.proto := rfl

@[simp] theorem appendCout_resp (bytes : List Byte) (s : State) :
    (appendCout bytes s).resp = s.resp := rfl

@[simp] theorem appendCout_cin (bytes : List Byte) (s : State) :
    (appendCout bytes s).cin = s.cin := rfl

@[simp] theorem appendCout_cinLen (bytes : List Byte) (s : State) :
    (appendCout bytes s).cinLen = s.cinLen := rfl

@[simp] theorem appendCout_ioOk (bytes : List Byte) (s : State) :
    (appendCout bytes s).ioOk = s.ioOk := rfl

@[simp] theorem appendCout_host (bytes : List Byte) (s : State) :
    (appendCout bytes s).host = s.host := rfl

@[simp] theorem appendCout_par (bytes : List Byte) (s : State) :
    (appendCout bytes s).par = s.par := rfl

@[simp] theorem appendCout_encFree (bytes : List Byte) (s : State) :
    (appendCout bytes s).encFree = s.encFree := rfl

@[simp] theorem appendCout_decFree (bytes : List Byte) (s : State) :
    (appendCout bytes s).decFree = s.decFree := rfl

/-! ### raiseEnc -/

@[simp] theorem raiseEnc_encPhase (cause : Cause) (s : State) :
    (raiseEnc cause s).encPhase = .fault := rfl

@[simp] theorem raiseEnc_encLast (cause : Cause) (s : State) :
    (raiseEnc cause s).encLast = s.encLast := rfl

@[simp] theorem raiseEnc_encRun (cause : Cause) (s : State) :
    (raiseEnc cause s).encRun = s.encRun := rfl

@[simp] theorem raiseEnc_wrLen (cause : Cause) (s : State) :
    (raiseEnc cause s).wrLen = s.wrLen := rfl

@[simp] theorem raiseEnc_encErr (cause : Cause) (s : State) :
    (raiseEnc cause s).encErr = cause := rfl

@[simp] theorem raiseEnc_cout (cause : Cause) (s : State) :
    (raiseEnc cause s).cout = s.cout := rfl

@[simp] theorem raiseEnc_decPhase (cause : Cause) (s : State) :
    (raiseEnc cause s).decPhase = s.decPhase := rfl

@[simp] theorem raiseEnc_decW (cause : Cause) (s : State) :
    (raiseEnc cause s).decW = s.decW := rfl

@[simp] theorem raiseEnc_decH (cause : Cause) (s : State) :
    (raiseEnc cause s).decH = s.decH := rfl

@[simp] theorem raiseEnc_decNpix (cause : Cause) (s : State) :
    (raiseEnc cause s).decNpix = s.decNpix := rfl

@[simp] theorem raiseEnc_decCursor (cause : Cause) (s : State) :
    (raiseEnc cause s).decCursor = s.decCursor := rfl

@[simp] theorem raiseEnc_rdOff (cause : Cause) (s : State) :
    (raiseEnc cause s).rdOff = s.rdOff := rfl

@[simp] theorem raiseEnc_rdLen (cause : Cause) (s : State) :
    (raiseEnc cause s).rdLen = s.rdLen := rfl

@[simp] theorem raiseEnc_decErr (cause : Cause) (s : State) :
    (raiseEnc cause s).decErr = s.decErr := rfl

@[simp] theorem raiseEnc_decSub (cause : Cause) (s : State) :
    (raiseEnc cause s).decSub = s.decSub := rfl

@[simp] theorem raiseEnc_pixbuf (cause : Cause) (s : State) :
    (raiseEnc cause s).pixbuf = s.pixbuf := rfl

@[simp] theorem raiseEnc_proto (cause : Cause) (s : State) :
    (raiseEnc cause s).proto = s.proto := rfl

@[simp] theorem raiseEnc_resp (cause : Cause) (s : State) :
    (raiseEnc cause s).resp = s.resp := rfl

@[simp] theorem raiseEnc_cin (cause : Cause) (s : State) :
    (raiseEnc cause s).cin = s.cin := rfl

@[simp] theorem raiseEnc_cinLen (cause : Cause) (s : State) :
    (raiseEnc cause s).cinLen = s.cinLen := rfl

@[simp] theorem raiseEnc_ioOk (cause : Cause) (s : State) :
    (raiseEnc cause s).ioOk = s.ioOk := rfl

@[simp] theorem raiseEnc_host (cause : Cause) (s : State) :
    (raiseEnc cause s).host = s.host := rfl

@[simp] theorem raiseEnc_par (cause : Cause) (s : State) :
    (raiseEnc cause s).par = s.par := rfl

@[simp] theorem raiseEnc_encFree (cause : Cause) (s : State) :
    (raiseEnc cause s).encFree = s.encFree := rfl

@[simp] theorem raiseEnc_decFree (cause : Cause) (s : State) :
    (raiseEnc cause s).decFree = s.decFree := rfl

/-! ### raiseDec -/

@[simp] theorem raiseDec_encPhase (cause : Cause) (sub : SubReason) (s : State) :
    (raiseDec cause sub s).encPhase = s.encPhase := rfl

@[simp] theorem raiseDec_encLast (cause : Cause) (sub : SubReason) (s : State) :
    (raiseDec cause sub s).encLast = s.encLast := rfl

@[simp] theorem raiseDec_encRun (cause : Cause) (sub : SubReason) (s : State) :
    (raiseDec cause sub s).encRun = s.encRun := rfl

@[simp] theorem raiseDec_wrLen (cause : Cause) (sub : SubReason) (s : State) :
    (raiseDec cause sub s).wrLen = s.wrLen := rfl

@[simp] theorem raiseDec_encErr (cause : Cause) (sub : SubReason) (s : State) :
    (raiseDec cause sub s).encErr = s.encErr := rfl

@[simp] theorem raiseDec_cout (cause : Cause) (sub : SubReason) (s : State) :
    (raiseDec cause sub s).cout = s.cout := rfl

@[simp] theorem raiseDec_decPhase (cause : Cause) (sub : SubReason) (s : State) :
    (raiseDec cause sub s).decPhase = .fault := rfl

@[simp] theorem raiseDec_decW (cause : Cause) (sub : SubReason) (s : State) :
    (raiseDec cause sub s).decW = s.decW := rfl

@[simp] theorem raiseDec_decH (cause : Cause) (sub : SubReason) (s : State) :
    (raiseDec cause sub s).decH = s.decH := rfl

@[simp] theorem raiseDec_decNpix (cause : Cause) (sub : SubReason) (s : State) :
    (raiseDec cause sub s).decNpix = s.decNpix := rfl

@[simp] theorem raiseDec_decCursor (cause : Cause) (sub : SubReason) (s : State) :
    (raiseDec cause sub s).decCursor = s.decCursor := rfl

@[simp] theorem raiseDec_rdOff (cause : Cause) (sub : SubReason) (s : State) :
    (raiseDec cause sub s).rdOff = s.rdOff := rfl

@[simp] theorem raiseDec_rdLen (cause : Cause) (sub : SubReason) (s : State) :
    (raiseDec cause sub s).rdLen = s.rdLen := rfl

@[simp] theorem raiseDec_decErr (cause : Cause) (sub : SubReason) (s : State) :
    (raiseDec cause sub s).decErr = cause := rfl

@[simp] theorem raiseDec_decSub (cause : Cause) (sub : SubReason) (s : State) :
    (raiseDec cause sub s).decSub = if cause = .formatError then sub else .none := rfl

@[simp] theorem raiseDec_pixbuf (cause : Cause) (sub : SubReason) (s : State) :
    (raiseDec cause sub s).pixbuf = s.pixbuf := rfl

@[simp] theorem raiseDec_proto (cause : Cause) (sub : SubReason) (s : State) :
    (raiseDec cause sub s).proto = s.proto := rfl

@[simp] theorem raiseDec_resp (cause : Cause) (sub : SubReason) (s : State) :
    (raiseDec cause sub s).resp = s.resp := rfl

@[simp] theorem raiseDec_cin (cause : Cause) (sub : SubReason) (s : State) :
    (raiseDec cause sub s).cin = s.cin := rfl

@[simp] theorem raiseDec_cinLen (cause : Cause) (sub : SubReason) (s : State) :
    (raiseDec cause sub s).cinLen = s.cinLen := rfl

@[simp] theorem raiseDec_ioOk (cause : Cause) (sub : SubReason) (s : State) :
    (raiseDec cause sub s).ioOk = s.ioOk := rfl

@[simp] theorem raiseDec_host (cause : Cause) (sub : SubReason) (s : State) :
    (raiseDec cause sub s).host = s.host := rfl

@[simp] theorem raiseDec_par (cause : Cause) (sub : SubReason) (s : State) :
    (raiseDec cause sub s).par = s.par := rfl

@[simp] theorem raiseDec_encFree (cause : Cause) (sub : SubReason) (s : State) :
    (raiseDec cause sub s).encFree = s.encFree := rfl

@[simp] theorem raiseDec_decFree (cause : Cause) (sub : SubReason) (s : State) :
    (raiseDec cause sub s).decFree = s.decFree := rfl

/-! ### encIoError -/

@[simp] theorem encIoError_encPhase (s : State) :
    (encIoError s).encPhase = .fault := rfl

@[simp] theorem encIoError_encLast (s : State) :
    (encIoError s).encLast = s.encLast := rfl

@[simp] theorem encIoError_encRun (s : State) :
    (encIoError s).encRun = s.encRun := rfl

@[simp] theorem encIoError_wrLen (s : State) :
    (encIoError s).wrLen = Config.freeWrLen s.encFree := rfl

@[simp] theorem encIoError_encErr (s : State) :
    (encIoError s).encErr = .ioError := rfl

@[simp] theorem encIoError_cout (s : State) :
    (encIoError s).cout = cellsOf 0 (Config.freeCout s.encFree) := rfl

@[simp] theorem encIoError_decPhase (s : State) :
    (encIoError s).decPhase = s.decPhase := rfl

@[simp] theorem encIoError_decW (s : State) :
    (encIoError s).decW = s.decW := rfl

@[simp] theorem encIoError_decH (s : State) :
    (encIoError s).decH = s.decH := rfl

@[simp] theorem encIoError_decNpix (s : State) :
    (encIoError s).decNpix = s.decNpix := rfl

@[simp] theorem encIoError_decCursor (s : State) :
    (encIoError s).decCursor = s.decCursor := rfl

@[simp] theorem encIoError_rdOff (s : State) :
    (encIoError s).rdOff = s.rdOff := rfl

@[simp] theorem encIoError_rdLen (s : State) :
    (encIoError s).rdLen = s.rdLen := rfl

@[simp] theorem encIoError_decErr (s : State) :
    (encIoError s).decErr = s.decErr := rfl

@[simp] theorem encIoError_decSub (s : State) :
    (encIoError s).decSub = s.decSub := rfl

@[simp] theorem encIoError_pixbuf (s : State) :
    (encIoError s).pixbuf = s.pixbuf := rfl

@[simp] theorem encIoError_proto (s : State) :
    (encIoError s).proto = s.proto := rfl

@[simp] theorem encIoError_resp (s : State) :
    (encIoError s).resp = .none := rfl

@[simp] theorem encIoError_cin (s : State) :
    (encIoError s).cin = s.cin := rfl

@[simp] theorem encIoError_cinLen (s : State) :
    (encIoError s).cinLen = s.cinLen := rfl

@[simp] theorem encIoError_ioOk (s : State) :
    (encIoError s).ioOk = s.ioOk := rfl

@[simp] theorem encIoError_host (s : State) :
    (encIoError s).host = s.host := rfl

@[simp] theorem encIoError_par (s : State) :
    (encIoError s).par = s.par := rfl

@[simp] theorem encIoError_encFree (s : State) :
    (encIoError s).encFree = s.encFree + 1 := rfl

@[simp] theorem encIoError_decFree (s : State) :
    (encIoError s).decFree = s.decFree := rfl

/-! ### decBeginFault -/

@[simp] theorem decBeginFault_encPhase (cause : Cause) (sub : SubReason) (s : State) :
    (decBeginFault cause sub s).encPhase = s.encPhase := rfl

@[simp] theorem decBeginFault_encLast (cause : Cause) (sub : SubReason) (s : State) :
    (decBeginFault cause sub s).encLast = s.encLast := rfl

@[simp] theorem decBeginFault_encRun (cause : Cause) (sub : SubReason) (s : State) :
    (decBeginFault cause sub s).encRun = s.encRun := rfl

@[simp] theorem decBeginFault_wrLen (cause : Cause) (sub : SubReason) (s : State) :
    (decBeginFault cause sub s).wrLen = s.wrLen := rfl

@[simp] theorem decBeginFault_encErr (cause : Cause) (sub : SubReason) (s : State) :
    (decBeginFault cause sub s).encErr = s.encErr := rfl

@[simp] theorem decBeginFault_cout (cause : Cause) (sub : SubReason) (s : State) :
    (decBeginFault cause sub s).cout = s.cout := rfl

@[simp] theorem decBeginFault_decPhase (cause : Cause) (sub : SubReason) (s : State) :
    (decBeginFault cause sub s).decPhase = .fault := rfl

@[simp] theorem decBeginFault_decW (cause : Cause) (sub : SubReason) (s : State) :
    (decBeginFault cause sub s).decW = s.decW := rfl

@[simp] theorem decBeginFault_decH (cause : Cause) (sub : SubReason) (s : State) :
    (decBeginFault cause sub s).decH = s.decH := rfl

@[simp] theorem decBeginFault_decNpix (cause : Cause) (sub : SubReason) (s : State) :
    (decBeginFault cause sub s).decNpix = s.decNpix := rfl

@[simp] theorem decBeginFault_decCursor (cause : Cause) (sub : SubReason) (s : State) :
    (decBeginFault cause sub s).decCursor = s.decCursor := rfl

@[simp] theorem decBeginFault_rdOff (cause : Cause) (sub : SubReason) (s : State) :
    (decBeginFault cause sub s).rdOff = s.rdOff := rfl

@[simp] theorem decBeginFault_rdLen (cause : Cause) (sub : SubReason) (s : State) :
    (decBeginFault cause sub s).rdLen = s.rdLen := rfl

@[simp] theorem decBeginFault_decErr (cause : Cause) (sub : SubReason) (s : State) :
    (decBeginFault cause sub s).decErr = cause := rfl

@[simp] theorem decBeginFault_decSub (cause : Cause) (sub : SubReason) (s : State) :
    (decBeginFault cause sub s).decSub = if cause = .formatError then sub else .none := rfl

@[simp] theorem decBeginFault_pixbuf (cause : Cause) (sub : SubReason) (s : State) :
    (decBeginFault cause sub s).pixbuf = cellsOf Config.defaultPixel ((Config.freePixbuf s.decFree).filter (fun c => decide (c.1 < s.decNpix.toNat))) := rfl

@[simp] theorem decBeginFault_proto (cause : Cause) (sub : SubReason) (s : State) :
    (decBeginFault cause sub s).proto = s.proto := rfl

@[simp] theorem decBeginFault_resp (cause : Cause) (sub : SubReason) (s : State) :
    (decBeginFault cause sub s).resp = s.resp := rfl

@[simp] theorem decBeginFault_cin (cause : Cause) (sub : SubReason) (s : State) :
    (decBeginFault cause sub s).cin = s.cin := rfl

@[simp] theorem decBeginFault_cinLen (cause : Cause) (sub : SubReason) (s : State) :
    (decBeginFault cause sub s).cinLen = s.cinLen := rfl

@[simp] theorem decBeginFault_ioOk (cause : Cause) (sub : SubReason) (s : State) :
    (decBeginFault cause sub s).ioOk = s.ioOk := rfl

@[simp] theorem decBeginFault_host (cause : Cause) (sub : SubReason) (s : State) :
    (decBeginFault cause sub s).host = s.host := rfl

@[simp] theorem decBeginFault_par (cause : Cause) (sub : SubReason) (s : State) :
    (decBeginFault cause sub s).par = s.par := rfl

@[simp] theorem decBeginFault_encFree (cause : Cause) (sub : SubReason) (s : State) :
    (decBeginFault cause sub s).encFree = s.encFree := rfl

@[simp] theorem decBeginFault_decFree (cause : Cause) (sub : SubReason) (s : State) :
    (decBeginFault cause sub s).decFree = s.decFree + 1 := rfl

/-! ### openEncode -/

@[simp] theorem openEncode_encPhase (s : State) :
    (openEncode s).encPhase = s.encPhase := rfl

@[simp] theorem openEncode_encLast (s : State) :
    (openEncode s).encLast = s.encLast := rfl

@[simp] theorem openEncode_encRun (s : State) :
    (openEncode s).encRun = 0 := rfl

@[simp] theorem openEncode_wrLen (s : State) :
    (openEncode s).wrLen = 0 := rfl

@[simp] theorem openEncode_encErr (s : State) :
    (openEncode s).encErr = .none := rfl

@[simp] theorem openEncode_cout (s : State) :
    (openEncode s).cout = [] := rfl

@[simp] theorem openEncode_decPhase (s : State) :
    (openEncode s).decPhase = s.decPhase := rfl

@[simp] theorem openEncode_decW (s : State) :
    (openEncode s).decW = s.decW := rfl

@[simp] theorem openEncode_decH (s : State) :
    (openEncode s).decH = s.decH := rfl

@[simp] theorem openEncode_decNpix (s : State) :
    (openEncode s).decNpix = s.decNpix := rfl

@[simp] theorem openEncode_decCursor (s : State) :
    (openEncode s).decCursor = s.decCursor := rfl

@[simp] theorem openEncode_rdOff (s : State) :
    (openEncode s).rdOff = s.rdOff := rfl

@[simp] theorem openEncode_rdLen (s : State) :
    (openEncode s).rdLen = s.rdLen := rfl

@[simp] theorem openEncode_decErr (s : State) :
    (openEncode s).decErr = s.decErr := rfl

@[simp] theorem openEncode_decSub (s : State) :
    (openEncode s).decSub = s.decSub := rfl

@[simp] theorem openEncode_pixbuf (s : State) :
    (openEncode s).pixbuf = s.pixbuf := rfl

@[simp] theorem openEncode_proto (s : State) :
    (openEncode s).proto = s.proto := rfl

@[simp] theorem openEncode_resp (s : State) :
    (openEncode s).resp = .none := rfl

@[simp] theorem openEncode_cin (s : State) :
    (openEncode s).cin = s.cin := rfl

@[simp] theorem openEncode_cinLen (s : State) :
    (openEncode s).cinLen = s.cinLen := rfl

@[simp] theorem openEncode_ioOk (s : State) :
    (openEncode s).ioOk = s.ioOk := rfl

@[simp] theorem openEncode_host (s : State) :
    (openEncode s).host = s.host := rfl

@[simp] theorem openEncode_par (s : State) :
    (openEncode s).par = s.par := rfl

@[simp] theorem openEncode_encFree (s : State) :
    (openEncode s).encFree = s.encFree := rfl

@[simp] theorem openEncode_decFree (s : State) :
    (openEncode s).decFree = s.decFree := rfl

/-! ### openDecode -/

@[simp] theorem openDecode_encPhase (clen : Cnt) (s : State) :
    (openDecode clen s).encPhase = s.encPhase := rfl

@[simp] theorem openDecode_encLast (clen : Cnt) (s : State) :
    (openDecode clen s).encLast = s.encLast := rfl

@[simp] theorem openDecode_encRun (clen : Cnt) (s : State) :
    (openDecode clen s).encRun = s.encRun := rfl

@[simp] theorem openDecode_wrLen (clen : Cnt) (s : State) :
    (openDecode clen s).wrLen = s.wrLen := rfl

@[simp] theorem openDecode_encErr (clen : Cnt) (s : State) :
    (openDecode clen s).encErr = s.encErr := rfl

@[simp] theorem openDecode_cout (clen : Cnt) (s : State) :
    (openDecode clen s).cout = s.cout := rfl

@[simp] theorem openDecode_decPhase (clen : Cnt) (s : State) :
    (openDecode clen s).decPhase = s.decPhase := rfl

@[simp] theorem openDecode_decW (clen : Cnt) (s : State) :
    (openDecode clen s).decW = 0 := rfl

@[simp] theorem openDecode_decH (clen : Cnt) (s : State) :
    (openDecode clen s).decH = 0 := rfl

@[simp] theorem openDecode_decNpix (clen : Cnt) (s : State) :
    (openDecode clen s).decNpix = 0 := rfl

@[simp] theorem openDecode_decCursor (clen : Cnt) (s : State) :
    (openDecode clen s).decCursor = 0 := rfl

@[simp] theorem openDecode_rdOff (clen : Cnt) (s : State) :
    (openDecode clen s).rdOff = 0 := rfl

@[simp] theorem openDecode_rdLen (clen : Cnt) (s : State) :
    (openDecode clen s).rdLen = clen := rfl

@[simp] theorem openDecode_decErr (clen : Cnt) (s : State) :
    (openDecode clen s).decErr = .none := rfl

@[simp] theorem openDecode_decSub (clen : Cnt) (s : State) :
    (openDecode clen s).decSub = .none := rfl

@[simp] theorem openDecode_pixbuf (clen : Cnt) (s : State) :
    (openDecode clen s).pixbuf = s.pixbuf := rfl

@[simp] theorem openDecode_proto (clen : Cnt) (s : State) :
    (openDecode clen s).proto = s.proto := rfl

@[simp] theorem openDecode_resp (clen : Cnt) (s : State) :
    (openDecode clen s).resp = .none := rfl

@[simp] theorem openDecode_cin (clen : Cnt) (s : State) :
    (openDecode clen s).cin = s.cin := rfl

@[simp] theorem openDecode_cinLen (clen : Cnt) (s : State) :
    (openDecode clen s).cinLen = s.cinLen := rfl

@[simp] theorem openDecode_ioOk (clen : Cnt) (s : State) :
    (openDecode clen s).ioOk = s.ioOk := rfl

@[simp] theorem openDecode_host (clen : Cnt) (s : State) :
    (openDecode clen s).host = s.host := rfl

@[simp] theorem openDecode_par (clen : Cnt) (s : State) :
    (openDecode clen s).par = s.par := rfl

@[simp] theorem openDecode_encFree (clen : Cnt) (s : State) :
    (openDecode clen s).encFree = s.encFree := rfl

@[simp] theorem openDecode_decFree (clen : Cnt) (s : State) :
    (openDecode clen s).decFree = s.decFree := rfl

/-! ### ignoreCommand -/

@[simp] theorem ignoreCommand_encPhase (s : State) :
    (ignoreCommand s).encPhase = s.encPhase := rfl

@[simp] theorem ignoreCommand_encLast (s : State) :
    (ignoreCommand s).encLast = s.encLast := rfl

@[simp] theorem ignoreCommand_encRun (s : State) :
    (ignoreCommand s).encRun = s.encRun := rfl

@[simp] theorem ignoreCommand_wrLen (s : State) :
    (ignoreCommand s).wrLen = s.wrLen := rfl

@[simp] theorem ignoreCommand_encErr (s : State) :
    (ignoreCommand s).encErr = s.encErr := rfl

@[simp] theorem ignoreCommand_cout (s : State) :
    (ignoreCommand s).cout = s.cout := rfl

@[simp] theorem ignoreCommand_decPhase (s : State) :
    (ignoreCommand s).decPhase = s.decPhase := rfl

@[simp] theorem ignoreCommand_decW (s : State) :
    (ignoreCommand s).decW = s.decW := rfl

@[simp] theorem ignoreCommand_decH (s : State) :
    (ignoreCommand s).decH = s.decH := rfl

@[simp] theorem ignoreCommand_decNpix (s : State) :
    (ignoreCommand s).decNpix = s.decNpix := rfl

@[simp] theorem ignoreCommand_decCursor (s : State) :
    (ignoreCommand s).decCursor = s.decCursor := rfl

@[simp] theorem ignoreCommand_rdOff (s : State) :
    (ignoreCommand s).rdOff = s.rdOff := rfl

@[simp] theorem ignoreCommand_rdLen (s : State) :
    (ignoreCommand s).rdLen = s.rdLen := rfl

@[simp] theorem ignoreCommand_decErr (s : State) :
    (ignoreCommand s).decErr = s.decErr := rfl

@[simp] theorem ignoreCommand_decSub (s : State) :
    (ignoreCommand s).decSub = s.decSub := rfl

@[simp] theorem ignoreCommand_pixbuf (s : State) :
    (ignoreCommand s).pixbuf = s.pixbuf := rfl

@[simp] theorem ignoreCommand_proto (s : State) :
    (ignoreCommand s).proto = true := rfl

@[simp] theorem ignoreCommand_resp (s : State) :
    (ignoreCommand s).resp = .none := rfl

@[simp] theorem ignoreCommand_cin (s : State) :
    (ignoreCommand s).cin = s.cin := rfl

@[simp] theorem ignoreCommand_cinLen (s : State) :
    (ignoreCommand s).cinLen = s.cinLen := rfl

@[simp] theorem ignoreCommand_ioOk (s : State) :
    (ignoreCommand s).ioOk = s.ioOk := rfl

@[simp] theorem ignoreCommand_host (s : State) :
    (ignoreCommand s).host = s.host := rfl

@[simp] theorem ignoreCommand_par (s : State) :
    (ignoreCommand s).par = s.par := rfl

@[simp] theorem ignoreCommand_encFree (s : State) :
    (ignoreCommand s).encFree = s.encFree := rfl

@[simp] theorem ignoreCommand_decFree (s : State) :
    (ignoreCommand s).decFree = s.decFree := rfl

/-! ### applyReset -/

@[simp] theorem applyReset_encPhase (s : State) :
    (applyReset s).encPhase = State.reset.encPhase := rfl

@[simp] theorem applyReset_encLast (s : State) :
    (applyReset s).encLast = State.reset.encLast := rfl

@[simp] theorem applyReset_encRun (s : State) :
    (applyReset s).encRun = State.reset.encRun := rfl

@[simp] theorem applyReset_wrLen (s : State) :
    (applyReset s).wrLen = State.reset.wrLen := rfl

@[simp] theorem applyReset_encErr (s : State) :
    (applyReset s).encErr = State.reset.encErr := rfl

@[simp] theorem applyReset_cout (s : State) :
    (applyReset s).cout = cellsOf 0 (Config.freeCout s.encFree) := rfl

@[simp] theorem applyReset_decPhase (s : State) :
    (applyReset s).decPhase = State.reset.decPhase := rfl

@[simp] theorem applyReset_decW (s : State) :
    (applyReset s).decW = State.reset.decW := rfl

@[simp] theorem applyReset_decH (s : State) :
    (applyReset s).decH = State.reset.decH := rfl

@[simp] theorem applyReset_decNpix (s : State) :
    (applyReset s).decNpix = State.reset.decNpix := rfl

@[simp] theorem applyReset_decCursor (s : State) :
    (applyReset s).decCursor = State.reset.decCursor := rfl

@[simp] theorem applyReset_rdOff (s : State) :
    (applyReset s).rdOff = State.reset.rdOff := rfl

@[simp] theorem applyReset_rdLen (s : State) :
    (applyReset s).rdLen = State.reset.rdLen := rfl

@[simp] theorem applyReset_decErr (s : State) :
    (applyReset s).decErr = State.reset.decErr := rfl

@[simp] theorem applyReset_decSub (s : State) :
    (applyReset s).decSub = State.reset.decSub := rfl

@[simp] theorem applyReset_pixbuf (s : State) :
    (applyReset s).pixbuf = State.reset.pixbuf := rfl

@[simp] theorem applyReset_proto (s : State) :
    (applyReset s).proto = State.reset.proto := rfl

@[simp] theorem applyReset_resp (s : State) :
    (applyReset s).resp = State.reset.resp := rfl

@[simp] theorem applyReset_cin (s : State) :
    (applyReset s).cin = s.cin := rfl

@[simp] theorem applyReset_cinLen (s : State) :
    (applyReset s).cinLen = s.cinLen := rfl

@[simp] theorem applyReset_ioOk (s : State) :
    (applyReset s).ioOk = s.ioOk := rfl

@[simp] theorem applyReset_host (s : State) :
    (applyReset s).host = s.host := rfl

@[simp] theorem applyReset_par (s : State) :
    (applyReset s).par = s.par := rfl

@[simp] theorem applyReset_encFree (s : State) :
    (applyReset s).encFree = s.encFree + 1 := rfl

@[simp] theorem applyReset_decFree (s : State) :
    (applyReset s).decFree = s.decFree := rfl

/-! ### withoutResponse -/

@[simp] theorem withoutResponse_encPhase (s : State) :
    (withoutResponse s).encPhase = s.encPhase := rfl

@[simp] theorem withoutResponse_encLast (s : State) :
    (withoutResponse s).encLast = s.encLast := rfl

@[simp] theorem withoutResponse_encRun (s : State) :
    (withoutResponse s).encRun = s.encRun := rfl

@[simp] theorem withoutResponse_wrLen (s : State) :
    (withoutResponse s).wrLen = s.wrLen := rfl

@[simp] theorem withoutResponse_encErr (s : State) :
    (withoutResponse s).encErr = s.encErr := rfl

@[simp] theorem withoutResponse_cout (s : State) :
    (withoutResponse s).cout = s.cout := rfl

@[simp] theorem withoutResponse_decPhase (s : State) :
    (withoutResponse s).decPhase = s.decPhase := rfl

@[simp] theorem withoutResponse_decW (s : State) :
    (withoutResponse s).decW = s.decW := rfl

@[simp] theorem withoutResponse_decH (s : State) :
    (withoutResponse s).decH = s.decH := rfl

@[simp] theorem withoutResponse_decNpix (s : State) :
    (withoutResponse s).decNpix = s.decNpix := rfl

@[simp] theorem withoutResponse_decCursor (s : State) :
    (withoutResponse s).decCursor = s.decCursor := rfl

@[simp] theorem withoutResponse_rdOff (s : State) :
    (withoutResponse s).rdOff = s.rdOff := rfl

@[simp] theorem withoutResponse_rdLen (s : State) :
    (withoutResponse s).rdLen = s.rdLen := rfl

@[simp] theorem withoutResponse_decErr (s : State) :
    (withoutResponse s).decErr = s.decErr := rfl

@[simp] theorem withoutResponse_decSub (s : State) :
    (withoutResponse s).decSub = s.decSub := rfl

@[simp] theorem withoutResponse_pixbuf (s : State) :
    (withoutResponse s).pixbuf = s.pixbuf := rfl

@[simp] theorem withoutResponse_proto (s : State) :
    (withoutResponse s).proto = s.proto := rfl

@[simp] theorem withoutResponse_resp (s : State) :
    (withoutResponse s).resp = .none := rfl

@[simp] theorem withoutResponse_cin (s : State) :
    (withoutResponse s).cin = s.cin := rfl

@[simp] theorem withoutResponse_cinLen (s : State) :
    (withoutResponse s).cinLen = s.cinLen := rfl

@[simp] theorem withoutResponse_ioOk (s : State) :
    (withoutResponse s).ioOk = s.ioOk := rfl

@[simp] theorem withoutResponse_host (s : State) :
    (withoutResponse s).host = s.host := rfl

@[simp] theorem withoutResponse_par (s : State) :
    (withoutResponse s).par = s.par := rfl

@[simp] theorem withoutResponse_encFree (s : State) :
    (withoutResponse s).encFree = s.encFree := rfl

@[simp] theorem withoutResponse_decFree (s : State) :
    (withoutResponse s).decFree = s.decFree := rfl

end Sys2Proof.Machine
end

