-- ==== Sys2Proof/Laws/Memory.lean ====
section
/-! SUPPORT. The laws of the sparse memories: reading after writing, the canonical form, byte sequences and fills. -/

namespace Sys2Proof.Machine

variable {α : Type} [DecidableEq α] (d : α)

/-! ### Cells -/

omit [DecidableEq α] in
@[simp] theorem cellsGet_nil (a : Nat) : cellsGet d [] a = d := rfl

theorem cellsWfFrom_weaken {lo lo' : Nat} (m : List (Nat × α)) (h : lo' ≤ lo) (hw : cellsWfFrom d lo m = true) :
    cellsWfFrom d lo' m = true := by
  cases m with
  | nil => rfl
  | cons c m =>
    obtain ⟨b, u⟩ := c
    simp only [cellsWfFrom, Bool.and_eq_true, decide_eq_true_eq] at hw ⊢
    exact ⟨⟨by omega, hw.1.2⟩, hw.2⟩

/-- Below the canonical form's lower bound every address is unlisted. -/
theorem cellsGet_below {lo : Nat} (m : List (Nat × α)) (a : Nat) (h : a < lo) (hw : cellsWfFrom d lo m = true) :
    cellsGet d m a = d := by
  induction m generalizing lo with
  | nil => rfl
  | cons c m ih =>
    obtain ⟨b, u⟩ := c
    simp only [cellsWfFrom, Bool.and_eq_true, decide_eq_true_eq] at hw
    have hne : a ≠ b := by omega
    simp only [cellsGet, if_neg hne]
    exact ih (lo := b + 1) (by omega) hw.2

theorem cellsSet_wfFrom {lo : Nat} (m : List (Nat × α)) (a : Nat) (v : α) (h : lo ≤ a)
    (hw : cellsWfFrom d lo m = true) : cellsWfFrom d lo (cellsSet d m a v) = true := by
  induction m generalizing lo with
  | nil =>
    by_cases hv : v = d
    · simp [cellsSet, hv, cellsWfFrom]
    · simp [cellsSet, hv, cellsWfFrom, h]
  | cons c m ih =>
    obtain ⟨b, u⟩ := c
    have hw' := hw
    simp only [cellsWfFrom, Bool.and_eq_true, decide_eq_true_eq] at hw
    obtain ⟨⟨hlo, hu⟩, hm⟩ := hw
    simp only [cellsSet]
    split
    · split
      · exact hw'
      · next hv =>
        simp only [cellsWfFrom, Bool.and_eq_true, decide_eq_true_eq]
        exact ⟨⟨h, hv⟩, ⟨by omega, hu⟩, hm⟩
    · split
      · next hab =>
        split
        · exact cellsWfFrom_weaken d m (by omega) hm
        · next hv =>
          simp only [cellsWfFrom, Bool.and_eq_true, decide_eq_true_eq]
          exact ⟨⟨h, hv⟩, by rw [hab]; exact hm⟩
      · simp only [cellsWfFrom, Bool.and_eq_true, decide_eq_true_eq]
        exact ⟨⟨hlo, hu⟩, ih (by omega) hm⟩

/-- A write keeps the canonical form. -/
theorem cellsSet_wf (m : List (Nat × α)) (a : Nat) (v : α) (hw : cellsWfFrom d 0 m = true) :
    cellsWfFrom d 0 (cellsSet d m a v) = true := cellsSet_wfFrom d m a v (Nat.zero_le a) hw

/-- Any list of cells is brought into canonical form. -/
theorem cellsOf_wf (m : List (Nat × α)) : cellsWfFrom d 0 (cellsOf d m) = true := by
  induction m with
  | nil => rfl
  | cons c m ih => exact cellsSet_wf d _ _ _ ih

/-- Read after write: the address written gives the value, every other address is as before. -/
theorem cellsGet_cellsSet {lo : Nat} (m : List (Nat × α)) (a x : Nat) (v : α) (hw : cellsWfFrom d lo m = true) :
    cellsGet d (cellsSet d m a v) x = if x = a then v else cellsGet d m x := by
  induction m generalizing lo with
  | nil =>
    by_cases hv : v = d
    · by_cases hx : x = a <;> simp [cellsSet, cellsGet, hv, hx]
    · by_cases hx : x = a <;> simp [cellsSet, cellsGet, hv, hx]
  | cons c m ih =>
    obtain ⟨b, u⟩ := c
    simp only [cellsWfFrom, Bool.and_eq_true, decide_eq_true_eq] at hw
    obtain ⟨⟨hlo, hu⟩, hm⟩ := hw
    simp only [cellsSet]
    split
    · next hab =>
      have hunl : cellsGet d ((b, u) :: m) a = d := by
        simp only [cellsGet, if_neg (by omega : a ≠ b)]
        exact cellsGet_below d m a (by omega) hm
      split
      · next hv =>
        by_cases hx : x = a
        · rw [hx, hunl, if_pos rfl, hv]
        · rw [if_neg hx]
      · by_cases hx : x = a <;> simp [cellsGet, hx]
    · split
      · next hab =>
        subst hab
        split
        · next hv =>
          by_cases hx : x = a
          · subst hx; rw [if_pos rfl, cellsGet_below d m x (by omega) hm, hv]
          · simp [cellsGet, hx]
        · by_cases hx : x = a <;> simp [cellsGet, hx]
      · next h1 h2 =>
        simp only [cellsGet, ih hm]
        by_cases hx : x = b
        · have : x ≠ a := by omega
          simp [hx, show b ≠ a by omega]
        · simp [hx]

/-- In canonical form, what is listed is no default, so equal readings are equal data. -/
theorem cells_ext {lo : Nat} (m n : List (Nat × α)) (hm : cellsWfFrom d lo m = true) (hn : cellsWfFrom d lo n = true)
    (h : ∀ a, cellsGet d m a = cellsGet d n a) : m = n := by
  induction m generalizing lo n with
  | nil =>
    cases n with
    | nil => rfl
    | cons c n =>
      obtain ⟨b, u⟩ := c
      simp only [cellsWfFrom, Bool.and_eq_true, decide_eq_true_eq] at hn
      have := h b
      simp only [cellsGet, if_true] at this
      exact absurd this.symm hn.1.2
  | cons c m ih =>
    obtain ⟨b, u⟩ := c
    have hm0 := hm
    simp only [cellsWfFrom, Bool.and_eq_true, decide_eq_true_eq] at hm
    cases n with
    | nil =>
      have := h b
      simp only [cellsGet, if_true] at this
      exact absurd this hm.1.2
    | cons c' n =>
      obtain ⟨b', u'⟩ := c'
      have hn0 := hn
      simp only [cellsWfFrom, Bool.and_eq_true, decide_eq_true_eq] at hn
      have hbb : b = b' := by
        rcases Nat.lt_trichotomy b b' with hlt | heq | hgt
        · have := h b
          rw [cellsGet_below d ((b', u') :: n) b (lo := b') hlt
            (by simp only [cellsWfFrom, Bool.and_eq_true, decide_eq_true_eq]; exact ⟨⟨Nat.le_refl _, hn.1.2⟩, hn.2⟩)] at this
          simp only [cellsGet, if_true] at this
          exact absurd this hm.1.2
        · exact heq
        · have := h b'
          rw [cellsGet_below d ((b, u) :: m) b' (lo := b) hgt
            (by simp only [cellsWfFrom, Bool.and_eq_true, decide_eq_true_eq]; exact ⟨⟨Nat.le_refl _, hm.1.2⟩, hm.2⟩)] at this
          simp only [cellsGet, if_true] at this
          exact absurd this.symm hn.1.2
      subst hbb
      have huu : u = u' := by
        have := h b
        simpa only [cellsGet, if_true] using this
      subst huu
      congr 1
      refine ih n hm.2 hn.2 (fun a => ?_)
      by_cases hab : a = b
      · subst hab
        rw [cellsGet_below d m a (Nat.lt_succ_self a) hm.2, cellsGet_below d n a (Nat.lt_succ_self a) hn.2]
      · have := h a
        simpa only [cellsGet, if_neg hab] using this

/-- Every address a write lists is the one written or was listed before. -/
theorem mem_cellsSet (m : List (Nat × α)) (a : Nat) (v : α) (c : Nat × α) (h : c ∈ cellsSet d m a v) :
    c.1 = a ∨ c ∈ m := by
  induction m with
  | nil =>
    simp only [cellsSet] at h
    split at h
    · cases h
    · simp only [List.mem_singleton] at h; exact .inl (by rw [h])
  | cons c' m ih =>
    obtain ⟨b, u⟩ := c'
    simp only [cellsSet] at h
    split at h
    · split at h
      · exact .inr h
      · rcases List.mem_cons.1 h with h | h
        · exact .inl (by rw [h])
        · exact .inr h
    · split at h
      · split at h
        · exact .inr (List.mem_cons_of_mem _ h)
        · rcases List.mem_cons.1 h with h | h
          · exact .inl (by rw [h])
          · exact .inr (List.mem_cons_of_mem _ h)
      · rcases List.mem_cons.1 h with h | h
        · exact .inr (by rw [h]; exact List.mem_cons_self)
        · rcases ih h with h | h
          · exact .inl h
          · exact .inr (List.mem_cons_of_mem _ h)

/-- A listing made of given cells lists only their addresses. -/
theorem mem_cellsOf (m : List (Nat × α)) (c : Nat × α) (h : c ∈ cellsOf d m) : ∃ c' ∈ m, c'.1 = c.1 := by
  induction m with
  | nil => cases h
  | cons c' m ih =>
    rcases mem_cellsSet d _ _ _ _ h with h | h
    · exact ⟨c', List.mem_cons_self, h.symm⟩
    · obtain ⟨c'', h1, h2⟩ := ih h
      exact ⟨c'', List.mem_cons_of_mem _ h1, h2⟩

/-! ### Byte memories -/

@[simp] theorem Memory.read_nil (a : Nat) : Memory.read [] a = 0 := rfl

@[simp] theorem Memory.wf_nil : Memory.wf [] = true := rfl

theorem Memory.write_wf (m : Memory) (a : Nat) (v : Byte) (h : m.wf = true) : (m.write a v).wf = true :=
  cellsSet_wf 0 m a v h

theorem Memory.read_write (m : Memory) (a x : Nat) (v : Byte) (h : m.wf = true) :
    (m.write a v).read x = if x = a then v else m.read x := cellsGet_cellsSet 0 m a x v h

theorem Memory.writeBytes_wf (m : Memory) (a : Nat) (vs : List Byte) (h : m.wf = true) :
    (m.writeBytes a vs).wf = true := by
  induction vs generalizing m a with
  | nil => exact h
  | cons v vs ih => exact ih _ _ (Memory.write_wf m a v h)

/-- A byte sequence written at `a` is read back there, and every other offset is as before. -/
theorem Memory.read_writeBytes (m : Memory) (a x : Nat) (vs : List Byte) (h : m.wf = true) :
    (m.writeBytes a vs).read x = if a ≤ x ∧ x < a + vs.length then vs.getD (x - a) 0 else m.read x := by
  induction vs generalizing m a with
  | nil =>
    have : ¬ (a ≤ x ∧ x < a + ([] : List Byte).length) := by simp
    rw [if_neg this]; rfl
  | cons v vs ih =>
    rw [Memory.writeBytes, ih _ _ (Memory.write_wf m a v h), Memory.read_write m a x v h]
    by_cases hx : x = a
    · subst hx
      simp
    · by_cases h1 : a + 1 ≤ x ∧ x < a + 1 + vs.length
      · have h2 : a ≤ x ∧ x < a + (v :: vs).length := by simp only [List.length_cons]; omega
        rw [if_pos h1, if_pos h2]
        obtain ⟨j, hj⟩ : ∃ j, x - a = j + 1 := ⟨x - a - 1, by omega⟩
        rw [hj, List.getD_cons_succ]
        congr 1
        omega
      · have h2 : ¬ (a ≤ x ∧ x < a + (v :: vs).length) := by simp only [List.length_cons]; omega
        rw [if_neg h1, if_neg h2, if_neg hx]

/-- Two byte sequences written one after the other. -/
theorem Memory.writeBytes_append (m : Memory) (a : Nat) (xs ys : List Byte) :
    m.writeBytes a (xs ++ ys) = (m.writeBytes a xs).writeBytes (a + xs.length) ys := by
  induction xs generalizing m a with
  | nil => rfl
  | cons x xs ih =>
    simp only [List.cons_append, Memory.writeBytes, ih, List.length_cons]
    congr 1
    omega

@[simp] theorem Memory.readBytes_length (m : Memory) (a n : Nat) : (m.readBytes a n).length = n := by
  induction n generalizing a with
  | zero => rfl
  | succ n ih => simp [Memory.readBytes, ih]

theorem Memory.readBytes_getD (m : Memory) (a n i : Nat) (h : i < n) : (m.readBytes a n).getD i 0 = m.read (a + i) := by
  induction n generalizing a i with
  | zero => omega
  | succ n ih =>
    cases i with
    | zero => simp [Memory.readBytes]
    | succ i =>
      rw [Memory.readBytes, List.getD_cons_succ, ih (a + 1) i (by omega)]
      congr 1
      omega

/-- Two memories that agree on the bytes read give the same sequence. -/
theorem Memory.readBytes_congr (m m' : Memory) (a n : Nat) (h : ∀ x, a ≤ x → x < a + n → m.read x = m'.read x) :
    m.readBytes a n = m'.readBytes a n := by
  induction n generalizing a with
  | zero => rfl
  | succ n ih =>
    simp only [Memory.readBytes]
    rw [h a (by omega) (by omega), ih (a + 1) (fun x h1 h2 => h x (by omega) (by omega))]

/-- What lies below an offset decides the reading there. -/
theorem Memory.read_below (m : Memory) (n a : Nat) (h : a < n) : (m.below n).read a = m.read a := by
  simp only [Memory.read, Memory.below]
  induction m with
  | nil => rfl
  | cons c m ih =>
    obtain ⟨b, u⟩ := c
    by_cases hb : b < n
    · simp only [List.filter_cons, hb, decide_true, if_true, cellsGet, ih]
    · simp only [List.filter_cons, hb, decide_false, cellsGet]
      rw [if_neg (by omega : a ≠ b)]
      simpa using ih

/-- Leaving entries out keeps the canonical form. -/
theorem cellsWfFrom_filter {lo : Nat} (m : List (Nat × α)) (p : Nat × α → Bool) (hw : cellsWfFrom d lo m = true) :
    cellsWfFrom d lo (m.filter p) = true := by
  induction m generalizing lo with
  | nil => rfl
  | cons c m ih =>
    obtain ⟨b, u⟩ := c
    simp only [cellsWfFrom, Bool.and_eq_true, decide_eq_true_eq] at hw
    rw [List.filter_cons]
    split
    · simp only [cellsWfFrom, Bool.and_eq_true, decide_eq_true_eq]
      exact ⟨hw.1, ih hw.2⟩
    · exact cellsWfFrom_weaken d _ (by omega) (ih hw.2)

/-- At and beyond the offset nothing is left. -/
theorem Memory.read_below_of_le (m : Memory) (n a : Nat) (h : n ≤ a) : (m.below n).read a = 0 := by
  simp only [Memory.read, Memory.below]
  induction m with
  | nil => rfl
  | cons c m ih =>
    rw [List.filter_cons]
    split
    · next hb =>
      rw [cellsGet, if_neg (by simp at hb; omega)]
      exact ih
    · exact ih

/-- Two canonical memories are the same below an offset exactly when they read the same there. -/
theorem Memory.below_eq_iff (m m' : Memory) (n : Nat) (hm : m.wf = true) (hm' : m'.wf = true) :
    m.below n = m'.below n ↔ ∀ a < n, m.read a = m'.read a := by
  constructor
  · intro h a ha
    rw [← Memory.read_below m n a ha, h, Memory.read_below m' n a ha]
  · intro h
    refine cells_ext 0 _ _ (cellsWfFrom_filter 0 _ _ hm) (cellsWfFrom_filter 0 _ _ hm') fun a => ?_
    show (m.below n).read a = (m'.below n).read a
    by_cases ha : a < n
    · rw [Memory.read_below m n a ha, Memory.read_below m' n a ha, h a ha]
    · rw [Memory.read_below_of_le m n a (by omega), Memory.read_below_of_le m' n a (by omega)]

theorem containerOf_wf (bytes : List Byte) : (containerOf bytes).wf = true :=
  Memory.writeBytes_wf [] 0 bytes rfl

/-- What a placed container reads as: its bytes, and 0 beyond them. -/
theorem containerOf_read (bytes : List Byte) (a : Nat) : (containerOf bytes).read a = bytes.getD a 0 := by
  rw [containerOf, Memory.read_writeBytes _ _ _ _ rfl]
  split
  · rw [Nat.sub_zero]
  · next h =>
    have : bytes.length ≤ a := by omega
    rw [Memory.read_nil, List.getD_eq_default _ _ this]

/-- Writing a byte sequence lists only offsets of the sequence and those listed before. -/
theorem Memory.mem_writeBytes (m : Memory) (a : Nat) (bytes : List Byte) (c : Host.Cell)
    (h : c ∈ m.writeBytes a bytes) : c.1 < a + bytes.length ∨ c ∈ m := by
  induction bytes generalizing m a with
  | nil => exact .inr h
  | cons v vs ih =>
    rw [List.length_cons]
    rcases ih _ _ h with h | h
    · exact .inl (by omega)
    · rcases mem_cellsSet _ _ _ _ _ h with h | h
      · exact .inl (by omega)
      · exact .inr h

/-- A container lists no byte beyond its length. -/
theorem containerOf_mem (bytes : List Byte) (c : Host.Cell) (h : c ∈ containerOf bytes) : c.1 < bytes.length := by
  rcases Memory.mem_writeBytes _ _ _ _ h with h | h
  · omega
  · exact absurd h (List.not_mem_nil)

/-! ### Pixel memories -/

@[simp] theorem PixelMemory.read_nil (i : Nat) : PixelMemory.read [] i = Config.defaultPixel := rfl

@[simp] theorem PixelMemory.wf_nil : PixelMemory.wf [] = true := rfl

theorem PixelMemory.write_wf (m : PixelMemory) (i : Nat) (p : Pixel) (h : m.wf = true) : (m.write i p).wf = true :=
  cellsSet_wf _ m i p h

theorem PixelMemory.read_write (m : PixelMemory) (i x : Nat) (p : Pixel) (h : m.wf = true) :
    (m.write i p).read x = if x = i then p else m.read x := cellsGet_cellsSet _ m i x p h

theorem PixelMemory.fill_wf (m : PixelMemory) (p : Pixel) (i n : Nat) (h : m.wf = true) : (m.fill p i n).wf = true := by
  induction n generalizing m i with
  | zero => exact h
  | succ n ih => exact ih _ _ (PixelMemory.write_wf m i p h)

/-- A fill sets the `n` slots from `i` up and no other. -/
theorem PixelMemory.read_fill (m : PixelMemory) (p : Pixel) (i n x : Nat) (h : m.wf = true) :
    (m.fill p i n).read x = if i ≤ x ∧ x < i + n then p else m.read x := by
  induction n generalizing m i with
  | zero => rw [if_neg (by omega)]; rfl
  | succ n ih =>
    rw [PixelMemory.fill, ih _ _ (PixelMemory.write_wf m i p h), PixelMemory.read_write m i x p h]
    by_cases hx : x = i
    · subst hx; simp
    · by_cases h1 : i + 1 ≤ x ∧ x < i + 1 + n
      · rw [if_pos h1, if_pos (by omega)]
      · rw [if_neg h1, if_neg hx, if_neg (by omega)]

/-- A fill lists only the slots it fills and those listed before. -/
theorem PixelMemory.mem_fill (m : PixelMemory) (p : Pixel) (i n : Nat) (c : Nat × Pixel) (h : c ∈ m.fill p i n) :
    c.1 < i + n ∨ c ∈ m := by
  induction n generalizing m i with
  | zero => exact .inr h
  | succ n ih =>
    rcases ih _ _ h with h | h
    · exact .inl (by omega)
    · rcases mem_cellsSet _ _ _ _ _ h with h | h
      · exact .inl (by omega)
      · exact .inr h

end Sys2Proof.Machine
end

