-- ==== Sys2Proof/Laws/Exec.lean ====
section
/-! SUPPORT. For each shared operation and each meaning, once, everything it can do when it answers a next state. -/

namespace Sys2Proof.Machine

/-! ### The encoder's functions -/

theorem encPix_grow (last : Pixel) (run : Byte) (h : run.toNat < 255) : encPix last run last = (last, run + 1, none) :=
  if_pos ⟨rfl, h⟩

theorem encPix_turn (last p : Pixel) (run : Byte) (h : ¬(p = last ∧ run.toNat < 255)) :
    encPix last run p = (p, 1, if 0 < run.toNat then some ⟨run, last⟩ else none) := if_neg h

/-- With nothing pending the colour of the pending run does not matter (40_encoder R115). -/
theorem encPix_zero (last p : Pixel) : encPix last 0 p = (p, 1, none) := by
  by_cases h : p = last
  · subst h; exact encPix_grow p 0 (by decide)
  · rw [encPix_turn last p 0 (fun h' => h h'.1)]; rfl

/-- Everything `enc_pix` can do: grow the pending run, start the first one, or emit the pending one. -/
theorem encPix_cases (last p : Pixel) (run : Byte) :
    (p = last ∧ run.toNat < 255 ∧ encPix last run p = (last, run + 1, none)) ∨
    (run = 0 ∧ encPix last run p = (p, 1, none)) ∨
    (run ≠ 0 ∧ (p ≠ last ∨ run = 255) ∧ encPix last run p = (p, 1, some ⟨run, last⟩)) := by
  by_cases h : p = last ∧ run.toNat < 255
  · exact .inl ⟨h.1, h.2, if_pos h⟩
  · by_cases hr : run = 0
    · subst hr; exact .inr (.inl ⟨rfl, encPix_zero last p⟩)
    · refine .inr (.inr ⟨hr, ?_, ?_⟩)
      · by_cases hp : p = last
        · right
          have h1 : ¬ run.toNat < 255 := fun h' => h ⟨hp, h'⟩
          have h2 := run.isLt
          apply BitVec.eq_of_toNat_eq
          show run.toNat = 255
          omega
        · exact .inl hp
      · rw [encPix_turn last p run h, if_pos]
        rcases Nat.eq_zero_or_pos run.toNat with h0 | h0
        · exact absurd (BitVec.eq_of_toNat_eq h0) hr
        · exact h0

theorem encFlush_zero (last : Pixel) : encFlush last 0 = (0, none) := rfl

theorem encFlush_pending (last : Pixel) (run : Byte) (h : run ≠ 0) : encFlush last run = (0, some ⟨run, last⟩) := by
  have : 0 < run.toNat := by
    rcases Nat.eq_zero_or_pos run.toNat with h0 | h0
    · exact absurd (BitVec.eq_of_toNat_eq h0) h
    · exact h0
  simp [encFlush, this]

/-! ### The encode path -/

theorem coutFits_iff (n : Nat) (s : State) : coutFits n s = true ↔ s.wrLen.toNat + n < 2 ^ 64 := by
  simp [coutFits]

/-- Everything `ENC_BEGIN` can do. It always answers a next state. -/
theorem execEncBegin_cases (w h : Dim) (s : State) :
    (s.encPhase = .body ∧ execEncBegin w h s = .next (ignoreCommand s)) ∨
    (s.encPhase ≠ .body ∧ ioGood s = false ∧ execEncBegin w h s = .next (encIoError (openEncode s))) ∨
    (s.encPhase ≠ .body ∧ ioGood s = true ∧
      execEncBegin w h s = .next { appendCout (serHdr w h) (openEncode s) with encPhase := .body }) := by
  unfold execEncBegin
  by_cases hp : s.encPhase = .body
  · exact .inl ⟨hp, if_pos hp⟩
  · rw [if_neg hp]
    cases hio : ioGood s
    · exact .inr (.inl ⟨hp, rfl, rfl⟩)
    · exact .inr (.inr ⟨hp, rfl, rfl⟩)

/-- Everything `ENC_PIX` can do. -/
theorem execEncPix_cases (r g b : Byte) (s : State) :
    (s.encPhase ≠ .body ∧ execEncPix r g b s = .next (ignoreCommand s)) ∨
    (s.encPhase = .body ∧ s.encLast = ⟨r, g, b⟩ ∧ s.encRun.toNat < 255 ∧
      execEncPix r g b s = .next { s with encRun := s.encRun + 1, resp := .none }) ∨
    (s.encPhase = .body ∧ s.encRun = 0 ∧
      execEncPix r g b s = .next { s with encLast := ⟨r, g, b⟩, encRun := 1, resp := .none }) ∨
    (s.encPhase = .body ∧ s.encRun ≠ 0 ∧ ((⟨r, g, b⟩ : Pixel) ≠ s.encLast ∨ s.encRun = 255) ∧ ioGood s = false ∧
      execEncPix r g b s = .next (encIoError s)) ∨
    (s.encPhase = .body ∧ s.encRun ≠ 0 ∧ ((⟨r, g, b⟩ : Pixel) ≠ s.encLast ∨ s.encRun = 255) ∧ ioGood s = true ∧
      coutFits 4 s = false ∧ execEncPix r g b s = .refused .coutOverflow) ∨
    (s.encPhase = .body ∧ s.encRun ≠ 0 ∧ ((⟨r, g, b⟩ : Pixel) ≠ s.encLast ∨ s.encRun = 255) ∧ ioGood s = true ∧
      coutFits 4 s = true ∧
      execEncPix r g b s = .next { appendCout (serRec ⟨s.encRun, s.encLast⟩) s with
        encLast := ⟨r, g, b⟩, encRun := 1, resp := .none }) := by
  unfold execEncPix
  by_cases hp : s.encPhase = .body
  · rw [if_neg (not_not_intro hp)]
    rcases encPix_cases s.encLast ⟨r, g, b⟩ s.encRun with ⟨h1, h2, h3⟩ | ⟨h1, h3⟩ | ⟨h1, h2, h3⟩
    · rw [h3]; exact .inr (.inl ⟨hp, h1.symm, h2, rfl⟩)
    · rw [h3]; exact .inr (.inr (.inl ⟨hp, h1, rfl⟩))
    · rw [h3]
      cases hio : ioGood s
      · exact .inr (.inr (.inr (.inl ⟨hp, h1, h2, rfl, rfl⟩)))
      · cases hf : coutFits 4 s
        · refine .inr (.inr (.inr (.inr (.inl ⟨hp, h1, h2, rfl, rfl, ?_⟩))))
          show (if (coutFits 4 s) = false then _ else _) = _
          rw [if_pos hf]
        · refine .inr (.inr (.inr (.inr (.inr ⟨hp, h1, h2, rfl, rfl, ?_⟩))))
          show (if (coutFits 4 s) = false then _ else _) = _
          rw [if_neg (by rw [hf]; decide)]
  · exact .inl ⟨hp, if_pos hp⟩

/-- Everything `ENC_END` can do. -/
theorem execEncEnd_cases (s : State) :
    (s.encPhase ≠ .body ∧ execEncEnd s = .next (ignoreCommand s)) ∨
    (s.encPhase = .body ∧ ioGood s = false ∧ execEncEnd s = .next (encIoError s)) ∨
    (s.encPhase = .body ∧ ioGood s = true ∧ s.encRun = 0 ∧
      execEncEnd s = .next { s with encRun := 0, encPhase := .done, resp := .none }) ∨
    (s.encPhase = .body ∧ ioGood s = true ∧ s.encRun ≠ 0 ∧ coutFits 4 s = false ∧
      execEncEnd s = .refused .coutOverflow) ∨
    (s.encPhase = .body ∧ ioGood s = true ∧ s.encRun ≠ 0 ∧ coutFits 4 s = true ∧
      execEncEnd s = .next { appendCout (serRec ⟨s.encRun, s.encLast⟩) s with
        encRun := 0, encPhase := .done, resp := .none }) := by
  unfold execEncEnd
  by_cases hp : s.encPhase = .body
  · rw [if_neg (not_not_intro hp)]
    cases hio : ioGood s
    · exact .inr (.inl ⟨hp, rfl, rfl⟩)
    · by_cases hr : s.encRun = 0
      · rw [hr]; exact .inr (.inr (.inl ⟨hp, rfl, rfl, rfl⟩))
      · rw [encFlush_pending _ _ hr]
        cases hf : coutFits 4 s
        · refine .inr (.inr (.inr (.inl ⟨hp, rfl, hr, rfl, ?_⟩)))
          show (if (coutFits 4 s) = false then _ else _) = _
          rw [if_pos hf]
        · refine .inr (.inr (.inr (.inr ⟨hp, rfl, hr, rfl, ?_⟩)))
          show (if (coutFits 4 s) = false then _ else _) = _
          rw [if_neg (by rw [hf]; decide)]
  · exact .inl ⟨hp, if_pos hp⟩

/-! ### The decode path -/

/-- `width * height` is exact (00_scope R14, 10_state R42 (c)). -/
theorem pixelCount_toNat (w h : Dim) : (pixelCount w h).toNat = w.toNat * h.toNat := by
  have hw := w.isLt
  have hh := h.isLt
  have hlt : w.toNat * h.toNat < 2 ^ 64 := by
    calc w.toNat * h.toNat < 2 ^ 32 * 2 ^ 32 := Nat.mul_lt_mul'' hw hh
      _ = 2 ^ 64 := by norm_num
  rw [pixelCount, BitVec.toNat_mul, BitVec.toNat_setWidth,
    BitVec.toNat_setWidth, Nat.mod_eq_of_lt (by omega : w.toNat < 2 ^ 64), Nat.mod_eq_of_lt (by omega : h.toNat < 2 ^ 64),
    Nat.mod_eq_of_lt hlt]

theorem recordReady_iff (s : State) : recordReady s = true ↔ s.rdOff.toNat + 4 ≤ s.rdLen.toNat := by
  simp [recordReady]

theorem lengthTrue_iff (clen : Cnt) (s : State) : lengthTrue clen s = true ↔ clen.toNat = s.cinLen := by
  simp [lengthTrue]

/-- What `HDR` does: DIMS, or the buffer created and D_BODY. -/
theorem consumeHeader_cases (w h : Dim) (s : State) :
    (s.par.pixbufCap.toNat < w.toNat * h.toNat ∧
      consumeHeader w h s = decBeginFault .formatError .dims { s with decW := w, decH := h, decNpix := pixelCount w h }) ∨
    (w.toNat * h.toNat ≤ s.par.pixbufCap.toNat ∧
      consumeHeader w h s = { s with
        decW := w, decH := h, decNpix := pixelCount w h, pixbuf := [], decCursor := 0, rdOff := 8, decPhase := .body }) := by
  unfold consumeHeader
  by_cases hc : s.par.pixbufCap.toNat < w.toNat * h.toNat
  · exact .inl ⟨hc, if_pos (by rw [pixelCount_toNat]; exact hc)⟩
  · exact .inr ⟨by omega, if_neg (by rw [pixelCount_toNat]; exact hc)⟩

/-- Everything `DEC_BEGIN` can do. It is refused only where `clen` is not the container's length. -/
theorem execDecBegin_cases (clen : Cnt) (s : State) :
    (s.decPhase = .body ∧ execDecBegin clen s = .next (ignoreCommand s)) ∨
    (s.decPhase ≠ .body ∧ clen.toNat ≠ s.cinLen ∧ execDecBegin clen s = .refused .lengthMismatch) ∨
    (s.decPhase ≠ .body ∧ clen.toNat = s.cinLen ∧ ioGood s = false ∧
      execDecBegin clen s = .next (decBeginFault .ioError .none (openDecode clen s))) ∨
    (s.decPhase ≠ .body ∧ clen.toNat = s.cinLen ∧ ioGood s = true ∧ clen.toNat < 8 ∧
      execDecBegin clen s = .next (decBeginFault .formatError .short (openDecode clen s))) ∨
    (s.decPhase ≠ .body ∧ clen.toNat = s.cinLen ∧ ioGood s = true ∧ 8 ≤ clen.toNat ∧ (clen.toNat - 8) % 4 ≠ 0 ∧
      execDecBegin clen s = .next (decBeginFault .formatError .unaligned (openDecode clen s))) ∨
    (s.decPhase ≠ .body ∧ clen.toNat = s.cinLen ∧ ioGood s = true ∧ 8 ≤ clen.toNat ∧ (clen.toNat - 8) % 4 = 0 ∧
      execDecBegin clen s =
        .next (consumeHeader (parHdr (s.cin.readBytes 0 8)).1 (parHdr (s.cin.readBytes 0 8)).2 (openDecode clen s))) := by
  unfold execDecBegin
  by_cases hp : s.decPhase = .body
  · exact .inl ⟨hp, if_pos hp⟩
  · rw [if_neg hp]
    by_cases hl : clen.toNat = s.cinLen
    · rw [(lengthTrue_iff clen s).2 hl, if_neg (by decide)]
      cases hio : ioGood s
      · exact .inr (.inr (.inl ⟨hp, hl, rfl, rfl⟩))
      · rw [if_neg (by decide)]
        by_cases h8 : clen.toNat < 8
        · exact .inr (.inr (.inr (.inl ⟨hp, hl, rfl, h8, if_pos h8⟩)))
        · rw [if_neg (show ¬ clen.toNat < Config.hdrLen from h8)]
          by_cases h4 : (clen.toNat - 8) % 4 = 0
          · exact .inr (.inr (.inr (.inr (.inr ⟨hp, hl, rfl, by omega, h4, if_neg (not_not_intro h4)⟩))))
          · exact .inr (.inr (.inr (.inr (.inl ⟨hp, hl, rfl, by omega, h4, if_pos h4⟩))))
    · refine .inr (.inl ⟨hp, hl, if_pos ?_⟩)
      rw [← Bool.not_eq_true, lengthTrue_iff]
      exact hl

/-- What a fetched record does: OutOfBoundsError with nothing written, or the run expanded. -/
theorem consumeRun_cases (run : Run) (s : State) :
    (s.decNpix.toNat - s.decCursor.toNat < run.len.toNat ∧ consumeRun run s = raiseDec .outOfBounds .none s) ∨
    (run.len.toNat ≤ s.decNpix.toNat - s.decCursor.toNat ∧
      consumeRun run s = { s with
        pixbuf := s.pixbuf.fill run.color s.decCursor.toNat run.len.toNat
        decCursor := s.decCursor + run.len.setWidth 64
        rdOff := s.rdOff + 4 }) := by
  unfold consumeRun decRun
  by_cases hc : s.decNpix.toNat - s.decCursor.toNat < run.len.toNat
  · rw [if_pos hc]; exact .inl ⟨hc, rfl⟩
  · rw [if_neg hc]; exact .inr ⟨by omega, rfl⟩

/-- Everything `DEC_STEP` can do. -/
theorem execDecStep_cases (s : State) :
    (s.decPhase ≠ .body ∧ execDecStep s = .next s) ∨
    (s.decPhase = .body ∧ s.rdOff.toNat + 4 ≤ s.rdLen.toNat ∧
      execDecStep s = .next (consumeRun (parRec (s.cin.readBytes s.rdOff.toNat 4)) s)) ∨
    (s.decPhase = .body ∧ s.rdOff = s.rdLen ∧ execDecStep s = .next { s with decPhase := .done }) ∨
    (s.decPhase = .body ∧ s.rdLen.toNat < s.rdOff.toNat + 4 ∧ s.rdOff ≠ s.rdLen ∧
      execDecStep s = .fault .fetchOutOfRange) := by
  unfold execDecStep
  by_cases hp : s.decPhase = .body
  · rw [if_neg (not_not_intro hp)]
    by_cases hr : s.rdOff.toNat + 4 ≤ s.rdLen.toNat
    · exact .inr (.inl ⟨hp, hr, if_pos ((recordReady_iff s).2 hr)⟩)
    · rw [if_neg (fun h => hr ((recordReady_iff s).1 h))]
      by_cases he : s.rdOff = s.rdLen
      · exact .inr (.inr (.inl ⟨hp, he, if_pos he⟩))
      · exact .inr (.inr (.inr ⟨hp, by omega, he, if_neg he⟩))
  · exact .inl ⟨hp, if_pos hp⟩

/-- Everything `RUN` can do. It always answers a next state. -/
theorem execRun_cases (len r g b : Byte) (s : State) :
    (¬(s.decPhase = .body ∧ s.rdOff.toNat + 4 ≤ s.rdLen.toNat) ∧ execRun len r g b s = .next s) ∨
    (s.decPhase = .body ∧ s.rdOff.toNat + 4 ≤ s.rdLen.toNat ∧
      execRun len r g b s = .next (consumeRun ⟨len, ⟨r, g, b⟩⟩ s)) := by
  unfold execRun
  by_cases h : s.decPhase = .body ∧ s.rdOff.toNat + 4 ≤ s.rdLen.toNat
  · exact .inr ⟨h.1, h.2, if_pos ⟨h.1, (recordReady_iff s).2 h.2⟩⟩
  · exact .inl ⟨h, if_neg (fun h' => h ⟨h'.1, (recordReady_iff s).1 h'.2⟩)⟩

/-- Everything `HDR` can do. It always answers a next state. -/
theorem execHdr_cases (w h : Dim) (s : State) :
    (s.decPhase = .body ∧ execHdr w h s = .next s) ∨
    (s.decPhase ≠ .body ∧ execHdr w h s = .next (consumeHeader w h s)) := by
  unfold execHdr
  by_cases hp : s.decPhase = .body
  · exact .inl ⟨hp, if_pos hp⟩
  · exact .inr ⟨hp, if_neg hp⟩

/-- Everything `DEC_RDPIX` can do. It always answers a next state. -/
theorem execDecRdpix_cases (idx : Cnt) (s : State) :
    (s.decPhase = .done ∧ idx.toNat < s.decNpix.toNat ∧
      execDecRdpix idx s = .next { s with resp := .pixel (s.pixbuf.read idx.toNat) }) ∨
    (¬(s.decPhase = .done ∧ idx.toNat < s.decNpix.toNat) ∧
      execDecRdpix idx s = .next { s with proto := true, resp := .refusedPixel }) := by
  unfold execDecRdpix
  have hiff : pixelReadable idx s = true ↔ s.decPhase = .done ∧ idx.toNat < s.decNpix.toNat := by
    simp [pixelReadable]
  by_cases h : s.decPhase = .done ∧ idx.toNat < s.decNpix.toNat
  · exact .inl ⟨h.1, h.2, if_pos (hiff.2 h)⟩
  · exact .inr ⟨h, if_neg (fun h' => h (hiff.1 h'))⟩

/-! ### Status access -/

/-- A register number is assigned exactly when it is below 8 (10_state R38). -/
theorem regValue_isSome (n : BitVec 4) (s : State) : (regValue n s).isSome = decide (n.toNat < 8) := by
  have key : ∀ n : BitVec 4, n.toNat < 8 →
      n = 0 ∨ n = 1 ∨ n = 2 ∨ n = 3 ∨ n = 4 ∨ n = 5 ∨ n = 6 ∨ n = 7 := by decide
  by_cases h : n.toNat < 8
  · rcases key n h with h | h | h | h | h | h | h | h <;> subst h <;> rfl
  · have h0 : n ≠ 0 ∧ n ≠ 1 ∧ n ≠ 2 ∧ n ≠ 3 ∧ n ≠ 4 ∧ n ≠ 5 ∧ n ≠ 6 ∧ n ≠ 7 := by
      refine ⟨?_, ?_, ?_, ?_, ?_, ?_, ?_, ?_⟩ <;> (intro h'; subst h'; exact h (by decide))
    obtain ⟨h0, h1, h2, h3, h4, h5, h6, h7⟩ := h0
    rw [regValue, if_neg h0, if_neg h1, if_neg h2, if_neg h3, if_neg h4, if_neg h5, if_neg h6, if_neg h7]
    simpa using h

/-- Everything `RD_REG` can do. It always answers a next state. -/
theorem execRdReg_cases (n : BitVec 4) (s : State) :
    (∃ v, regValue n s = some v ∧ n.toNat < 8 ∧ execRdReg n s = .next { s with resp := .value v }) ∨
    (8 ≤ n.toNat ∧ execRdReg n s = .next { s with proto := true, resp := .value 0 }) := by
  have hs := regValue_isSome n s
  unfold execRdReg
  cases hv : regValue n s with
  | none =>
    rw [hv] at hs
    exact .inr ⟨by simpa using hs.symm, rfl⟩
  | some v =>
    rw [hv] at hs
    exact .inl ⟨v, rfl, by simpa using hs.symm, rfl⟩

end Sys2Proof.Machine
end

