-- ==== Sys2Proof/Laws/PerInstr.lean ====
section
/-! SUPPORT. Per instruction: its encoding has the place and the length that spec/30_encoding.md and the opcode table give
it, and a command word selects its own row of the table (R94). -/

namespace Sys2Proof.Laws.Format

open Sys2Proof

/-- A command word selects the row that names its instruction; a header has 8 bytes, a record 4 (R81, R82, R94); only the
autonomous step has no word. -/
def Statement (i : Instr) : Prop :=
  match encode i with
  | .command cw => ∃ row ∈ commandTable, row.mnemonic = i.mnemonic ∧ row.selects cw = true
  | .header bytes => bytes.length = 8 ∧ i.mnemonic = "HDR"
  | .record bytes => bytes.length = 4 ∧ i.mnemonic = "RUN"
  | .turn => i = .decStep

/-- The mask of every row keeps the operation code and drops the operand. -/
theorem mask_append (op : BitVec 4) (arg : BitVec 64) :
    (op ++ arg : CmdWord) &&& 0xF0000000000000000 = op ++ 0#64 := by
  have h : (0xF0000000000000000 : CmdWord) = 0xF#4 ++ 0#64 := by decide
  rw [h, BitVec.and_append, BitVec.and_zero]
  congr 1
  exact BitVec.and_allOnes

/-- A row of the table selects the words with its operation code. -/
theorem selects_append (name : String) (op : BitVec 4) (arg : BitVec 64) :
    (⟨name, op ++ 0#64, 0xF0000000000000000⟩ : CommandRow).selects (op ++ arg) = true := by
  simp only [CommandRow.selects, mask_append, beq_self_eq_true]

theorem encBegin (width height : Dim) : Statement (.encBegin width height) :=
  ⟨⟨"ENC_BEGIN", 0x10000000000000000, 0xF0000000000000000⟩, by decide, rfl, selects_append _ 0x1#4 _⟩

theorem encPix (r g b : Byte) : Statement (.encPix r g b) :=
  ⟨⟨"ENC_PIX", 0x20000000000000000, 0xF0000000000000000⟩, by decide, rfl, selects_append _ 0x2#4 _⟩

theorem encEnd : Statement .encEnd :=
  ⟨⟨"ENC_END", 0x30000000000000000, 0xF0000000000000000⟩, by decide, rfl, selects_append _ 0x3#4 _⟩

theorem decBegin (clen : Cnt) : Statement (.decBegin clen) :=
  ⟨⟨"DEC_BEGIN", 0x40000000000000000, 0xF0000000000000000⟩, by decide, rfl, selects_append _ 0x4#4 _⟩

theorem decRdpix (idx : Cnt) : Statement (.decRdpix idx) :=
  ⟨⟨"DEC_RDPIX", 0x50000000000000000, 0xF0000000000000000⟩, by decide, rfl, selects_append _ 0x5#4 _⟩

theorem rdReg (n : BitVec 4) : Statement (.rdReg n) :=
  ⟨⟨"RD_REG", 0x60000000000000000, 0xF0000000000000000⟩, by decide, rfl, selects_append _ 0x6#4 _⟩

theorem decStep : Statement .decStep := rfl

theorem hdr (width height : Dim) : Statement (.hdr width height) := ⟨rfl, rfl⟩

theorem run (len r g b : Byte) : Statement (.run len r g b) := ⟨rfl, rfl⟩

end Sys2Proof.Laws.Format
end

