-- ==== Sys2Proof/Laws/Step.lean ====
section
/-! SUPPORT. Once, everything a step of the machine can do; what a command word can decode to; and what a record or a
header leaves alone. -/

namespace Sys2Proof.Machine

/-- Everything a step that answers a next state can have done: a decoded command, an ignored one, the autonomous step,
a container placed, or a reset. -/
theorem step_cases {s t : State} (h : step s = .next t) :
    (∃ cw ok rest i, s.host = .command cw ok :: rest ∧ decode (.command cw) = .ok i ∧
      exec i { s with host := rest, ioOk := ok } = .next t) ∨
    (∃ cw ok rest e, s.host = .command cw ok :: rest ∧ decode (.command cw) = .error e ∧
      t = ignoreCommand { s with host := rest, ioOk := ok }) ∨
    ((s.host = [] ∨ ∃ rest, s.host = .decTurn :: rest) ∧ exec .decStep { s with host := s.host.tail } = .next t) ∨
    (∃ bytes rest, s.host = .place bytes :: rest ∧
      (s.decPhase = .body → s.rdLen.toNat ≤ bytes.length ∧
        (containerOf bytes).below s.rdLen.toNat = s.cin.below s.rdLen.toNat) ∧
      t = { s with cin := containerOf bytes, cinLen := bytes.length, host := rest }) ∨
    (∃ rest, s.host = .reset :: rest ∧ t = applyReset { s with host := rest }) := by
  unfold step at h
  split at h
  · next hs =>
    refine .inr (.inr (.inl ⟨.inl hs, ?_⟩))
    have hself : { s with host := s.host.tail } = s := by
      obtain ⟨⟩ := s
      subst hs
      rfl
    rw [hself]
    exact h
  · next cw ok rest hs =>
    unfold stepCommand at h
    split at h
    · next i hd => exact .inl ⟨cw, ok, rest, i, hs, hd, h⟩
    · next e hd => exact .inr (.inl ⟨cw, ok, rest, e, hs, hd, by cases h; rfl⟩)
  · next rest hs =>
    refine .inr (.inr (.inl ⟨.inr ⟨rest, hs⟩, ?_⟩))
    rw [hs]
    exact h
  · next bytes rest hs =>
    refine .inr (.inr (.inr (.inl ⟨bytes, rest, hs, ?_⟩)))
    unfold placeContainer at h
    split at h
    · cases h
    · next hb =>
      refine ⟨fun hp => ?_, by cases h; rfl⟩
      by_contra hne
      refine hb ⟨hp, ?_⟩
      by_cases hlen : bytes.length < s.rdLen.toNat
      · exact .inl hlen
      · exact .inr fun heq => hne ⟨Nat.le_of_not_lt hlen, heq⟩
  · next rest hs => exact .inr (.inr (.inr (.inr ⟨rest, hs, by cases h; rfl⟩)))

/-- What a command word can decode to: one of the six host commands (30_encoding R89). -/
theorem decode_command_kinds {cw : CmdWord} {i : Instr} (h : decode (.command cw) = .ok i) :
    (∃ w hh, i = .encBegin w hh) ∨ (∃ r g b, i = .encPix r g b) ∨ i = .encEnd ∨ (∃ n, i = .decBegin n) ∨
    (∃ idx, i = .decRdpix idx) ∨ ∃ n, i = .rdReg n := by
  replace h : decodeCommand cw = .ok i := h
  unfold decodeCommand at h
  split at h
  · cases h; exact .inl ⟨_, _, rfl⟩
  · split at h
    · cases h; exact .inr (.inl ⟨_, _, _, rfl⟩)
    · split at h
      · cases h; exact .inr (.inr (.inl rfl))
      · split at h
        · cases h; exact .inr (.inr (.inr (.inl ⟨_, rfl⟩)))
        · split at h
          · cases h; exact .inr (.inr (.inr (.inr (.inl ⟨_, rfl⟩))))
          · split at h
            · cases h; exact .inr (.inr (.inr (.inr (.inr ⟨_, rfl⟩))))
            · cases h

/-- Executing a header leaves the encode path, the inputs and `proto` alone. -/
theorem consumeHeader_frame (w h : Dim) (s : State) :
    sameEncodePath (consumeHeader w h s) s ∧ sameInputs (consumeHeader w h s) s ∧
      (consumeHeader w h s).proto = s.proto ∧ (consumeHeader w h s).resp = s.resp := by
  rcases consumeHeader_cases w h s with ⟨_, e⟩ | ⟨_, e⟩ <;> rw [e] <;> simp [sameEncodePath, sameInputs]

/-- Executing a record leaves the encode path, the inputs, `proto`, the dimensions and `rd_len` alone. -/
theorem consumeRun_frame (run : Run) (s : State) :
    sameEncodePath (consumeRun run s) s ∧ sameInputs (consumeRun run s) s ∧
      (consumeRun run s).proto = s.proto ∧ (consumeRun run s).resp = s.resp ∧ (consumeRun run s).decW = s.decW ∧
      (consumeRun run s).decH = s.decH ∧ (consumeRun run s).decNpix = s.decNpix ∧
      (consumeRun run s).rdLen = s.rdLen := by
  rcases consumeRun_cases run s with ⟨_, e⟩ | ⟨_, e⟩ <;> rw [e] <;> simp [sameEncodePath, sameInputs]

/-- No memory leaves its canonical form when an instruction answers a next state. -/
theorem exec_memoriesWf (i : Instr) (s t : State) (hw : memoriesWf s = true) (hx : exec i s = .next t) :
    memoriesWf t = true := by
  simp only [memoriesWf, Bool.and_eq_true] at hw ⊢
  obtain ⟨⟨hout, hin⟩, hbuf⟩ := hw
  have hrun : ∀ run, ((consumeRun run s).cout.wf = true ∧ (consumeRun run s).cin.wf = true) ∧
      (consumeRun run s).pixbuf.wf = true := by
    intro run
    rcases consumeRun_cases run s with ⟨_, e⟩ | ⟨_, e⟩ <;> rw [e]
    · exact ⟨⟨hout, hin⟩, hbuf⟩
    · exact ⟨⟨hout, hin⟩, PixelMemory.fill_wf _ _ _ _ hbuf⟩
  have hhdr : ∀ w h s', s'.cout = s.cout → s'.cin = s.cin →
      ((consumeHeader w h s').cout.wf = true ∧ (consumeHeader w h s').cin.wf = true) ∧
      (consumeHeader w h s').pixbuf.wf = true := by
    intro w h s' h1 h2
    rcases consumeHeader_cases w h s' with ⟨_, e⟩ | ⟨_, e⟩ <;> rw [e] <;> simp only [decBeginFault_cout,
      decBeginFault_cin, h1, h2]
    · exact ⟨⟨hout, hin⟩, cellsOf_wf _ _⟩
    · exact ⟨⟨hout, hin⟩, rfl⟩
  cases i with
  | encBegin w h =>
    simp only [exec] at hx
    rcases execEncBegin_cases w h s with ⟨_, e⟩ | ⟨_, _, e⟩ | ⟨_, _, e⟩
    all_goals rw [e] at hx; cases hx
    · exact ⟨⟨hout, hin⟩, hbuf⟩
    · exact ⟨⟨cellsOf_wf _ _, hin⟩, hbuf⟩
    · exact ⟨⟨Memory.writeBytes_wf _ _ _ rfl, hin⟩, hbuf⟩
  | encPix r g b =>
    simp only [exec] at hx
    rcases execEncPix_cases r g b s with ⟨_, e⟩ | ⟨_, _, _, e⟩ | ⟨_, _, e⟩ | ⟨_, _, _, _, e⟩ | ⟨_, _, _, _, _, e⟩ |
      ⟨_, _, _, _, _, e⟩
    all_goals rw [e] at hx; cases hx
    · exact ⟨⟨hout, hin⟩, hbuf⟩
    · exact ⟨⟨hout, hin⟩, hbuf⟩
    · exact ⟨⟨hout, hin⟩, hbuf⟩
    · exact ⟨⟨cellsOf_wf _ _, hin⟩, hbuf⟩
    · exact ⟨⟨Memory.writeBytes_wf _ _ _ hout, hin⟩, hbuf⟩
  | encEnd =>
    simp only [exec] at hx
    rcases execEncEnd_cases s with ⟨_, e⟩ | ⟨_, _, e⟩ | ⟨_, _, _, e⟩ | ⟨_, _, _, _, e⟩ | ⟨_, _, _, _, e⟩
    all_goals rw [e] at hx; cases hx
    · exact ⟨⟨hout, hin⟩, hbuf⟩
    · exact ⟨⟨cellsOf_wf _ _, hin⟩, hbuf⟩
    · exact ⟨⟨hout, hin⟩, hbuf⟩
    · exact ⟨⟨Memory.writeBytes_wf _ _ _ hout, hin⟩, hbuf⟩
  | decBegin n =>
    simp only [exec] at hx
    rcases execDecBegin_cases n s with ⟨_, e⟩ | ⟨_, _, e⟩ | ⟨_, _, _, e⟩ | ⟨_, _, _, _, e⟩ | ⟨_, _, _, _, _, e⟩ |
      ⟨_, _, _, _, _, e⟩
    all_goals rw [e] at hx; cases hx
    · exact ⟨⟨hout, hin⟩, hbuf⟩
    · exact ⟨⟨hout, hin⟩, cellsOf_wf _ _⟩
    · exact ⟨⟨hout, hin⟩, cellsOf_wf _ _⟩
    · exact ⟨⟨hout, hin⟩, cellsOf_wf _ _⟩
    · exact hhdr _ _ _ rfl rfl
  | decRdpix idx =>
    simp only [exec] at hx
    rcases execDecRdpix_cases idx s with ⟨_, _, e⟩ | ⟨_, e⟩
    all_goals rw [e] at hx; cases hx; exact ⟨⟨hout, hin⟩, hbuf⟩
  | rdReg n =>
    simp only [exec] at hx
    rcases execRdReg_cases n s with ⟨v, _, _, e⟩ | ⟨_, e⟩
    all_goals rw [e] at hx; cases hx; exact ⟨⟨hout, hin⟩, hbuf⟩
  | decStep =>
    simp only [exec] at hx
    rcases execDecStep_cases s with ⟨_, e⟩ | ⟨_, _, e⟩ | ⟨_, _, e⟩ | ⟨_, _, _, e⟩
    all_goals rw [e] at hx; cases hx
    · exact ⟨⟨hout, hin⟩, hbuf⟩
    · exact hrun _
    · exact ⟨⟨hout, hin⟩, hbuf⟩
  | hdr w h =>
    simp only [exec] at hx
    rcases execHdr_cases w h s with ⟨_, e⟩ | ⟨_, e⟩
    all_goals rw [e] at hx; cases hx
    · exact ⟨⟨hout, hin⟩, hbuf⟩
    · exact hhdr _ _ _ rfl rfl
  | run len r g b =>
    simp only [exec] at hx
    rcases execRun_cases len r g b s with ⟨_, e⟩ | ⟨_, _, e⟩
    all_goals rw [e] at hx; cases hx
    · exact ⟨⟨hout, hin⟩, hbuf⟩
    · exact hrun _

/-- The memories of the reset state are in canonical form. -/
theorem memoriesWf_reset : memoriesWf State.reset = true := rfl

end Sys2Proof.Machine
end

