-- ==== Sys2Proof/Laws/Stream.lean ====
section
/-! SUPPORT. Laws of run streams and of the records of a container. -/

namespace Sys2Proof.Machine

/-! ### Streams -/

theorem expand_append (xs ys : List Run) : expand (xs ++ ys) = expand xs ++ expand ys := by
  induction xs with
  | nil => rfl
  | cons x xs ih => simp [expand, ih]

/-- The sum of the run lengths is the number of pixels. -/
theorem totalLength_eq (runs : List Run) : totalLength runs = (expand runs).length := by
  induction runs with
  | nil => rfl
  | cons r rs ih => simp [totalLength, expand, ih]

theorem totalLength_append (xs ys : List Run) : totalLength (xs ++ ys) = totalLength xs + totalLength ys := by
  simp [totalLength_eq, expand_append]

/-- From a pending run, the emitted runs expand to that run's pixels followed by the given ones. -/
theorem expand_encodedStream (last : Pixel) (run : Byte) (ps : List Pixel) :
    expand (encodedStream last run ps) = List.replicate run.toNat last ++ ps := by
  induction ps generalizing last run with
  | nil =>
    by_cases h : run = 0
    · subst h; rfl
    · rw [encodedStream, encFlush_pending _ _ h]; simp [expand]
  | cons p ps ih =>
    rw [encodedStream]
    rcases encPix_cases last p run with ⟨rfl, h, e⟩ | ⟨rfl, e⟩ | ⟨h1, h2, e⟩ <;> rw [e]
    · have : (run + 1).toNat = run.toNat + 1 := by rw [BitVec.toNat_add]; simp; omega
      simp only [Option.toList, List.nil_append, ih, this, List.replicate_succ', List.append_assoc,
        List.singleton_append]
    · simp [ih]
    · simp [ih, expand]

/-- The first run emitted from a pending run has its colour. -/
theorem encodedStream_head (last : Pixel) (run : Byte) (h : run ≠ 0) (ps : List Pixel) :
    ∃ r rs, encodedStream last run ps = r :: rs ∧ r.color = last := by
  induction ps generalizing run with
  | nil => rw [encodedStream, encFlush_pending _ _ h]; exact ⟨_, _, rfl, rfl⟩
  | cons p ps ih =>
    rw [encodedStream]
    rcases encPix_cases last p run with ⟨rfl, h', e⟩ | ⟨rfl, e⟩ | ⟨h1, h2, e⟩ <;> rw [e]
    · refine ih (run + 1) (fun hc => ?_)
      have := congrArg BitVec.toNat hc
      rw [BitVec.toNat_add] at this
      simp at this
      omega
    · exact absurd rfl h
    · exact ⟨_, _, rfl, rfl⟩

/-- With nothing pending the stream does not depend on the colour kept (40_encoder R115, R120). -/
theorem encodedStream_zero (last last' : Pixel) (ps : List Pixel) :
    encodedStream last 0 ps = encodedStream last' 0 ps := by
  cases ps with
  | nil => rfl
  | cons p ps => rw [encodedStream, encodedStream, encPix_zero, encPix_zero]

/-- One run is emitted for each pixel at most, and one for the pending run. -/
theorem encodedStream_length (last : Pixel) (run : Byte) (ps : List Pixel) :
    (encodedStream last run ps).length ≤ ps.length + (if run = 0 then 0 else 1) := by
  induction ps generalizing last run with
  | nil =>
    by_cases h : run = 0
    · subst h; exact Nat.le_refl _
    · rw [encodedStream, encFlush_pending _ _ h, if_neg h]; exact Nat.le_add_left _ _
  | cons p ps ih =>
    rw [encodedStream]
    rcases encPix_cases last p run with ⟨rfl, h, e⟩ | ⟨rfl, e⟩ | ⟨h1, h2, e⟩ <;> rw [e]
    · have := ih p (run + 1)
      simp only [Option.toList, List.nil_append, List.length_cons]
      split at this <;> split <;> omega
    · have := ih p 1
      rw [if_neg (by decide)] at this
      simp only [Option.toList, List.nil_append, List.length_cons, if_true]
      omega
    · have := ih p 1
      simp only [Option.toList, List.singleton_append, List.length_cons, if_neg h1]
      rw [if_neg (by decide)] at this
      omega

/-! ### Records -/

/-- Record `n` is the next one after the first `n`. -/
theorem recordsUpTo_succ (c : Memory) (n : Nat) : recordsUpTo c (n + 1) = recordsUpTo c n ++ [recordAt c n] := by
  simp [recordsUpTo, List.range_succ]

@[simp] theorem recordsUpTo_zero (c : Memory) : recordsUpTo c 0 = [] := rfl

@[simp] theorem recordsUpTo_length (c : Memory) (n : Nat) : (recordsUpTo c n).length = n := by simp [recordsUpTo]

/-- Containers that agree on a record's bytes hold the same record there. -/
theorem recordAt_congr (c c' : Memory) (k : Nat) (h : ∀ a, 8 + 4 * k ≤ a → a < 8 + 4 * k + 4 → c.read a = c'.read a) :
    recordAt c k = recordAt c' k := by
  show parRec (c.readBytes (8 + 4 * k) 4) = parRec (c'.readBytes (8 + 4 * k) 4)
  rw [Memory.readBytes_congr c c' _ _ h]

/-- Reading back a record that was written. -/
theorem recordAt_writeBytes_self (c : Memory) (k : Nat) (run : Run) (h : c.wf = true) :
    recordAt (c.writeBytes (8 + 4 * k) (serRec run)) k = run := by
  have read : ∀ x, (c.writeBytes (8 + 4 * k) (serRec run)).read x =
      if 8 + 4 * k ≤ x ∧ x < 8 + 4 * k + 4 then (serRec run).getD (x - (8 + 4 * k)) 0 else c.read x :=
    fun x => Memory.read_writeBytes _ _ _ _ h
  show parRec (Memory.readBytes _ (8 + 4 * k) 4) = run
  simp only [Memory.readBytes, read]
  rw [if_pos (by omega), if_pos (by omega), if_pos (by omega), if_pos (by omega),
    show 8 + 4 * k - (8 + 4 * k) = 0 by omega, show 8 + 4 * k + 1 - (8 + 4 * k) = 1 by omega,
    show 8 + 4 * k + 1 + 1 - (8 + 4 * k) = 2 by omega, show 8 + 4 * k + 1 + 1 + 1 - (8 + 4 * k) = 3 by omega]
  rfl

/-- A record written elsewhere leaves this one alone. -/
theorem recordAt_writeBytes_other (c : Memory) (j k : Nat) (run : Run) (h : c.wf = true) (hjk : j ≠ k) :
    recordAt (c.writeBytes (8 + 4 * k) (serRec run)) j = recordAt c j := by
  refine recordAt_congr _ _ _ (fun a h1 h2 => ?_)
  rw [Memory.read_writeBytes _ _ _ _ h, if_neg]
  simp only [serRec, List.length_cons, List.length_nil]
  omega

/-- The next record's offset has the next index. -/
theorem recordIndex_add (off : Nat) (h : 8 ≤ off) : recordIndex (off + 4) = recordIndex off + 1 := by
  show (off + 4 - 8) / 4 = (off - 8) / 4 + 1
  omega

/-- An offset congruent to 8 modulo 4 is that of its record. -/
theorem recordIndex_offset (off : Nat) (h : 8 ≤ off) (h4 : (off - 8) % 4 = 0) : 8 + 4 * recordIndex off = off := by
  show 8 + 4 * ((off - 8) / 4) = off
  omega

theorem recordIndex_of (k : Nat) : recordIndex (8 + 4 * k) = k := by
  show (8 + 4 * k - 8) / 4 = k
  omega

/-- A run filled in after the runs before it gives the expansion of all of them (43_decoder R178). -/
theorem fill_expandedSlot (buf : PixelMemory) (runs : List Run) (run : Run) (hw : buf.wf = true)
    (h : ∀ i, buf.read i = expandedSlot runs i) (i : Nat) :
    (buf.fill run.color (totalLength runs) run.len.toNat).read i = expandedSlot (runs ++ [run]) i := by
  rw [PixelMemory.read_fill _ _ _ _ _ hw, h]
  simp only [expandedSlot, expand_append, expand, List.append_nil, totalLength_eq]
  generalize expand runs = ps
  by_cases h1 : i < ps.length
  · rw [if_neg (by omega)]
    simp [List.getD_eq_getElem?_getD, List.getElem?_append_left h1]
  · simp only [List.getD_eq_getElem?_getD, List.getElem?_append_right (Nat.le_of_not_lt h1)]
    by_cases h2 : i < ps.length + run.len.toNat
    · rw [if_pos ⟨by omega, h2⟩, List.getElem?_replicate, if_pos (by omega)]; rfl
    · rw [if_neg (by omega), List.getElem?_replicate, if_neg (by omega),
        List.getElem?_eq_none (by omega)]

end Sys2Proof.Machine
end

