-- ==== Sys2Proof/Tests/Slice0.lean ====
section
/-! SUPPORT. The model's own tests (expected results from spec/95_test_vectors.md and the rules' examples) and, for each
statement with hypotheses, a witness that meets them. -/

namespace Sys2Proof.Machine.Tests

open Sys2Proof

/-! ### Helpers -/

/-- A field of the next state, if there is one. -/
def after {α : Type} (o : Host.Outcome State Fault Refusal) (f : State → α) : Option α :=
  match o with
  | .next t => some (f t)
  | .fault _ => none
  | .refused _ => none

/-- A command word waiting at the port. -/
def atPort (cw : CmdWord) (ok : Bool) (s : State) : State := { s with host := [.command cw ok] }

/-- E_BODY with the header of a 2×2 grid written and a run pending (95 G10, E11). -/
def encoding (last : Pixel) (run : Byte) : State :=
  { State.reset with
    encPhase := .body, encLast := last, encRun := run, wrLen := 8, cout := containerOf [2, 0, 0, 0, 2, 0, 0, 0] }

/-- Reset with a container placed. -/
def placed (bytes : List Byte) : State := { State.reset with cin := containerOf bytes, cinLen := bytes.length }

/-- The container of vector X4: a 2×2 grid, a run of three red pixels, a run of one green pixel. -/
def containerX4 : Memory := containerOf [2, 0, 0, 0, 2, 0, 0, 0, 3, 255, 0, 0, 1, 0, 255, 0]

/-- The container of vector X3: the second run is one pixel too long. -/
def containerX3 : Memory := containerOf [2, 0, 0, 0, 2, 0, 0, 0, 3, 255, 0, 0, 2, 0, 255, 0]

/-- D_BODY on a 16-byte container of a 2×2 grid. -/
def decoding (c : Memory) (off cursor : Cnt) (buf : PixelMemory) : State :=
  { State.reset with
    decPhase := .body, decW := 2, decH := 2, decNpix := 4, decCursor := cursor, rdOff := off, rdLen := 16,
    pixbuf := buf, cin := c, cinLen := 16 }

def red : Pixel := ⟨255, 0, 0⟩
def green : Pixel := ⟨0, 255, 0⟩

/-- The end state of vector X4. -/
def decodedX4 : State :=
  { decoding containerX4 16 4 [(0, red), (1, red), (2, red), (3, green)] with decPhase := .done }

/-- Both paths in the middle of an operation: a full run written and one pixel pending; one record executed. -/
def running : State :=
  { decoding (containerOf [2, 0, 0, 0, 2, 0, 0, 0, 1, 255, 0, 0, 3, 0, 255, 0]) 12 1 [(0, red)] with
    encPhase := .body, encLast := ⟨1, 1, 1⟩, encRun := 1, wrLen := 12,
    cout := containerOf [2, 0, 0, 0, 2, 0, 0, 0, 255, 1, 1, 1] }

/-! ### Well-formedness -/

theorem test_wellFormed_refuses_run_of_length_zero : (Instr.run 0 1 2 3).wellFormed = false := by decide

theorem test_wellFormed_refuses_unassigned_register : (Instr.rdReg 8).wellFormed = false := by decide

theorem test_wellFormed_accepts_the_bounds :
    (Instr.run 1 1 2 3).wellFormed = true ∧ (Instr.run 255 1 2 3).wellFormed = true ∧
    (Instr.rdReg 7).wellFormed = true := by decide

/-! ### Words written out from the encodings (30_encoding R81, R82, R89; 95 P1, E13, E14, P2, G4, X8) -/

theorem test_decode_encBegin :
    decode (.command 0x10A0B0C0D01020304) = .ok (.encBegin 0x01020304 0x0A0B0C0D) := by decide

theorem test_decode_encPix : decode (.command 0x2FFFFFFFFFF1E140A) = .ok (.encPix 10 20 30) := by decide

theorem test_decode_encEnd : decode (.command 0x3DEADBEEFDEADBEEF) = .ok .encEnd := by decide

theorem test_decode_decBegin : decode (.command 0x4000000000000000C) = .ok (.decBegin 12) := by decide

theorem test_decode_decRdpix : decode (.command 0x5FFFFFFFFFFFFFFFF) = .ok (.decRdpix 18446744073709551615) := by
  decide

theorem test_decode_rdReg : decode (.command 0x6FFFFFFFFFFFFFFF1) = .ok (.rdReg 1) := by decide

theorem test_decode_decStep : decode .turn = .ok .decStep := by decide

theorem test_decode_hdr :
    decode (.header [0x04, 0x03, 0x02, 0x01, 0x0D, 0x0C, 0x0B, 0x0A]) = .ok (.hdr 0x01020304 0x0A0B0C0D) := by decide

theorem test_decode_run : decode (.record [0x2D, 0xFF, 0x00, 0x01]) = .ok (.run 45 255 0 1) := by decide

theorem test_decode_refuses_unassigned :
    decode (.command 0x00000000000000000) = .error (.unassignedOp 0) ∧
    decode (.command 0x70000000000000000) = .error (.unassignedOp 7) ∧
    decode (.command 0xF0123456789ABCDEF) = .error (.unassignedOp 15) := by decide

/-- Table words; an item's first byte is the lowest one by the model's choice (log 22). -/
theorem test_table_words :
    decodeTableWord 72 0x10000000200000003 = some (.encBegin 3 2) ∧
    decodeTableWord 68 0x20000000000030201 = some (.encPix 1 2 3) ∧
    decodeTableWord 0 0 = some .decStep ∧
    decodeTableWord 64 0x0A0B0C0D01020304 = some (.hdr 0x01020304 0x0A0B0C0D) ∧
    decodeTableWord 32 0x0100FF2D = some (.run 45 255 0 1) := by decide

/-! ### ENC_BEGIN -/

/-- Vector E13. -/
theorem test_encBegin_writes_the_header :
    after (step (atPort 0x10A0B0C0D01020304 true State.reset)) (fun t => (t.cout.readBytes 0 9, t.wrLen, t.encPhase)) =
      some ([4, 3, 2, 1, 0x0D, 0x0C, 0x0B, 0x0A, 0], 8, .body) := by decide

/-- Vector G10. -/
theorem test_encBegin_ignored_in_body :
    after (step (atPort 0x10000000900000009 true (encoding ⟨1, 1, 1⟩ 7)))
      (fun t => (t.cout.readBytes 0 8, t.wrLen, t.encRun, t.proto)) =
      some ([2, 0, 0, 0, 2, 0, 0, 0], 8, 7, true) := by decide

/-! ### ENC_PIX -/

/-- Vector E11, fifth row: the cap. -/
theorem test_encPix_cap :
    after (exec (.encPix 1 1 1) (encoding ⟨1, 1, 1⟩ 255))
      (fun t => (t.cout.readBytes 8 4, t.wrLen, t.encLast, t.encRun)) =
      some ([255, 1, 1, 1], 12, ⟨1, 1, 1⟩, 1) := by decide

/-- Vector E11, seventh row: one channel differs. -/
theorem test_encPix_one_channel :
    after (exec (.encPix 1 1 2) (encoding ⟨1, 1, 1⟩ 7))
      (fun t => (t.cout.readBytes 8 4, t.wrLen, t.encLast, t.encRun)) =
      some ([7, 1, 1, 1], 12, ⟨1, 1, 2⟩, 1) := by decide

/-! ### ENC_END -/

/-- The example of 41_container_writer R135. -/
theorem test_encEnd_flushes :
    after (step (atPort 0x30000000000000000 true (encoding ⟨0, 0, 0⟩ 4)))
      (fun t => (t.cout.readBytes 8 4, t.wrLen, t.encRun, t.encPhase)) =
      some ([4, 0, 0, 0], 12, 0, .done) := by decide

/-- Vector E15 (c): the sync is consulted even with no run pending. -/
theorem test_encEnd_io_error :
    after (step (atPort 0x30000000000000000 false (encoding ⟨0, 0, 0⟩ 0))) (fun t => (t.encPhase, t.encErr)) =
      some (.fault, .ioError) := by decide

/-! ### DEC_BEGIN and HDR -/

/-- Vector F6c. -/
theorem test_decBegin_byte_weights :
    after (step (atPort 0x40000000000000008 true (placed [4, 3, 2, 1, 13, 12, 11, 10])))
      (fun t => (t.decW, t.decH, t.decNpix, t.decPhase, t.rdOff, t.rdLen)) =
      some (16909060, 168496141, 0x000A1F406E6A5734, .body, 8, 8) := by decide

/-- Vector F7: UNALIGNED is tested before DIMS. -/
theorem test_decBegin_unaligned_first :
    after (step (atPort 0x40000000000000009 true { placed [255, 255, 255, 255, 255, 255, 255, 255, 0] with par := ⟨16, .any⟩ }))
      (fun t => (statusWord t, t.decW, t.decNpix, t.rdLen)) = some (0x4700, 0, 0, 9) := by decide

/-- 93 U15: a length one byte short or one record long is refused; in D_BODY the command is ignored all the same. -/
theorem test_decBegin_wrong_length :
    exec (.decBegin 7) (placed [0, 0, 0, 0, 0, 0, 0, 0]) = .refused .lengthMismatch ∧
    exec (.decBegin 12) (placed [0, 0, 0, 0, 0, 0, 0, 0]) = .refused .lengthMismatch ∧
    after (exec (.decBegin 12) (decoding containerX4 8 0 [])) (fun t => (t.proto, t.rdLen)) = some (true, 16) :=
  ⟨rfl, rfl, by decide⟩

/-- Vector F5: the dimensions stay readable. -/
theorem test_hdr_dims :
    after (exec (.hdr 5 4) { State.reset with par := ⟨16, .any⟩ })
      (fun t => (statusWord t, t.decW, t.decH, t.decNpix, t.rdOff)) = some (0x6700, 5, 4, 20, 0) := by decide

/-- Vector F5b: at the capacity. -/
theorem test_hdr_at_capacity :
    after (exec (.hdr 4 4) { State.reset with par := ⟨16, .any⟩ })
      (fun t => (statusWord t, t.decNpix, t.rdOff)) = some (0x0100, 16, 8) := by decide

/-! ### DEC_STEP and RUN -/

/-- Vector X3, second step: nothing is written, not even the slot that would have fitted. -/
theorem test_decStep_overflow :
    after (step (decoding containerX3 12 3 [(0, red), (1, red), (2, red)]))
      (fun t => (t.decPhase, t.decErr, t.rdOff, t.decCursor, t.pixbuf.read 2, t.pixbuf.read 3)) =
      some (.fault, .outOfBounds, 12, 3, red, ⟨0, 0, 0⟩) := by decide

/-- Vector X4, third step. -/
theorem test_decStep_finishes :
    after (step (decoding containerX4 16 4 [(0, red)])) (fun t => (t.decPhase, t.decErr, t.pixbuf.read 0)) =
      some (.done, .none, red) := by decide

/-- Vector X4, second step: an exact fit. -/
theorem test_run_exact_fit :
    after (exec (.run 1 0 255 0) (decoding containerX4 12 3 [(0, red), (1, red), (2, red)]))
      (fun t => (t.decPhase, t.rdOff, t.decCursor, t.pixbuf.read 2, t.pixbuf.read 3)) =
      some (.body, 16, 4, red, green) := by decide

/-- Vector X5 (b): a record of length 0 in a full buffer. -/
theorem test_run_of_length_zero :
    after (exec (.run 0 0xAA 0xBB 0xCC) (decoding containerX4 12 4 [(0, red)]))
      (fun t => (t.decPhase, t.rdOff, t.decCursor, t.pixbuf)) = some (.body, 16, 4, [(0, red)]) := by decide

/-! ### DEC_RDPIX -/

/-- Vector X4: the response word. -/
theorem test_decRdpix_answers :
    after (step (atPort 0x50000000000000003 true decodedX4)) (fun t => (t.resp, t.proto)) =
      some (.pixel green, false) ∧ pixelResponseWord green = 0x100FF00 := by decide

/-- Vector X8. -/
theorem test_decRdpix_refuses :
    after (step (atPort 0x50000000000000004 true decodedX4)) (fun t => (t.resp, t.proto, t.decPhase)) =
      some (.refusedPixel, true, .done) := by decide

/-! ### RD_REG -/

/-- Vectors G5 and G6: the status word of a finished decode beside an encode in progress. -/
theorem test_rdReg_status :
    after (step (atPort 0x60000000000000000 true { decodedX4 with encPhase := .body })) (fun t => (t.resp, t.proto)) =
      some (.value 0x0201, false) := by decide

/-- Vector G3. -/
theorem test_rdReg_unassigned :
    after (step (atPort 0x60000000000000008 true State.reset)) (fun t => (t.resp, statusWord t)) =
      some (.value 0, 0x10000) := by decide

/-! ### The step and the fetch -/

/-- Vector G11. -/
theorem test_step_ignores_unassigned :
    after (step (atPort 0xF0123456789ABCDEF true State.reset)) (fun t => (t.proto, t.resp, t.host)) =
      some (true, .none, []) := by decide

/-- A table word laid out by `withFetchWord` is what the next step runs. -/
theorem test_withFetchWord :
    after (step (State.reset.withFetchWord 72 0x10000000200000003)) (fun t => (t.encPhase, t.cout.readBytes 0 8)) =
      some (.body, [3, 0, 0, 0, 2, 0, 0, 0]) ∧
    after (step (State.reset.withFetchWord 68 0x4000000000000000C)) (fun t => (t.decPhase, t.rdLen, t.cinLen)) =
      some (.body, 12, 12) ∧
    after (step (State.reset.withFetchWord 64 0x0000000200000003)) (fun t => (t.decPhase, t.decW, t.decH)) =
      some (.body, 3, 2) ∧
    after (step (State.reset.withFetchWord 32 0)) (fun t => (t.decPhase, t.rdOff)) = some (.body, 12) ∧
    after (step (State.reset.withFetchWord 0 0)) (fun t => t.decPhase) = some .done := by decide

/-! ### Witnesses: the hypotheses of each statement, met together, each clause at a boundary of its range -/

/-- `io_ok` false, with `IO_FAULTS = any`. -/
def failing (s : State) : State := { s with ioOk := false }

/-- A capacity of `n` pixels. -/
def capacity (n : Cnt) (s : State) : State := { s with par := ⟨n, .any⟩ }

/-- D_FAULT with OutOfBoundsError: the end state of vector X3. -/
def overflowedX3 : State :=
  { decoding containerX3 12 3 [(0, red), (1, red), (2, red)] with decPhase := .fault, decErr := .outOfBounds }

/-- E_FAULT with IOError (vector E15). -/
def failedEncode : State := { State.reset with encPhase := .fault, encErr := .ioError }

theorem witness_CommandTableAgreesWithDecoder :
    (⟨"RD_REG", 0x60000000000000000, 0xF0000000000000000⟩ : CommandRow) ∈ commandTable ∧
    (⟨"RD_REG", 0x60000000000000000, 0xF0000000000000000⟩ : CommandRow).selects 0x6FFFFFFFFFFFFFFFF = true := by decide

theorem witness_UnassignedCodesAndUnusedBits :
    (atPort 0x0FFFFFFFFFFFFFFFF true State.reset).host = .command 0x0FFFFFFFFFFFFFFFF true :: [] ∧
    (opField 0x0FFFFFFFFFFFFFFFF).toNat = 0 ∧ 7 ≤ (opField 0x70000000000000000).toNat ∧
    7 ≤ (opField 0xF0000000000000000).toNat ∧
    (0xFFFFFFFFFF1E140A#64).extractLsb' 0 24 = (0x1E140A#64).extractLsb' 0 24 ∧
    (0xFFFFFFFFFFFFFFF1#64).extractLsb' 0 4 = (1#64).extractLsb' 0 4 := by decide

theorem witness_HeaderFieldsLittleEndian : bytesLe32 0x01020304 = [4, 3, 2, 1] := by decide

theorem witness_HeaderParserInvertsSerializer : ([1, 0, 0, 0, 0x2C, 1, 0, 0] : List Byte).length = 8 := by decide

theorem witness_RecordParserInvertsSerializer : ([0x2D, 255, 0, 0] : List Byte).length = 4 := by decide

theorem witness_EncoderFunctions :
    (red = red ∧ (254 : Byte).toNat < 255) ∧ ¬(red = red ∧ (255 : Byte).toNat < 255) ∧
    ¬(green = red ∧ (0 : Byte).toNat < 255) := by decide

theorem witness_CapPolicy : (254 : Byte).toNat < 255 := by decide

theorem witness_StreamIsCanonical : (⟨1, red⟩ : Run) ∈ encodedStream red 0 [red, green] := by decide

theorem witness_MaximalBlockRuns :
    ([red, green] : List Pixel).getLast? ≠ some red ∧ ([green] : List Pixel).head? ≠ some red ∧
    ([] : List Pixel).getLast? ≠ some red ∧ ([] : List Pixel).head? ≠ some red ∧ 1 ≤ 1 := by decide

theorem witness_EncBeginResult :
    (encoding red 255).encPhase = .body ∧
    (State.reset.encPhase ≠ .body ∧ ioGood State.reset = true) ∧
    (failedEncode.encPhase ≠ .body ∧ ioGood failedEncode = true) ∧
    ((failing State.reset).encPhase ≠ .body ∧ ioGood (failing State.reset) = false) := by decide

theorem witness_EncPixResult :
    State.reset.encPhase ≠ .body ∧
    ((encoding red 254).encPhase = .body ∧ (⟨255, 0, 0⟩ : Pixel) = (encoding red 254).encLast ∧
      (encoding red 254).encRun.toNat < 255) ∧
    ((encoding red 0).encPhase = .body ∧ (encoding red 0).encRun = 0) ∧
    ((encoding red 255).encPhase = .body ∧ (encoding red 255).encRun ≠ 0 ∧
      ((⟨255, 0, 0⟩ : Pixel) ≠ (encoding red 255).encLast ∨ (encoding red 255).encRun = 255) ∧
      ioGood (encoding red 255) = true ∧ (encoding red 255).wrLen.toNat + 4 < 2 ^ 64) ∧
    ((encoding red 1).encPhase = .body ∧ (encoding red 1).encRun ≠ 0 ∧
      ((⟨255, 0, 1⟩ : Pixel) ≠ (encoding red 1).encLast ∨ (encoding red 1).encRun = 255) ∧
      ioGood (failing (encoding red 1)) = false) := by decide

theorem witness_EncEndResult :
    State.reset.encPhase ≠ .body ∧
    ((encoding red 0).encPhase = .body ∧ ioGood (encoding red 0) = true ∧ (encoding red 0).encRun = 0) ∧
    ((encoding red 255).encPhase = .body ∧ ioGood (encoding red 255) = true ∧ (encoding red 255).encRun ≠ 0 ∧
      (encoding red 255).wrLen.toNat + 4 < 2 ^ 64) ∧
    ((failing (encoding red 0)).encPhase = .body ∧ ioGood (failing (encoding red 0)) = false) := by decide

/-- The smallest `wr_len` at which a record no longer fits. -/
def atTheEnd : State := { encoding red 255 with wrLen := 0xFFFFFFFFFFFFFFFC }

theorem witness_SinkOverflowRefused :
    atTheEnd.encPhase = .body ∧ atTheEnd.encRun ≠ 0 ∧ ioGood atTheEnd = true ∧ 2 ^ 64 ≤ atTheEnd.wrLen.toNat + 4 ∧
    ((⟨255, 0, 0⟩ : Pixel) ≠ atTheEnd.encLast ∨ atTheEnd.encRun = 255) := by decide

/-- A header of a 5×4 grid, more than a capacity of 16 and as much as one of 20. -/
def fiveByFour (cap : Cnt) : State := capacity cap (placed [5, 0, 0, 0, 4, 0, 0, 0])

theorem witness_DecBeginResult :
    (decoding containerX4 8 0 []).decPhase = .body ∧
    ((failing State.reset).decPhase ≠ .body ∧ (0 : Cnt).toNat = (failing State.reset).cinLen ∧
      ioGood (failing State.reset) = false) ∧
    ((placed [5, 0, 0, 0, 4, 0, 0]).decPhase ≠ .body ∧ (7 : Cnt).toNat = (placed [5, 0, 0, 0, 4, 0, 0]).cinLen ∧
      ioGood (placed [5, 0, 0, 0, 4, 0, 0]) = true ∧ (7 : Cnt).toNat < 8) ∧
    ((placed [5, 0, 0, 0, 4, 0, 0, 0, 1]).decPhase ≠ .body ∧
      (9 : Cnt).toNat = (placed [5, 0, 0, 0, 4, 0, 0, 0, 1]).cinLen ∧
      ioGood (placed [5, 0, 0, 0, 4, 0, 0, 0, 1]) = true ∧ 8 ≤ (9 : Cnt).toNat ∧ ((9 : Cnt).toNat - 8) % 4 ≠ 0) ∧
    ((fiveByFour 19).decPhase ≠ .body ∧ (8 : Cnt).toNat = (fiveByFour 19).cinLen ∧ ioGood (fiveByFour 19) = true ∧
      8 ≤ (8 : Cnt).toNat ∧ ((8 : Cnt).toNat - 8) % 4 = 0 ∧ parHdr ((fiveByFour 19).cin.readBytes 0 8) = (5, 4) ∧
      (fiveByFour 19).par.pixbufCap.toNat < (5 : Dim).toNat * (4 : Dim).toNat) ∧
    ((fiveByFour 20).decPhase ≠ .body ∧ (8 : Cnt).toNat = (fiveByFour 20).cinLen ∧ ioGood (fiveByFour 20) = true ∧
      parHdr ((fiveByFour 20).cin.readBytes 0 8) = (5, 4) ∧
      (5 : Dim).toNat * (4 : Dim).toNat ≤ (fiveByFour 20).par.pixbufCap.toNat) := by decide

theorem witness_HdrResult :
    ((fiveByFour 20).decPhase ≠ .body ∧ (5 : Dim).toNat * (4 : Dim).toNat ≤ (fiveByFour 20).par.pixbufCap.toNat) ∧
    ((fiveByFour 19).decPhase ≠ .body ∧ (fiveByFour 19).par.pixbufCap.toNat < (5 : Dim).toNat * (4 : Dim).toNat) := by
  decide

theorem witness_DecBeginFollowsRdCheck :
    (7 : Cnt).toNat < 8 ∧ (8 ≤ (9 : Cnt).toNat ∧ ((9 : Cnt).toNat - 8) % 4 ≠ 0) ∧
    (8 ≤ (8 : Cnt).toNat ∧ ((8 : Cnt).toNat - 8) % 4 = 0 ∧ parHdr [5, 0, 0, 0, 4, 0, 0, 0] = (5, 4) ∧
      (19 : Cnt).toNat < (5 : Dim).toNat * (4 : Dim).toNat ∧ (5 : Dim).toNat * (4 : Dim).toNat ≤ (20 : Cnt).toNat) ∧
    ((fiveByFour 20).decPhase ≠ .body ∧ (8 : Cnt).toNat = (fiveByFour 20).cinLen ∧ ioGood (fiveByFour 20) = true) := by
  decide

theorem witness_RunExpansion :
    PixelMemory.wf [(0, red), (1, red), (2, red)] = true ∧ (3 : Cnt).toNat ≤ (4 : Cnt).toNat ∧
    (4 : Cnt).toNat - (3 : Cnt).toNat < (2 : Byte).toNat ∧ (1 : Byte).toNat ≤ (4 : Cnt).toNat - (3 : Cnt).toNat ∧
    (0 : Byte).toNat ≤ (4 : Cnt).toNat - (4 : Cnt).toNat := by decide

theorem witness_DecStepExecutesRecord :
    ((decoding containerX4 12 3 []).decPhase = .body ∧
      (decoding containerX4 12 3 []).rdOff.toNat + 4 ≤ (decoding containerX4 12 3 []).rdLen.toNat ∧
      (decoding containerX4 12 3 []).cin.readBytes (decoding containerX4 12 3 []).rdOff.toNat 4 = [1, 0, 255, 0] ∧
      (1 : Byte).toNat ≤ (decoding containerX4 12 3 []).decNpix.toNat - (decoding containerX4 12 3 []).decCursor.toNat) ∧
    ((decoding containerX3 12 3 []).cin.readBytes (decoding containerX3 12 3 []).rdOff.toNat 4 = [2, 0, 255, 0] ∧
      (decoding containerX3 12 3 []).decNpix.toNat - (decoding containerX3 12 3 []).decCursor.toNat < (2 : Byte).toNat) := by
  decide

theorem witness_DecStepFinishes :
    (decoding containerX4 16 4 []).decPhase = .body ∧
    (decoding containerX4 16 4 []).rdOff = (decoding containerX4 16 4 []).rdLen := by decide

theorem witness_RunResult :
    (decoding containerX4 12 3 []).decPhase = .body ∧
    (decoding containerX4 12 3 []).rdOff.toNat + 4 ≤ (decoding containerX4 12 3 []).rdLen.toNat ∧
    (1 : Byte).toNat ≤ (decoding containerX4 12 3 []).decNpix.toNat - (decoding containerX4 12 3 []).decCursor.toNat ∧
    (decoding containerX4 12 3 []).decNpix.toNat - (decoding containerX4 12 3 []).decCursor.toNat < (2 : Byte).toNat := by
  decide

theorem witness_DecRdpixResult :
    (decodedX4.decPhase = .done ∧ (3 : Cnt).toNat < decodedX4.decNpix.toNat) ∧
    (decodedX4.decPhase ≠ .done ∨ decodedX4.decNpix.toNat ≤ (4 : Cnt).toNat) ∧
    (State.reset.decPhase ≠ .done ∨ State.reset.decNpix.toNat ≤ (0 : Cnt).toNat) := by decide

theorem witness_RdRegResult : 8 ≤ (8 : BitVec 4).toNat ∧ 8 ≤ (15 : BitVec 4).toNat := by decide

theorem witness_AcceptanceTable :
    accepts (.encBegin 2 2) (encoding red 1) = false ∧ accepts (.encPix 0 0 0) State.reset = false ∧
    accepts .encEnd State.reset = false ∧ accepts (.decBegin 8) (decoding containerX4 8 0 []) = false ∧
    accepts (.decRdpix 4) decodedX4 = false ∧
    (accepts (.rdReg 8) State.reset = true ∧
      exec (.rdReg 8) State.reset = .next { State.reset with proto := true, resp := .value 0 }) := by
  exact ⟨by decide, by decide, by decide, by decide, by decide, by decide, rfl⟩

theorem witness_NotEnabledMeansNothing :
    State.reset.decPhase ≠ .body ∧ accepts (.run 1 2 3 4) State.reset = false ∧
    accepts (.run 1 2 3 4) (decoding containerX4 16 4 []) = false ∧ (decoding containerX4 16 4 []).decPhase = .body := by
  decide

/-- A state no run reaches: `rd_off` two bytes below `rd_len`. -/
theorem witness_FetchStopsOnlyOutOfRange :
    (decoding containerX4 14 4 []).decPhase = .body ∧
    (decoding containerX4 14 4 []).rdLen.toNat < (decoding containerX4 14 4 []).rdOff.toNat + 4 ∧
    (decoding containerX4 14 4 []).rdOff ≠ (decoding containerX4 14 4 []).rdLen := by decide

theorem witness_CausesRaisedOnlyBy :
    (∃ t, exec (.decBegin 0) State.reset = .next t ∧ t.decErr = .formatError ∧ State.reset.decErr ≠ .formatError) ∧
    (∃ t, exec .decStep (decoding containerX3 12 3 []) = .next t ∧ t.decErr = .outOfBounds ∧
      (decoding containerX3 12 3 []).decErr ≠ .outOfBounds) ∧
    (∃ t, exec (.decBegin 0) (failing State.reset) = .next t ∧ t.decErr = .ioError ∧
      (failing State.reset).decErr ≠ .ioError) ∧
    (∃ t, exec .encEnd (failing (encoding red 0)) = .next t ∧ t.encErr = .ioError ∧
      (failing (encoding red 0)).encErr ≠ .ioError) :=
  ⟨⟨_, rfl, rfl, by decide⟩, ⟨_, rfl, rfl, by decide⟩, ⟨_, rfl, rfl, by decide⟩, ⟨_, rfl, rfl, by decide⟩⟩

theorem witness_FaultEntry :
    (∃ t, exec (.encBegin 2 2) (failing State.reset) = .next t ∧ t.encPhase = .fault ∧
      (failing State.reset).encPhase ≠ .fault) ∧
    (∃ t, exec .decStep (decoding containerX3 12 3 []) = .next t ∧ t.decPhase = .fault ∧
      (decoding containerX3 12 3 []).decPhase ≠ .fault ∧ t.decErr ≠ .formatError) ∧
    (∃ t, exec (.decBegin 0) State.reset = .next t ∧ t.decPhase = .fault ∧ State.reset.decPhase ≠ .fault ∧
      t.decErr = .formatError) :=
  ⟨⟨_, rfl, rfl, by decide⟩, ⟨_, rfl, rfl, by decide, by decide⟩, ⟨_, rfl, rfl, by decide, rfl⟩⟩

theorem witness_FaultIsTerminal :
    (failedEncode.encPhase = .fault ∧ ioGood failedEncode = true) ∧
    (overflowedX3.decPhase = .fault ∧ (16 : Cnt).toNat = overflowedX3.cinLen ∧ ioGood overflowedX3 = true ∧
      rdCheck overflowedX3.par.pixbufCap 16 (overflowedX3.cin.readBytes 0 8) = .ok (2, 2, 4)) := by decide

theorem witness_PathFrames :
    (onEncodePath (.encPix 0 0 0) = true ∧ accepts (.encPix 0 0 0) (encoding red 255) = true ∧
      ∃ t, exec (.encPix 0 0 0) (encoding red 255) = .next t) ∧
    (onDecodePath .decStep = true ∧ accepts .decStep (decoding containerX4 12 3 []) = true ∧
      ∃ t, exec .decStep (decoding containerX4 12 3 []) = .next t) :=
  ⟨⟨by decide, by decide, _, rfl⟩, by decide, by decide, _, rfl⟩

theorem witness_EncodeWritesFrame :
    memoriesWf (encoding red 255) = true ∧ memoriesWf State.reset = true ∧
    (∃ t, exec (.encBegin 2 2) State.reset = .next t ∧ t.encPhase = .body ∧ State.reset.encPhase ≠ .body) ∧
    (∃ t, exec (.encBegin 2 2) (encoding red 255) = .next t ∧ (encoding red 255).encPhase = .body) ∧
    (∃ t, exec (.encPix 0 0 0) (encoding red 255) = .next t) ∧
    (∃ t, exec (.encPix 255 0 0) (encoding red 254) = .next t ∧
      (encPix (encoding red 254).encLast (encoding red 254).encRun ⟨255, 0, 0⟩).2.2 = none) ∧
    (∃ t, exec .encEnd (encoding red 255) = .next t) :=
  ⟨by decide, by decide, ⟨_, rfl, rfl, by decide⟩, ⟨_, rfl, rfl⟩, ⟨_, rfl⟩, ⟨_, rfl, by decide⟩, ⟨_, rfl⟩⟩

theorem witness_DecodeWritesFrame :
    memoriesWf (decoding containerX4 12 3 [(0, red), (1, red), (2, red)]) = true ∧
    (∃ t, exec .decStep (decoding containerX4 12 3 [(0, red), (1, red), (2, red)]) = .next t) ∧
    (∃ t, exec (.run 1 0 255 0) (decoding containerX4 12 3 [(0, red), (1, red), (2, red)]) = .next t) ∧
    (∃ t, exec .decStep (decoding containerX3 12 3 []) = .next t ∧ t.decPhase = .fault) :=
  ⟨by decide, ⟨_, rfl⟩, ⟨_, rfl⟩, ⟨_, rfl, rfl⟩⟩

/-- Reset with the container of vector X4 placed. -/
def reset16 : State := { State.reset with cin := containerX4, cinLen := 16 }

theorem witness_DecodeOpenFrame :
    (∃ t, exec (.decBegin 16) reset16 = .next t ∧
      accepts (.decBegin 16) reset16 = true ∧ t.decPhase = .body) ∧
    (∃ t, exec (.hdr 2 2) State.reset = .next t ∧ accepts (.hdr 2 2) State.reset = true ∧ t.decPhase = .body) ∧
    (∃ t, exec (.decBegin 8) (decoding containerX4 8 0 []) = .next t ∧
      accepts (.decBegin 8) (decoding containerX4 8 0 []) = false) :=
  ⟨⟨_, rfl, by decide, rfl⟩, ⟨_, rfl, by decide, rfl⟩, ⟨_, rfl, by decide⟩⟩

theorem witness_ReadsChangeNothing :
    (∃ t, exec (.decRdpix 3) decodedX4 = .next t) ∧ (∃ t, exec (.rdReg 15) { State.reset with proto := true } = .next t) :=
  ⟨⟨_, rfl⟩, ⟨_, rfl⟩⟩

theorem witness_PathsCommute :
    onEncodePath (.encPix 9 9 9) = true ∧ onDecodePath .decStep = true ∧
    ∃ s1 s2 s12 s21, exec (.encPix 9 9 9) running = .next s1 ∧ exec .decStep s1 = .next s12 ∧
      exec .decStep running = .next s2 ∧ exec (.encPix 9 9 9) s2 = .next s21 :=
  ⟨by decide, by decide, _, _, _, _, rfl, rfl, rfl, rfl⟩

theorem witness_PathsIsolated :
    sameInputs (encoding red 255) { encoding red 255 with decPhase := .done, decNpix := 4 } ∧
    sameEncodePath (encoding red 255) { encoding red 255 with decPhase := .done, decNpix := 4 } ∧
    sameDecodePath decodedX4 { decodedX4 with encPhase := .body, wrLen := 8 } ∧
    (∃ t, exec (.encPix 0 0 0) (encoding red 255) = .next t) ∧ ∃ t, exec (.decRdpix 3) decodedX4 = .next t :=
  ⟨by simp [sameInputs], by simp [sameEncodePath], by simp [sameDecodePath], ⟨_, rfl⟩, ⟨_, rfl⟩⟩

theorem witness_StepRunsDecodedCommand :
    (atPort 0x10000000200000002 true State.reset).host = .command 0x10000000200000002 true :: [] ∧
    decode (.command 0x10000000200000002) = .ok (.encBegin 2 2) := by decide

theorem witness_StepRunsDecodedRecord :
    (decoding containerX4 12 3 []).decPhase = .body ∧
    (decoding containerX4 12 3 []).rdOff.toNat + 4 ≤ (decoding containerX4 12 3 []).rdLen.toNat ∧
    decode (.record ((decoding containerX4 12 3 []).cin.readBytes (decoding containerX4 12 3 []).rdOff.toNat 4)) =
      .ok (.run 1 0 255 0) ∧
    (decoding containerX4 12 3 []).host = [] ∧
    ({ decoding containerX4 12 3 [] with host := [.decTurn] } : State).host = .decTurn :: [] := by decide

theorem witness_DecBeginRunsDecodedHeader :
    (fiveByFour 20).decPhase ≠ .body ∧ (8 : Cnt).toNat = (fiveByFour 20).cinLen ∧ ioGood (fiveByFour 20) = true ∧
    8 ≤ (8 : Cnt).toNat ∧ ((8 : Cnt).toNat - 8) % 4 = 0 ∧ decode (.header ((fiveByFour 20).cin.readBytes 0 8)) = .ok (.hdr 5 4) := by decide

theorem witness_StepWithoutCommand :
    (State.reset.host = [] ∧ State.reset.decPhase ≠ .body) ∧
    ({ running with host := [.decTurn] } : State).host = .decTurn :: [] := by decide

theorem witness_ResetValues : ({ running with host := [.reset] } : State).host = .reset :: [] := by decide

theorem witness_PlacingContainer :
    ({ State.reset with host := [.place [1, 2]] } : State).host = .place [1, 2] :: [] ∧ State.reset.decPhase ≠ .body ∧
    (running.cin.wf = true ∧
      running.rdLen.toNat ≤ ([2, 0, 0, 0, 2, 0, 0, 0, 1, 255, 0, 0, 3, 0, 255, 0] : List Byte).length ∧
      ∀ a < running.rdLen.toNat,
        running.cin.read a = ([2, 0, 0, 0, 2, 0, 0, 0, 1, 255, 0, 0, 3, 0, 255, 0] : List Byte).getD a 0) ∧
    (running.decPhase = .body ∧
      ([2, 0, 0, 0, 2, 0, 0, 0, 1, 255, 0, 0, 3, 0, 255] : List Byte).length < running.rdLen.toNat ∧
      12 < running.rdLen.toNat ∧ running.cin.read 12 ≠ ([1, 2] : List Byte).getD 12 0) ∧
    (State.reset.decPhase ≠ .body ∧ (1 : Cnt).toNat ≠ State.reset.cinLen) := by decide

/-- The invariant is met in the middle of two operations. -/
theorem witness_running_BlockInv : BlockInv running := by
  refine ⟨by decide, by unfold EncodeInv; decide, ?_, ?_, by unfold SlotsBounded; decide,
    by unfold ContainerPlaced; decide⟩
  · unfold DecodeInv decodeOpened; decide
  · intro _
    refine ⟨running.cin, fun _ _ _ => rfl, by decide, by decide, ?_, fun h => absurd h (by decide)⟩
    have hrec : recordsUpTo running.cin (recordIndex running.rdOff.toNat) = [⟨1, red⟩] := by decide
    intro i
    rw [hrec]
    cases i with
    | zero => decide
    | succ i => simp [running, decoding, PixelMemory.read, cellsGet, expandedSlot, expand, red]

theorem witness_StepKeepsInvariant : BlockInv running ∧ ∃ t, step running = .next t :=
  ⟨witness_running_BlockInv, _, rfl⟩

theorem witness_StepKeepsOutputCanonical :
    (memoriesWf running = true ∧ EncodeInv running ∧ OutputCanonical running) ∧
    ∃ t, step (atPort 0x20000000000090909 true running) = .next t :=
  ⟨⟨by decide, by unfold EncodeInv; decide, by unfold OutputCanonical; decide⟩, _, rfl⟩

theorem witness_BlockNeverHangs : BlockInv running := witness_running_BlockInv

theorem witness_PhaseEdges :
    (∃ t, step (decoding containerX4 16 4 []) = .next t ∧ (decoding containerX4 16 4 []).decPhase = .body ∧
      t.decPhase ≠ .body) ∧
    (∃ t, step (atPort 0x30000000000000000 true (encoding red 1)) = .next t ∧ (encoding red 1).encPhase = .body ∧
      t.encPhase = .done) ∧
    (∃ t, step (atPort 0x30000000000000000 false (encoding red 1)) = .next t ∧ (encoding red 1).encPhase = .body ∧
      t.encPhase ≠ .body) ∧ ∀ rest, (decoding containerX4 16 4 []).host ≠ .reset :: rest :=
  ⟨⟨_, rfl, rfl, by decide⟩, ⟨_, rfl, rfl, rfl⟩, ⟨_, rfl, rfl, by decide⟩, fun _ h => nomatch h⟩

theorem witness_ProtoSticky :
    (∃ t, step { running with proto := true } = .next t) ∧
    (∀ rest, ({ running with proto := true } : State).host ≠ .reset :: rest) :=
  ⟨⟨_, rfl⟩, fun _ h => nomatch h⟩

theorem witness_CoutNeverRewritten :
    memoriesWf (atPort 0x20000000000090909 true running) = true ∧
    (∃ t, step (atPort 0x20000000000090909 true running) = .next t ∧ t.encPhase ≠ .fault) ∧
    (∀ rest, (atPort 0x20000000000090909 true running).host ≠ .reset :: rest) ∧
    (atPort 0x20000000000090909 true running).encPhase = .body :=
  ⟨by decide, ⟨_, rfl, by decide⟩, (fun _ h => nomatch h), rfl⟩

theorem witness_CinReadsBounded :
    (running.decPhase = .body ∧ (∀ a < running.rdLen.toNat, (running.cin.write 16 9).read a = running.cin.read a) ∧
      ∃ t, exec .decStep running = .next t) ∧
    ((∀ a < (16 : Cnt).toNat, (reset16.cin.write 16 9).read a = reset16.cin.read a) ∧
      ∃ t, exec (.decBegin 16) reset16 = .next t) ∧
    (ContainerPlaced running ∧ (∀ a < running.cinLen, (running.cin.write 16 9).read a = running.cin.read a) ∧
      ∃ t, exec .decStep running = .next t) :=
  ⟨⟨rfl, by decide, _, rfl⟩, ⟨by decide, _, rfl⟩, by unfold ContainerPlaced; decide, by decide, _, rfl⟩

theorem witness_DecodeEnds : BlockInv running ∧ running.decPhase = .body := ⟨witness_running_BlockInv, rfl⟩

theorem witness_EncodeOperation :
    State.reset.encPhase ≠ .done ∧ State.reset.encPhase ≠ .body ∧ ioGood State.reset = true ∧ ([red, green] : List Pixel).length < 2 ^ 62 - 2 := by
  decide

theorem witness_EncodeDeterministic :
    State.reset.encPhase ≠ .body ∧ failedEncode.encPhase ≠ .body ∧ ioGood State.reset = true ∧
    ioGood failedEncode = true ∧ ([red, green] : List Pixel).length < 2 ^ 62 - 2 := by decide

/-- Reset with the container of vector X4, of four pixels, and a buffer that just holds them. -/
def placedX4 : State := capacity 4 reset16

theorem witness_DecodeOperation :
    placedX4.decPhase ≠ .body ∧ (16 : Cnt).toNat = placedX4.cinLen ∧ ioGood placedX4 = true ∧
    (2 : Dim).toNat * (2 : Dim).toNat ≤ placedX4.par.pixbufCap.toNat ∧
    totalLength [⟨3, red⟩, ⟨1, green⟩] ≤ (2 : Dim).toNat * (2 : Dim).toNat ∧
    (16 : Cnt).toNat = 8 + 4 * ([⟨3, red⟩, ⟨1, green⟩] : List Run).length ∧
    (∀ a < (16 : Cnt).toNat, placedX4.cin.read a = (containerBytes 2 2 [⟨3, red⟩, ⟨1, green⟩]).getD a 0) := by decide

/-- Reset with the container of vector X3. -/
def placedX3 : State := capacity 4 { State.reset with cin := containerX3, cinLen := 16 }

theorem witness_DecodeOverflow :
    placedX3.decPhase ≠ .body ∧ (16 : Cnt).toNat = placedX3.cinLen ∧ ioGood placedX3 = true ∧
    (2 : Dim).toNat * (2 : Dim).toNat ≤ placedX3.par.pixbufCap.toNat ∧
    totalLength [⟨3, red⟩] ≤ (2 : Dim).toNat * (2 : Dim).toNat ∧
    (2 : Dim).toNat * (2 : Dim).toNat < totalLength [⟨3, red⟩] + (2 : Byte).toNat ∧
    (16 : Cnt).toNat = 8 + 4 * (([⟨3, red⟩] : List Run) ++ (⟨2, green⟩ : Run) :: []).length ∧
    (∀ a < (16 : Cnt).toNat, placedX3.cin.read a = (containerBytes 2 2 ([⟨3, red⟩] ++ (⟨2, green⟩ : Run) :: [])).getD a 0) := by
  decide

theorem witness_RoundTrip :
    placedX4.encPhase ≠ .body ∧ placedX4.decPhase ≠ .body ∧ ioGood placedX4 = true ∧
    ([red, red, red, green] : List Pixel).length = (2 : Dim).toNat * (2 : Dim).toNat ∧
    ([red, red, red, green] : List Pixel).length < 2 ^ 62 - 2 ∧
    (2 : Dim).toNat * (2 : Dim).toNat ≤ placedX4.par.pixbufCap.toNat := by decide

end Sys2Proof.Machine.Tests
end

section
/-! PROOFS. The two paths (spec/00_scope.md R7): what a step of one leaves alone, that it depends on nothing of the other,
and that steps of the two commute. -/

namespace Sys2Proof.Machine

/-! ### States that agree on a path -/

theorem sameEncodePath.symm {s t : State} (h : sameEncodePath s t) : sameEncodePath t s := by
  simp_all only [sameEncodePath, and_self]

theorem sameEncodePath.trans {s t u : State} (h : sameEncodePath s t) (h' : sameEncodePath t u) :
    sameEncodePath s u := by
  simp_all only [sameEncodePath, and_self]

theorem sameDecodePath.symm {s t : State} (h : sameDecodePath s t) : sameDecodePath t s := by
  simp_all only [sameDecodePath, and_self]

theorem sameDecodePath.trans {s t u : State} (h : sameDecodePath s t) (h' : sameDecodePath t u) :
    sameDecodePath s u := by
  simp_all only [sameDecodePath, and_self]

theorem sameInputs.symm {s t : State} (h : sameInputs s t) : sameInputs t s := by
  simp_all only [sameInputs, and_self]

theorem sameInputs.trans {s t u : State} (h : sameInputs s t) (h' : sameInputs t u) : sameInputs s u := by
  simp_all only [sameInputs, and_self]

/-- The two paths, the inputs and `proto` are the whole state but for the response. -/
theorem withoutResponse_ext {s t : State} (henc : sameEncodePath s t) (hdec : sameDecodePath s t)
    (hin : sameInputs s t) (hproto : s.proto = t.proto) : withoutResponse s = withoutResponse t := by
  simp only [sameEncodePath, sameDecodePath, sameInputs] at henc hdec hin
  simp only [withoutResponse, henc, hdec, hin, hproto]

/-! ### The flag `proto` -/

/-- A host command has a command word (30_encoding R89). -/
def isHostCommand (i : Instr) : Bool :=
  match encode i with
  | .command _ => true
  | .header _ => false
  | .record _ => false
  | .turn => false

/-- A host command of a path sets `proto` exactly when it is not accepted (44_status_access R191); the autonomous step
and the container items never do. -/
def setsProto (i : Instr) (s : State) : Bool := isHostCommand i && !accepts i s

@[simp] theorem setsProto_encBegin (w h : Dim) (s : State) :
    setsProto (.encBegin w h) s = decide (s.encPhase = .body) := by
  simp [setsProto, isHostCommand, encode, accepts]

@[simp] theorem setsProto_encPix (r g b : Byte) (s : State) :
    setsProto (.encPix r g b) s = !decide (s.encPhase = .body) := rfl

@[simp] theorem setsProto_encEnd (s : State) : setsProto .encEnd s = !decide (s.encPhase = .body) := rfl

@[simp] theorem setsProto_decBegin (clen : Cnt) (s : State) :
    setsProto (.decBegin clen) s = decide (s.decPhase = .body) := by
  simp [setsProto, isHostCommand, encode, accepts]

@[simp] theorem setsProto_decRdpix (idx : Cnt) (s : State) :
    setsProto (.decRdpix idx) s = !(decide (s.decPhase = .done) && decide (idx.toNat < s.decNpix.toNat)) := rfl

@[simp] theorem setsProto_decStep (s : State) : setsProto .decStep s = false := rfl

@[simp] theorem setsProto_hdr (w h : Dim) (s : State) : setsProto (.hdr w h) s = false := rfl

@[simp] theorem setsProto_run (len r g b : Byte) (s : State) : setsProto (.run len r g b) s = false := rfl

theorem setsProto_of_accepts {i : Instr} {s : State} (h : accepts i s = true) : setsProto i s = false := by
  simp [setsProto, h]

theorem setsProto_congr_encode {i : Instr} {s s' : State} (hi : onEncodePath i = true) (h : sameEncodePath s s') :
    setsProto i s = setsProto i s' := by
  obtain ⟨hphase, -⟩ := h
  cases i <;> simp_all [onEncodePath]

theorem setsProto_congr_decode {i : Instr} {s s' : State} (hi : onDecodePath i = true) (h : sameDecodePath s s') :
    setsProto i s = setsProto i s' := by
  obtain ⟨hphase, -, -, hnpix, -⟩ := h
  cases i <;> simp_all [onDecodePath]

/-! ### Frames -/

/-- A step of the encode path leaves the decode path and the inputs alone, and sets `proto` only when ignored. -/
theorem exec_encode_frame {i : Instr} {s t : State} (hi : onEncodePath i = true) (hx : exec i s = .next t) :
    sameDecodePath t s ∧ sameInputs t s ∧ t.proto = (s.proto || setsProto i s) := by
  cases i with
  | encBegin w h =>
    simp only [exec] at hx
    rcases execEncBegin_cases w h s with ⟨hp, e⟩ | ⟨hp, _, e⟩ | ⟨hp, _, e⟩
    all_goals rw [e] at hx; cases hx
    all_goals simp [sameDecodePath, sameInputs, hp]
  | encPix r g b =>
    simp only [exec] at hx
    rcases execEncPix_cases r g b s with ⟨hp, e⟩ | ⟨hp, _, _, e⟩ | ⟨hp, _, e⟩ | ⟨hp, _, _, _, e⟩ |
      ⟨hp, _, _, _, _, e⟩ | ⟨hp, _, _, _, _, e⟩
    all_goals rw [e] at hx; cases hx
    all_goals simp [sameDecodePath, sameInputs, hp]
  | encEnd =>
    simp only [exec] at hx
    rcases execEncEnd_cases s with ⟨hp, e⟩ | ⟨hp, _, e⟩ | ⟨hp, _, _, e⟩ | ⟨hp, _, _, _, e⟩ | ⟨hp, _, _, _, e⟩
    all_goals rw [e] at hx; cases hx
    all_goals simp [sameDecodePath, sameInputs, hp]
  | decBegin n => cases hi
  | decRdpix idx => cases hi
  | rdReg n => cases hi
  | decStep => cases hi
  | hdr w h => cases hi
  | run len r g b => cases hi

/-- A step of the decode path leaves the encode path and the inputs alone, and sets `proto` only when ignored. -/
theorem exec_decode_frame {i : Instr} {s t : State} (hi : onDecodePath i = true) (hx : exec i s = .next t) :
    sameEncodePath t s ∧ sameInputs t s ∧ t.proto = (s.proto || setsProto i s) := by
  cases i with
  | decBegin n =>
    simp only [exec] at hx
    rcases execDecBegin_cases n s with ⟨hp, e⟩ | ⟨_, _, e⟩ | ⟨hp, _, _, e⟩ | ⟨hp, _, _, _, e⟩ | ⟨hp, _, _, _, _, e⟩ |
      ⟨hp, _, _, _, _, e⟩
    case inr.inr.inr.inr.inr =>
      rw [e] at hx; cases hx
      obtain ⟨henc, hin, hproto, -⟩ := consumeHeader_frame (parHdr (s.cin.readBytes 0 8)).1
        (parHdr (s.cin.readBytes 0 8)).2 (openDecode n s)
      exact ⟨henc, hin, by simp [hproto, hp]⟩
    all_goals rw [e] at hx; cases hx
    all_goals simp [sameEncodePath, sameInputs, hp]
  | decRdpix idx =>
    simp only [exec] at hx
    rcases execDecRdpix_cases idx s with ⟨hp, hidx, e⟩ | ⟨hp, e⟩
    all_goals rw [e] at hx; cases hx
    · simp [sameEncodePath, sameInputs, hp, hidx]
    · simp [sameEncodePath, sameInputs, ← Bool.decide_and, hp]
  | decStep =>
    simp only [exec] at hx
    rcases execDecStep_cases s with ⟨_, e⟩ | ⟨_, _, e⟩ | ⟨_, _, e⟩ | ⟨_, _, _, e⟩
    all_goals rw [e] at hx; cases hx
    · simp [sameEncodePath, sameInputs]
    · obtain ⟨henc, hin, hproto, -⟩ := consumeRun_frame (parRec (s.cin.readBytes s.rdOff.toNat 4)) s
      exact ⟨henc, hin, by simp [hproto]⟩
    · simp [sameEncodePath, sameInputs]
  | hdr w h =>
    simp only [exec] at hx
    rcases execHdr_cases w h s with ⟨_, e⟩ | ⟨_, e⟩
    all_goals rw [e] at hx; cases hx
    · simp [sameEncodePath, sameInputs]
    · obtain ⟨henc, hin, hproto, -⟩ := consumeHeader_frame w h s
      exact ⟨henc, hin, by simp [hproto]⟩
  | run len r g b =>
    simp only [exec] at hx
    rcases execRun_cases len r g b s with ⟨_, e⟩ | ⟨_, _, e⟩
    all_goals rw [e] at hx; cases hx
    · simp [sameEncodePath, sameInputs]
    · obtain ⟨henc, hin, hproto, -⟩ := consumeRun_frame ⟨len, ⟨r, g, b⟩⟩ s
      exact ⟨henc, hin, by simp [hproto]⟩
  | encBegin w h => cases hi
  | encPix r g b => cases hi
  | encEnd => cases hi
  | rdReg n => cases hi

/-- Settles O34: the two frames, an accepted instruction setting no `proto`. -/
theorem pathFrames : Obligations.PathFrames := by
  unfold Obligations.PathFrames
  intro i s t hx
  have keeps : t.proto = (s.proto || setsProto i s) → accepts i s = true → t.proto = s.proto := by
    intro hproto hacc
    rw [hproto, setsProto_of_accepts hacc, Bool.or_false]
  constructor
  · intro hi
    obtain ⟨hdec, hin, hproto⟩ := exec_encode_frame hi hx
    exact ⟨hdec, hin, keeps hproto⟩
  · intro hi
    obtain ⟨henc, hin, hproto⟩ := exec_decode_frame hi hx
    exact ⟨henc, hin, keeps hproto⟩

/-! ### Isolation -/

/-- Two outcomes agree: both stop for the same reason, or both answer and their next states are related. -/
inductive OutcomesAgree (R : State → State → Prop) :
    Host.Outcome State Fault Refusal → Host.Outcome State Fault Refusal → Prop
  | next {t t' : State} (h : R t t') : OutcomesAgree R (.next t) (.next t')
  | fault (f : Fault) : OutcomesAgree R (.fault f) (.fault f)
  | refused (r : Refusal) : OutcomesAgree R (.refused r) (.refused r)

namespace OutcomesAgree

variable {R : State → State → Prop} {o o' p p' : Host.Outcome State Fault Refusal}

/-- Two outcomes that branch on one condition agree when their branches do. -/
theorem ite {c : Prop} [Decidable c] (ho : OutcomesAgree R o o') (hp : OutcomesAgree R p p') :
    OutcomesAgree R (if c then o else p) (if c then o' else p') := by
  split
  · exact ho
  · exact hp

theorem exists_next {t : State} (h : OutcomesAgree R o o') (ho : o = .next t) : ∃ t', o' = .next t' ∧ R t t' := by
  subst ho
  cases h with
  | next h => exact ⟨_, rfl, h⟩

end OutcomesAgree

theorem ioGood_congr {s s' : State} (h : sameInputs s s') : ioGood s = ioGood s' := by
  obtain ⟨-, -, hio, -, hpar⟩ := h
  rw [ioGood, ioGood, hio, hpar]

/-- The encode path and the response it gives. -/
def sameEncodeAnswer (t t' : State) : Prop := sameEncodePath t t' ∧ t.resp = t'.resp

section Encode

variable {s s' : State} (hpath : sameEncodePath s s')

include hpath

theorem coutFits_congr (n : Nat) : coutFits n s = coutFits n s' := by
  obtain ⟨-, -, -, hlen, -⟩ := hpath
  rw [coutFits, coutFits, hlen]

theorem encIoError_congr : sameEncodeAnswer (encIoError s) (encIoError s') := by
  obtain ⟨-, hlast, hrun, -, -, -, hfree⟩ := hpath
  simp [sameEncodeAnswer, sameEncodePath, hlast, hrun, hfree]

theorem appendCout_congr (bytes : List Byte) : sameEncodePath (appendCout bytes s) (appendCout bytes s') := by
  obtain ⟨hphase, hlast, hrun, hlen, herr, hcout, hfree⟩ := hpath
  simp [sameEncodePath, hphase, hlast, hrun, hlen, herr, hcout, hfree]

theorem openEncode_congr : sameEncodePath (openEncode s) (openEncode s') := by
  obtain ⟨hphase, hlast, -, -, -, -, hfree⟩ := hpath
  simp [sameEncodePath, hphase, hlast, hfree]

variable (hin : sameInputs s s')

include hin

theorem execEncBegin_congr (w h : Dim) :
    OutcomesAgree sameEncodeAnswer (execEncBegin w h s) (execEncBegin w h s') := by
  have hphase : s.encPhase = s'.encPhase := hpath.1
  obtain ⟨-, hlast, hrun, hlen, herr, hcout, hfree⟩ := appendCout_congr (openEncode_congr hpath) (serHdr w h)
  rw [execEncBegin, execEncBegin, hphase, ioGood_congr hin]
  exact .ite (.next ⟨hpath, rfl⟩) <| .ite (.next (encIoError_congr (openEncode_congr hpath))) <|
    .next ⟨⟨rfl, hlast, hrun, hlen, herr, hcout, hfree⟩, rfl⟩

theorem execEncPix_congr (r g b : Byte) :
    OutcomesAgree sameEncodeAnswer (execEncPix r g b s) (execEncPix r g b s') := by
  have ⟨hphase, hlast, hrun, hlen, herr, hcout, hfree⟩ := hpath
  rw [execEncPix, execEncPix, hphase, hlast, hrun, ioGood_congr hin, coutFits_congr hpath]
  refine .ite (.next ⟨hpath, rfl⟩) ?_
  obtain ⟨last, run, out⟩ := encPix s'.encLast s'.encRun ⟨r, g, b⟩
  cases out with
  | none => exact .next ⟨⟨rfl, rfl, rfl, hlen, herr, hcout, hfree⟩, rfl⟩
  | some out =>
    obtain ⟨hphase, -, -, hlen, herr, hcout, hfree⟩ := appendCout_congr hpath (serRec out)
    exact .ite (.next (encIoError_congr hpath)) <| .ite (.refused _) <|
      .next ⟨⟨hphase, rfl, rfl, hlen, herr, hcout, hfree⟩, rfl⟩

theorem execEncEnd_congr : OutcomesAgree sameEncodeAnswer (execEncEnd s) (execEncEnd s') := by
  have ⟨hphase, hlast, hrun, hlen, herr, hcout, hfree⟩ := hpath
  rw [execEncEnd, execEncEnd, hphase, hlast, hrun, ioGood_congr hin, coutFits_congr hpath]
  refine .ite (.next ⟨hpath, rfl⟩) <| .ite (.next (encIoError_congr hpath)) ?_
  obtain ⟨run, out⟩ := encFlush s'.encLast s'.encRun
  cases out with
  | none => exact .next ⟨⟨rfl, rfl, rfl, hlen, herr, hcout, hfree⟩, rfl⟩
  | some out =>
    obtain ⟨-, hlast, -, hlen, herr, hcout, hfree⟩ := appendCout_congr hpath (serRec out)
    exact .ite (.refused _) <| .next ⟨⟨rfl, hlast, rfl, hlen, herr, hcout, hfree⟩, rfl⟩

/-- What an instruction of the encode path does to it depends on nothing of the decode path. -/
theorem exec_encode_congr {i : Instr} (hi : onEncodePath i = true) :
    OutcomesAgree sameEncodeAnswer (exec i s) (exec i s') := by
  cases i with
  | encBegin w h => exact execEncBegin_congr hpath hin w h
  | encPix r g b => exact execEncPix_congr hpath hin r g b
  | encEnd => exact execEncEnd_congr hpath hin
  | decBegin n => cases hi
  | decRdpix idx => cases hi
  | rdReg n => cases hi
  | decStep => cases hi
  | hdr w h => cases hi
  | run len r g b => cases hi

end Encode

section Decode

variable {s s' : State} (hpath : sameDecodePath s s')

include hpath

theorem recordReady_congr : recordReady s = recordReady s' := by
  obtain ⟨-, -, -, -, -, hoff, hlen, -⟩ := hpath
  rw [recordReady, recordReady, hoff, hlen]

theorem pixelReadable_congr (idx : Cnt) : pixelReadable idx s = pixelReadable idx s' := by
  obtain ⟨hphase, -, -, hnpix, -⟩ := hpath
  rw [pixelReadable, pixelReadable, hphase, hnpix]

theorem openDecode_congr (clen : Cnt) : sameDecodePath (openDecode clen s) (openDecode clen s') := by
  obtain ⟨hphase, -, -, -, -, -, -, -, -, hbuf, hfree⟩ := hpath
  simp [sameDecodePath, hphase, hbuf, hfree]

theorem decBeginFault_congr (cause : Cause) (sub : SubReason) :
    sameDecodePath (decBeginFault cause sub s) (decBeginFault cause sub s') := by
  obtain ⟨-, hw, hh, hnpix, hcur, hoff, hlen, -, -, -, hfree⟩ := hpath
  simp [sameDecodePath, hw, hh, hnpix, hcur, hoff, hlen, hfree]

theorem consumeRun_congr (run : Run) : sameDecodePath (consumeRun run s) (consumeRun run s') := by
  obtain ⟨hphase, hw, hh, hnpix, hcur, hoff, hlen, herr, hsub, hbuf, hfree⟩ := hpath
  rw [consumeRun, consumeRun, hnpix, hcur, hbuf]
  cases decRun s'.decCursor s'.decNpix run s'.pixbuf with
  | none => simp [sameDecodePath, hw, hh, hnpix, hcur, hoff, hlen, hbuf, hfree]
  | some out => simp [sameDecodePath, hphase, hw, hh, hoff, hlen, herr, hsub, hfree]

theorem execDecRdpix_congr (idx : Cnt) :
    OutcomesAgree sameDecodePath (execDecRdpix idx s) (execDecRdpix idx s') := by
  rw [execDecRdpix, execDecRdpix, pixelReadable_congr hpath]
  exact .ite (.next hpath) (.next hpath)

theorem execRun_congr (len r g b : Byte) :
    OutcomesAgree sameDecodePath (execRun len r g b s) (execRun len r g b s') := by
  have hphase : s.decPhase = s'.decPhase := hpath.1
  rw [execRun, execRun, hphase, recordReady_congr hpath]
  exact .ite (.next (consumeRun_congr hpath _)) (.next hpath)

theorem consumeHeader_congr (hpar : s.par = s'.par) (w h : Dim) :
    sameDecodePath (consumeHeader w h s) (consumeHeader w h s') := by
  obtain ⟨hphase, -, -, -, hcur, hoff, hlen, herr, hsub, hbuf, hfree⟩ := hpath
  simp only [consumeHeader, hpar]
  split
  · refine decBeginFault_congr ?_ _ _
    exact ⟨hphase, rfl, rfl, rfl, hcur, hoff, hlen, herr, hsub, hbuf, hfree⟩
  · exact ⟨rfl, rfl, rfl, rfl, rfl, rfl, hlen, herr, hsub, rfl, hfree⟩

theorem execHdr_congr (hpar : s.par = s'.par) (w h : Dim) :
    OutcomesAgree sameDecodePath (execHdr w h s) (execHdr w h s') := by
  have hphase : s.decPhase = s'.decPhase := hpath.1
  rw [execHdr, execHdr, hphase]
  exact .ite (.next hpath) (.next (consumeHeader_congr hpath hpar w h))

variable (hin : sameInputs s s')

include hin

theorem execDecStep_congr : OutcomesAgree sameDecodePath (execDecStep s) (execDecStep s') := by
  have ⟨hphase, hw, hh, hnpix, hcur, hoff, hlen, herr, hsub, hbuf, hfree⟩ := hpath
  have hcin : s.cin = s'.cin := hin.1
  rw [execDecStep, execDecStep, fetchRecord, fetchRecord, recordReady_congr hpath, hphase, hcin, hoff, hlen]
  exact .ite (.next hpath) <| .ite (.next (consumeRun_congr hpath _)) <|
    .ite (.next ⟨rfl, hw, hh, hnpix, hcur, rfl, rfl, herr, hsub, hbuf, hfree⟩) (.fault _)

theorem execDecBegin_congr (clen : Cnt) :
    OutcomesAgree sameDecodePath (execDecBegin clen s) (execDecBegin clen s') := by
  have hphase : s.decPhase = s'.decPhase := hpath.1
  have ⟨hcin, hcinLen, _, _, hpar⟩ := hin
  have hopen := openDecode_congr hpath clen
  rw [execDecBegin, execDecBegin, fetchHeader, fetchHeader, lengthTrue, lengthTrue, ioGood_congr hin, hphase, hcin,
    hcinLen]
  exact .ite (.next hpath) <| .ite (.refused _) <| .ite (.next (decBeginFault_congr hopen _ _)) <|
    .ite (.next (decBeginFault_congr hopen _ _)) <| .ite (.next (decBeginFault_congr hopen _ _)) <|
      .next (consumeHeader_congr hopen hpar _ _)

/-- What an instruction of the decode path does to it depends on nothing of the encode path. -/
theorem exec_decode_congr {i : Instr} (hi : onDecodePath i = true) :
    OutcomesAgree sameDecodePath (exec i s) (exec i s') := by
  have ⟨_, _, _, _, hpar⟩ := hin
  cases i with
  | decBegin n => exact execDecBegin_congr hpath hin n
  | decRdpix idx => exact execDecRdpix_congr hpath idx
  | decStep => exact execDecStep_congr hpath hin
  | hdr w h => exact execHdr_congr hpath hpar w h
  | run len r g b => exact execRun_congr hpath len r g b
  | encBegin w h => cases hi
  | encPix r g b => cases hi
  | encEnd => cases hi
  | rdReg n => cases hi

end Decode

/-- Settles O40: each path's outcomes agree from states that agree on the path and the inputs. -/
theorem pathsIsolated : Obligations.PathsIsolated := by
  unfold Obligations.PathsIsolated
  intro i s s' t hin hx
  exact ⟨fun hi hpath => (exec_encode_congr hpath hin hi).exists_next hx,
    fun hi hpath => (exec_decode_congr hpath hin hi).exists_next hx⟩

/-! ### Commutation -/

/-- Settles O39: by the frames each step finds its own path as the other order does, and by isolation it leaves its path
the same; `proto` is the disjunction of what the two set. -/
theorem pathsCommute : Obligations.PathsCommute := by
  unfold Obligations.PathsCommute
  intro i j s s1 s2 s12 s21 hi hj hx1 hx12 hx2 hx21
  obtain ⟨hdec1, hin1, hproto1⟩ := exec_encode_frame hi hx1
  obtain ⟨henc12, hin12, hproto12⟩ := exec_decode_frame hj hx12
  obtain ⟨henc2, hin2, hproto2⟩ := exec_decode_frame hj hx2
  obtain ⟨hdec21, hin21, hproto21⟩ := exec_encode_frame hi hx21
  obtain ⟨_, hx21', henc, -⟩ := (exec_encode_congr henc2.symm hin2.symm hi).exists_next hx1
  obtain ⟨_, hx12', hdec⟩ := (exec_decode_congr hdec1.symm hin1.symm hj).exists_next hx2
  cases hx21.symm.trans hx21'
  cases hx12.symm.trans hx12'
  refine withoutResponse_ext (henc12.trans henc) (hdec.symm.trans hdec21.symm)
    (hin12.trans (hin1.trans (hin2.symm.trans hin21.symm))) ?_
  calc s12.proto
    _ = ((s.proto || setsProto i s) || setsProto j s) := by
      rw [hproto12, hproto1, setsProto_congr_decode hj hdec1]
    _ = ((s.proto || setsProto j s) || setsProto i s) := Bool.or_right_comm _ _ _
    _ = s21.proto := by rw [hproto21, hproto2, setsProto_congr_encode hi henc2]

end Sys2Proof.Machine
end

section
/-! PROOFS. The block never hangs (spec/00_scope.md R8): everything that can stop a step. -/

namespace Sys2Proof.Machine

/-- In D_BODY the offsets are congruent modulo 4, so that no record is cut short (10_state R39). -/
theorem DecodeInv.record_whole {s : State} (h : DecodeInv s) (hp : s.decPhase = .body) (hne : s.rdOff ≠ s.rdLen) :
    s.rdOff.toNat + 4 ≤ s.rdLen.toNat := by
  obtain ⟨-, -, -, -, -, -, hopened, -, -⟩ := h
  obtain ⟨hlen, hlen4, hoff, hle, hoff4, -, -⟩ := hopened (.inl hp)
  have hne' : s.rdOff.toNat ≠ s.rdLen.toNat := fun he => hne (BitVec.eq_of_toNat_eq he)
  simp only [Config.hdrLen, Config.recLen] at hlen hlen4 hoff hoff4
  omega

/-- The autonomous step of the decode path has a next state: no fetch is out of range. -/
theorem execDecStep_total {s : State} (h : DecodeInv s) : ∃ t, execDecStep s = .next t := by
  rcases execDecStep_cases s with ⟨_, e⟩ | ⟨_, _, e⟩ | ⟨_, _, e⟩ | ⟨hp, hlt, hne, _⟩
  case inr.inr.inr => exact absurd (h.record_whole hp hne) (by omega)
  all_goals exact ⟨_, e⟩

/-- An instruction answers a next state, or it is a record that no longer fits (93 U9) or a `DEC_BEGIN` of another
length than the container's (93 U15). -/
theorem exec_next_or_refused (i : Instr) {s : State} (hinv : DecodeInv s) :
    (∃ t, exec i s = .next t) ∨
    (exec i s = .refused .coutOverflow ∧ s.encPhase = .body ∧ coutFits 4 s = false) ∨
    (exec i s = .refused .lengthMismatch ∧ s.decPhase ≠ .body ∧
      ∃ clen, i = .decBegin clen ∧ clen.toNat ≠ s.cinLen) := by
  cases i with
  | encBegin w h =>
    rcases execEncBegin_cases w h s with ⟨_, e⟩ | ⟨_, _, e⟩ | ⟨_, _, e⟩
    all_goals exact .inl ⟨_, e⟩
  | encPix r g b =>
    rcases execEncPix_cases r g b s with ⟨_, e⟩ | ⟨_, _, _, e⟩ | ⟨_, _, e⟩ | ⟨_, _, _, _, e⟩ |
      ⟨hp, _, _, _, hfit, e⟩ | ⟨_, _, _, _, _, e⟩
    case inr.inr.inr.inr.inl => exact .inr (.inl ⟨e, hp, hfit⟩)
    all_goals exact .inl ⟨_, e⟩
  | encEnd =>
    rcases execEncEnd_cases s with ⟨_, e⟩ | ⟨_, _, e⟩ | ⟨_, _, _, e⟩ | ⟨hp, _, _, hfit, e⟩ | ⟨_, _, _, _, e⟩
    case inr.inr.inr.inl => exact .inr (.inl ⟨e, hp, hfit⟩)
    all_goals exact .inl ⟨_, e⟩
  | decBegin n =>
    rcases execDecBegin_cases n s with ⟨_, e⟩ | ⟨hp, hlen, e⟩ | ⟨_, _, _, e⟩ | ⟨_, _, _, _, e⟩ | ⟨_, _, _, _, _, e⟩ |
      ⟨_, _, _, _, _, e⟩
    case inr.inl => exact .inr (.inr ⟨e, hp, n, rfl, hlen⟩)
    all_goals exact .inl ⟨_, e⟩
  | decRdpix idx =>
    rcases execDecRdpix_cases idx s with ⟨_, _, e⟩ | ⟨_, e⟩
    all_goals exact .inl ⟨_, e⟩
  | rdReg n =>
    rcases execRdReg_cases n s with ⟨_, _, _, e⟩ | ⟨_, e⟩
    all_goals exact .inl ⟨_, e⟩
  | decStep => exact .inl (execDecStep_total hinv)
  | hdr w h =>
    rcases execHdr_cases w h s with ⟨_, e⟩ | ⟨_, e⟩
    all_goals exact .inl ⟨_, e⟩
  | run len r g b =>
    rcases execRun_cases len r g b s with ⟨_, e⟩ | ⟨_, _, e⟩
    all_goals exact .inl ⟨_, e⟩

/-! ### The step by the host's next event -/

theorem step_of_idle {s : State} (h : s.host = []) : step s = execDecStep s := by
  simp only [step, h]; rfl

theorem step_of_command {s : State} {cw : CmdWord} {ok : Bool} {rest : List HostEvent}
    (h : s.host = .command cw ok :: rest) : step s = stepCommand cw { s with host := rest, ioOk := ok } := by
  simp only [step, h]

theorem step_of_decTurn {s : State} {rest : List HostEvent} (h : s.host = .decTurn :: rest) :
    step s = execDecStep { s with host := rest } := by
  simp only [step, h]; rfl

theorem step_of_place {s : State} {bytes : List Byte} {rest : List HostEvent} (h : s.host = .place bytes :: rest) :
    step s = placeContainer bytes { s with host := rest } := by
  simp only [step, h]

theorem step_of_reset {s : State} {rest : List HostEvent} (h : s.host = .reset :: rest) :
    step s = .next (applyReset { s with host := rest }) := by
  simp only [step, h]

theorem stepCommand_of_ok {cw : CmdWord} {i : Instr} (h : decode (.command cw) = .ok i) (s : State) :
    stepCommand cw s = exec i s := by
  simp only [stepCommand, h]

theorem stepCommand_of_error {cw : CmdWord} {e : DecodeError} (h : decode (.command cw) = .error e) (s : State) :
    stepCommand cw s = .next (ignoreCommand s) := by
  simp only [stepCommand, h]

/-- Placing a container answers a next state, or the host has changed `CIN` in D_BODY. -/
theorem placeContainer_next_or_fault (bytes : List Byte) (s : State) :
    (∃ t, placeContainer bytes s = .next t) ∨
    (placeContainer bytes s = .fault .cinChanged ∧ s.decPhase = .body) := by
  unfold placeContainer
  split
  · next h => exact .inr ⟨rfl, h.1⟩
  · exact .inl ⟨_, rfl⟩

/-- Settles O50: by the host's next event. A command stops only as `exec_next_or_refused` says. -/
theorem blockNeverHangs : Obligations.BlockNeverHangs := by
  unfold Obligations.BlockNeverHangs
  intro s hinv
  obtain ⟨-, -, hdec, -⟩ := hinv
  cases hhost : s.host with
  | nil =>
    rw [step_of_idle hhost]
    exact .inl (execDecStep_total hdec)
  | cons event rest =>
    cases event with
    | command cw ok =>
      rw [step_of_command hhost]
      cases hd : decode (.command cw) with
      | error e =>
        rw [stepCommand_of_error hd]
        exact .inl ⟨_, rfl⟩
      | ok i =>
        rw [stepCommand_of_ok hd]
        rcases exec_next_or_refused i (s := { s with host := rest, ioOk := ok }) hdec with hnext | ⟨e, hp, hfit⟩ |
          ⟨e, hp, n, rfl, hlen⟩
        · exact .inl hnext
        · rw [← Bool.not_eq_true, coutFits_iff] at hfit
          exact .inr (.inl ⟨e, hp, Nat.le_of_not_lt hfit⟩)
        · exact .inr (.inr (.inr ⟨e, hp, cw, ok, rest, n, rfl, hd, hlen⟩))
    | decTurn =>
      rw [step_of_decTurn hhost]
      exact .inl (execDecStep_total (s := { s with host := rest }) hdec)
    | place bytes =>
      rw [step_of_place hhost]
      rcases placeContainer_next_or_fault bytes { s with host := rest } with hnext | ⟨e, hp⟩
      · exact .inl hnext
      · exact .inr (.inr (.inl ⟨e, hp, bytes, rest, rfl⟩))
    | reset =>
      rw [step_of_reset hhost]
      exact .inl ⟨_, rfl⟩

end Sys2Proof.Machine
end

section
/-! PROOFS. `STATUS` (spec/10_state.md R37): every field at its place, and the word as a number. -/

namespace Sys2Proof.Machine

/-- `STATUS` as a number: the weighted sum of its fields (10_state R37). -/
theorem statusWord_toNat (s : State) :
    (statusWord s).toNat = (phaseCode s.encPhase).toNat + 4 * (causeCode s.encErr).toNat +
      256 * (phaseCode s.decPhase).toNat + 1024 * (causeCode s.decErr).toNat + 8192 * (subCode s.decSub).toNat +
      65536 * s.proto.toNat := by
  have hword : (statusWord s).toNat = (0#47 ++ (BitVec.ofBool s.proto ++ (0#1 ++ (subCode s.decSub ++
    (causeCode s.decErr ++ (phaseCode s.decPhase ++ (0#3 ++ (causeCode s.encErr ++ phaseCode s.encPhase)))))))).toNat :=
    rfl
  simp only [hword, toNat_append_add, BitVec.toNat_ofBool, BitVec.toNat_zero]
  omega

/-- A field of `STATUS` by its place in the number. -/
theorem statusWord_field {s : State} {k n : Nat} {x : BitVec n} (h : (statusWord s).toNat / 2 ^ k % 2 ^ n = x.toNat) :
    (statusWord s).extractLsb' k n = x := by
  apply BitVec.eq_of_toNat_eq
  rw [toNat_field, h]

/-- Settles O27: each field is cut out of the weighted sum, in which no field reaches the next one's place. -/
theorem statusLayout : Obligations.StatusLayout := by
  unfold Obligations.StatusLayout
  refine ⟨⟨rfl, rfl, rfl, rfl⟩, ⟨rfl, rfl, rfl, rfl⟩, ⟨rfl, rfl, rfl, rfl⟩, fun s => ?_⟩
  have hencPhase := (phaseCode s.encPhase).isLt
  have hencErr := (causeCode s.encErr).isLt
  have hdecPhase := (phaseCode s.decPhase).isLt
  have hdecErr := (causeCode s.decErr).isLt
  have hdecSub := (subCode s.decSub).isLt
  have hproto := Bool.toNat_lt s.proto
  have hsum := statusWord_toNat s
  have hzero : ∀ n, (0 : BitVec n).toNat = 0 := fun n => BitVec.toNat_zero
  exact ⟨statusWord_field (by omega), statusWord_field (by omega), statusWord_field (by rw [hzero]; omega),
    statusWord_field (by omega), statusWord_field (by omega), statusWord_field (by omega),
    statusWord_field (by rw [hzero]; omega), statusWord_field (by rw [BitVec.toNat_ofBool]; omega),
    statusWord_field (by rw [hzero]; omega), hsum, rfl⟩

end Sys2Proof.Machine
end

section
/-! PROOFS. What an instruction does to each path's registers as a whole: the frames of the status reads, the paths of an
instruction, the flag `proto` (spec/10_state.md R36), and the writes of the decode path (R28 to R34). -/

namespace Sys2Proof.Machine

/-! ### The path of an instruction -/

/-- Every instruction belongs to one path, but for the status read (00_scope R7). -/
theorem path_cases (i : Instr) : onEncodePath i = true ∨ onDecodePath i = true ∨ ∃ n, i = .rdReg n := by
  cases i with
  | rdReg n => exact .inr (.inr ⟨n, rfl⟩)
  | encBegin w h => exact .inl rfl
  | encPix r g b => exact .inl rfl
  | encEnd => exact .inl rfl
  | decBegin n => exact .inr (.inl rfl)
  | decRdpix idx => exact .inr (.inl rfl)
  | decStep => exact .inr (.inl rfl)
  | hdr w h => exact .inr (.inl rfl)
  | run len r g b => exact .inr (.inl rfl)

/-- A command word decodes to a host command alone (30_encoding R89). -/
theorem isHostCommand_of_decode {cw : CmdWord} {i : Instr} (h : decode (.command cw) = .ok i) :
    isHostCommand i = true := by
  rcases decode_command_kinds h with ⟨_, _, rfl⟩ | ⟨_, _, _, rfl⟩ | rfl | ⟨_, rfl⟩ | ⟨_, rfl⟩ | ⟨_, rfl⟩ <;> rfl

/-! ### Frames -/

/-- A status read leaves both paths and the inputs alone and never clears `proto` (10_state R38). -/
theorem exec_rdReg_frame {n : BitVec 4} {s t : State} (hx : exec (.rdReg n) s = .next t) :
    sameEncodePath t s ∧ sameDecodePath t s ∧ sameInputs t s ∧ (s.proto = true → t.proto = true) := by
  simp only [exec] at hx
  rcases execRdReg_cases n s with ⟨_, _, _, e⟩ | ⟨_, e⟩
  all_goals rw [e] at hx; cases hx
  all_goals simp [sameEncodePath, sameDecodePath, sameInputs]

/-- A pixel read leaves the decode path alone (20_memory R60). -/
theorem exec_decRdpix_frame {idx : Cnt} {s t : State} (hx : exec (.decRdpix idx) s = .next t) :
    sameDecodePath t s := by
  simp only [exec] at hx
  rcases execDecRdpix_cases idx s with ⟨_, _, e⟩ | ⟨_, e⟩
  all_goals rw [e] at hx; cases hx
  all_goals simp [sameDecodePath]

/-- An instruction that is not of the encode path leaves it alone. -/
theorem exec_keeps_encodePath {i : Instr} {s t : State} (hi : onEncodePath i = false) (hx : exec i s = .next t) :
    sameEncodePath t s := by
  rcases path_cases i with henc | hdec | ⟨n, rfl⟩
  · exact absurd (hi.symm.trans henc) (by decide)
  · exact (exec_decode_frame hdec hx).1
  · exact (exec_rdReg_frame hx).1

/-- An instruction that is not of the decode path leaves it alone. -/
theorem exec_keeps_decodePath {i : Instr} {s t : State} (hi : onDecodePath i = false) (hx : exec i s = .next t) :
    sameDecodePath t s := by
  rcases path_cases i with henc | hdec | ⟨n, rfl⟩
  · exact (exec_encode_frame henc hx).1
  · exact absurd (hi.symm.trans hdec) (by decide)
  · exact (exec_rdReg_frame hx).2.1

/-- No instruction touches the inputs (10_state R35). -/
theorem exec_keeps_inputs {i : Instr} {s t : State} (hx : exec i s = .next t) : sameInputs t s := by
  rcases path_cases i with henc | hdec | ⟨n, rfl⟩
  · exact (exec_encode_frame henc hx).2.1
  · exact (exec_decode_frame hdec hx).2.1
  · exact (exec_rdReg_frame hx).2.2.1

/-! ### `proto` -/

/-- No instruction clears `proto` (10_state R36). -/
theorem exec_keeps_proto {i : Instr} {s t : State} (hx : exec i s = .next t) (hp : s.proto = true) : t.proto = true := by
  rcases path_cases i with henc | hdec | ⟨n, rfl⟩
  · rw [(exec_encode_frame henc hx).2.2, hp, Bool.true_or]
  · rw [(exec_decode_frame hdec hx).2.2, hp, Bool.true_or]
  · exact (exec_rdReg_frame hx).2.2.2 hp

/-- Settles O52: by what the step did; an instruction keeps `proto`, an ignored command sets it, placing a container
leaves it. -/
theorem protoSticky : Obligations.ProtoSticky := by
  unfold Obligations.ProtoSticky
  intro s t hstep hreset hp
  rcases step_cases hstep with ⟨_, _, _, _, _, _, hx⟩ | ⟨_, _, _, _, _, _, rfl⟩ | ⟨_, hx⟩ | ⟨_, _, _, _, rfl⟩ |
    ⟨rest, hhost, _⟩
  · exact exec_keeps_proto hx hp
  · rfl
  · exact exec_keeps_proto hx hp
  · exact hp
  · exact absurd hhost (hreset rest)

/-! ### What `DEC_STEP` and `RUN` write -/

theorem memoriesWf_iff (s : State) :
    memoriesWf s = true ↔ s.cout.wf = true ∧ s.cin.wf = true ∧ s.pixbuf.wf = true := by
  simp [memoriesWf, and_assoc]

/-- `DEC_STEP` and `RUN` find nothing to do, or consume a record in D_BODY, or end the operation (43_decoder R173, R174). -/
theorem exec_record_cases {i : Instr} {run : Run} {s t : State}
    (hi : i = .decStep ∧ run = parRec (s.cin.readBytes s.rdOff.toNat 4) ∨
      i = .run run.len run.color.r run.color.g run.color.b)
    (hx : exec i s = .next t) :
    t = s ∨ s.decPhase = .body ∧ (t = consumeRun run s ∨ t = { s with decPhase := .done }) := by
  rcases hi with ⟨rfl, rfl⟩ | rfl
  · simp only [exec] at hx
    rcases execDecStep_cases s with ⟨_, e⟩ | ⟨hp, _, e⟩ | ⟨hp, _, e⟩ | ⟨_, _, _, e⟩
    all_goals rw [e] at hx; cases hx
    · exact .inl rfl
    · exact .inr ⟨hp, .inl rfl⟩
    · exact .inr ⟨hp, .inr rfl⟩
  · simp only [exec] at hx
    rcases execRun_cases run.len run.color.r run.color.g run.color.b s with ⟨_, e⟩ | ⟨hp, _, e⟩
    all_goals rw [e] at hx; cases hx
    · exact .inl rfl
    · exact .inr ⟨hp, .inl rfl⟩

/-- Settles O36: a record that does not fit writes the cause alone; one that fits moves `rd_off` and fills its slots. -/
theorem decodeWritesFrame : Obligations.DecodeWritesFrame := by
  unfold Obligations.DecodeWritesFrame
  intro i run s t hw hi hx
  obtain ⟨-, -, hbuf⟩ := (memoriesWf_iff s).1 hw
  rcases exec_record_cases hi hx with rfl | ⟨hp, rfl | rfl⟩
  · simp
  · rcases consumeRun_cases run s with ⟨_, e⟩ | ⟨_, e⟩ <;> rw [e]
    · simp
    · have hmoved : s.rdOff + 4 ≠ s.rdOff := by bv_omega
      have hslots : ∀ x, x < s.decCursor.toNat ∨ s.decCursor.toNat + run.len.toNat ≤ x →
          (s.pixbuf.fill run.color s.decCursor.toNat run.len.toNat).read x = s.pixbuf.read x := by
        intro x hx
        rw [PixelMemory.read_fill _ _ _ _ _ hbuf, if_neg (by omega)]
      refine ⟨rfl, rfl, rfl, rfl, rfl, rfl, rfl, .inl ⟨rfl, rfl⟩, hslots, ?_⟩
      rintro (hfault | hstays)
      · exact absurd (hp.symm.trans hfault) (by decide)
      · exact absurd hstays hmoved
  · simp

/-! ### What `DEC_BEGIN` and `HDR` write -/

/-- Executing a header ends in D_BODY with an empty buffer, or in D_FAULT (42_container_reader R154, 43_decoder R171). -/
theorem consumeHeader_phase (w h : Dim) (s : State) :
    (consumeHeader w h s).decPhase = .body ∧ (consumeHeader w h s).pixbuf = [] ∨
      (consumeHeader w h s).decPhase = .fault := by
  rcases consumeHeader_cases w h s with ⟨_, e⟩ | ⟨_, e⟩ <;> rw [e]
  · exact .inr rfl
  · exact .inl ⟨rfl, rfl⟩

/-- `DEC_BEGIN` and `HDR` have their effect outside D_BODY (44_status_access R191). -/
theorem accepts_opening_iff {i : Instr} (hi : (∃ n, i = .decBegin n) ∨ (∃ w h, i = .hdr w h)) (s : State) :
    accepts i s = true ↔ s.decPhase ≠ .body := by
  rcases hi with ⟨n, rfl⟩ | ⟨w, h, rfl⟩ <;> simp [accepts]

/-- `DEC_BEGIN` and `HDR` in D_BODY leave the decode path alone; elsewhere they create the buffer or fault. -/
theorem exec_open_cases {i : Instr} {s t : State} (hi : (∃ n, i = .decBegin n) ∨ (∃ w h, i = .hdr w h))
    (hx : exec i s = .next t) :
    (s.decPhase = .body ∧ sameDecodePath t s) ∨
    (s.decPhase ≠ .body ∧ (t.decPhase = .body ∧ t.pixbuf = [] ∨ t.decPhase = .fault)) := by
  rcases hi with ⟨n, rfl⟩ | ⟨w, h, rfl⟩
  · simp only [exec] at hx
    rcases execDecBegin_cases n s with ⟨hp, e⟩ | ⟨_, _, e⟩ | ⟨hp, _, _, e⟩ | ⟨hp, _, _, _, e⟩ | ⟨hp, _, _, _, _, e⟩ |
      ⟨hp, _, _, _, _, e⟩
    all_goals rw [e] at hx; cases hx
    · exact .inl ⟨hp, by simp [sameDecodePath]⟩
    · exact .inr ⟨hp, .inr rfl⟩
    · exact .inr ⟨hp, .inr rfl⟩
    · exact .inr ⟨hp, .inr rfl⟩
    · exact .inr ⟨hp, consumeHeader_phase _ _ _⟩
  · simp only [exec] at hx
    rcases execHdr_cases w h s with ⟨hp, e⟩ | ⟨hp, e⟩
    all_goals rw [e] at hx; cases hx
    · exact .inl ⟨hp, by simp [sameDecodePath]⟩
    · exact .inr ⟨hp, consumeHeader_phase _ _ _⟩

/-- Settles O37: the frame of the decode path, and what an accepted opening ends in. -/
theorem decodeOpenFrame : Obligations.DecodeOpenFrame := by
  unfold Obligations.DecodeOpenFrame
  intro i s t hi hx
  have hdec : onDecodePath i = true := by rcases hi with ⟨_, rfl⟩ | ⟨_, _, rfl⟩ <;> rfl
  obtain ⟨henc, hin, hproto⟩ := exec_decode_frame hdec hx
  refine ⟨henc, hin, ?_⟩
  have haccepts := accepts_opening_iff hi s
  rcases exec_open_cases hi hx with ⟨hp, hsame⟩ | ⟨hp, hphase⟩
  · exact ⟨fun hacc => absurd hp (haccepts.1 hacc), fun _ => hsame⟩
  · have hacc : accepts i s = true := haccepts.2 hp
    rw [hproto, setsProto_of_accepts hacc, Bool.or_false]
    refine ⟨fun _ => ⟨rfl, ?_⟩, fun hnot => absurd (hacc.symm.trans hnot) (by decide)⟩
    rcases hphase with ⟨hbody, hbuf⟩ | hfault
    · exact ⟨.inl hbody, fun _ x => by rw [hbuf]; rfl⟩
    · exact ⟨.inr hfault, fun hbody => absurd (hfault.symm.trans hbody) (by decide)⟩

end Sys2Proof.Machine
end

section
/-! PROOFS. The edges of the phase registers (spec/10_state.md R43). -/

namespace Sys2Proof.Machine

/-! ### Edges -/

theorem phaseEdge_self (p : Phase) : phaseEdge p p = true := by cases p <;> rfl

/-- Every phase has an edge to BODY: a BEGIN that is accepted, or BODY kept. -/
theorem phaseEdge_body (p : Phase) : phaseEdge p .body = true := by cases p <;> rfl

/-- Every phase has an edge to FAULT (60_exceptions R206). -/
theorem phaseEdge_fault (p : Phase) : phaseEdge p .fault = true := by cases p <;> rfl

/-! ### The encode path -/

/-- Everything an instruction can do to `enc_phase`: only the encode path's own move it, and only `ENC_END` to E_DONE. -/
theorem exec_encPhase_cases {i : Instr} {s t : State} (hx : exec i s = .next t) :
    t.encPhase = s.encPhase ∨
    onEncodePath i = true ∧ (t.encPhase = .body ∧ s.encPhase ≠ .body ∨ t.encPhase = .fault ∨
      t.encPhase = .done ∧ s.encPhase = .body ∧ i = .encEnd) := by
  by_cases hi : onEncodePath i = true
  case neg => exact .inl (exec_keeps_encodePath (Bool.eq_false_of_not_eq_true hi) hx).1
  cases i with
  | encBegin w h =>
    simp only [exec] at hx
    rcases execEncBegin_cases w h s with ⟨_, e⟩ | ⟨_, _, e⟩ | ⟨hp, _, e⟩
    all_goals rw [e] at hx; cases hx
    · exact .inl rfl
    · exact .inr ⟨rfl, .inr (.inl rfl)⟩
    · exact .inr ⟨rfl, .inl ⟨rfl, hp⟩⟩
  | encPix r g b =>
    simp only [exec] at hx
    rcases execEncPix_cases r g b s with ⟨_, e⟩ | ⟨_, _, _, e⟩ | ⟨_, _, e⟩ | ⟨_, _, _, _, e⟩ | ⟨_, _, _, _, _, e⟩ |
      ⟨_, _, _, _, _, e⟩
    all_goals rw [e] at hx; cases hx
    · exact .inl rfl
    · exact .inl rfl
    · exact .inl rfl
    · exact .inr ⟨rfl, .inr (.inl rfl)⟩
    · exact .inl rfl
  | encEnd =>
    simp only [exec] at hx
    rcases execEncEnd_cases s with ⟨_, e⟩ | ⟨_, _, e⟩ | ⟨hp, _, _, e⟩ | ⟨_, _, _, _, e⟩ | ⟨hp, _, _, _, e⟩
    all_goals rw [e] at hx; cases hx
    · exact .inl rfl
    · exact .inr ⟨rfl, .inr (.inl rfl)⟩
    · exact .inr ⟨rfl, .inr (.inr ⟨rfl, hp, rfl⟩)⟩
    · exact .inr ⟨rfl, .inr (.inr ⟨rfl, hp, rfl⟩)⟩
  | decBegin n => cases hi
  | decRdpix idx => cases hi
  | rdReg n => cases hi
  | decStep => cases hi
  | hdr w h => cases hi
  | run len r g b => cases hi

theorem exec_encPhase_edge {i : Instr} {s t : State} (hx : exec i s = .next t) :
    phaseEdge s.encPhase t.encPhase = true := by
  rcases exec_encPhase_cases hx with e | ⟨-, ⟨e, -⟩ | e | ⟨e, hp, -⟩⟩
  · rw [e, phaseEdge_self]
  · rw [e, phaseEdge_body]
  · rw [e, phaseEdge_fault]
  · rw [e, hp]; rfl

/-- E_BODY is left by the encode path's own instructions. -/
theorem onEncodePath_of_leaves_body {i : Instr} {s t : State} (hx : exec i s = .next t) (hp : s.encPhase = .body)
    (hleft : t.encPhase ≠ .body) : onEncodePath i = true := by
  rcases exec_encPhase_cases hx with e | ⟨hi, -⟩
  · exact absurd (e.trans hp) hleft
  · exact hi

/-- E_BODY is left to E_DONE by `ENC_END` alone (41_container_writer R135). -/
theorem eq_encEnd_of_done {i : Instr} {s t : State} (hx : exec i s = .next t) (hp : s.encPhase = .body)
    (hdone : t.encPhase = .done) : i = .encEnd := by
  rcases exec_encPhase_cases hx with e | ⟨-, ⟨e, -⟩ | e | ⟨-, -, hi⟩⟩
  · exact absurd ((e.trans hp).symm.trans hdone) (by decide)
  · exact absurd (e.symm.trans hdone) (by decide)
  · exact absurd (e.symm.trans hdone) (by decide)
  · exact hi

/-! ### The decode path -/

/-- A record keeps `dec_phase` or raises OutOfBoundsError. -/
theorem consumeRun_phase (run : Run) (s : State) :
    (consumeRun run s).decPhase = s.decPhase ∨ (consumeRun run s).decPhase = .fault := by
  rcases consumeRun_cases run s with ⟨_, e⟩ | ⟨_, e⟩ <;> rw [e]
  · exact .inr rfl
  · exact .inl rfl

/-- An opening moves `dec_phase` only outside D_BODY, and then to D_BODY or D_FAULT (42_container_reader R154). -/
theorem exec_open_decPhase {i : Instr} {s t : State} (hi : (∃ n, i = .decBegin n) ∨ (∃ w h, i = .hdr w h))
    (hx : exec i s = .next t) :
    t.decPhase = s.decPhase ∨ s.decPhase ≠ .body ∧ (t.decPhase = .body ∨ t.decPhase = .fault) := by
  rcases exec_open_cases hi hx with ⟨-, hsame⟩ | ⟨hp, ⟨hbody, -⟩ | hfault⟩
  · exact .inl hsame.1
  · exact .inr ⟨hp, .inl hbody⟩
  · exact .inr ⟨hp, .inr hfault⟩

/-- `DEC_STEP` and `RUN` move `dec_phase` only in D_BODY, and then to D_DONE or D_FAULT (43_decoder R173, R174). -/
theorem exec_record_decPhase {i : Instr} {run : Run} {s t : State}
    (hi : i = .decStep ∧ run = parRec (s.cin.readBytes s.rdOff.toNat 4) ∨
      i = .run run.len run.color.r run.color.g run.color.b)
    (hx : exec i s = .next t) :
    t.decPhase = s.decPhase ∨ s.decPhase = .body ∧ (t.decPhase = .done ∨ t.decPhase = .fault) := by
  rcases exec_record_cases hi hx with rfl | ⟨hp, rfl | rfl⟩
  · exact .inl rfl
  · exact (consumeRun_phase run s).imp_right fun hfault => ⟨hp, .inr hfault⟩
  · exact .inr ⟨hp, .inl rfl⟩

/-- Everything an instruction can do to `dec_phase`: an opening moves it outside D_BODY, and in D_BODY it is moved by no
host command. -/
theorem exec_decPhase_cases {i : Instr} {s t : State} (hx : exec i s = .next t) :
    t.decPhase = s.decPhase ∨
    s.decPhase ≠ .body ∧ (t.decPhase = .body ∨ t.decPhase = .fault) ∨
    s.decPhase = .body ∧ isHostCommand i = false ∧ (t.decPhase = .done ∨ t.decPhase = .fault) := by
  by_cases hi : onDecodePath i = true
  case neg => exact .inl (exec_keeps_decodePath (Bool.eq_false_of_not_eq_true hi) hx).1
  cases i with
  | decBegin n => exact (exec_open_decPhase (.inl ⟨n, rfl⟩) hx).imp_right .inl
  | hdr w h => exact (exec_open_decPhase (.inr ⟨w, h, rfl⟩) hx).imp_right .inl
  | decRdpix idx => exact .inl (exec_decRdpix_frame hx).1
  | decStep => exact (exec_record_decPhase (.inl ⟨rfl, rfl⟩) hx).imp_right fun ⟨hp, hend⟩ => .inr ⟨hp, rfl, hend⟩
  | run len r g b =>
    have hrecord := exec_record_decPhase (run := ⟨len, ⟨r, g, b⟩⟩) (.inr rfl) hx
    exact hrecord.imp_right fun ⟨hp, hend⟩ => .inr ⟨hp, rfl, hend⟩
  | encBegin w h => cases hi
  | encPix r g b => cases hi
  | encEnd => cases hi
  | rdReg n => cases hi

theorem exec_decPhase_edge {i : Instr} {s t : State} (hx : exec i s = .next t) :
    phaseEdge s.decPhase t.decPhase = true := by
  rcases exec_decPhase_cases hx with e | ⟨-, e | e⟩ | ⟨hp, -, e | e⟩
  · rw [e, phaseEdge_self]
  · rw [e, phaseEdge_body]
  · rw [e, phaseEdge_fault]
  · rw [e, hp]; rfl
  · rw [e, phaseEdge_fault]

/-- No host command leaves D_BODY (44_status_access R191). -/
theorem hostCommand_keeps_decBody {i : Instr} {s t : State} (hi : isHostCommand i = true) (hx : exec i s = .next t)
    (hp : s.decPhase = .body) : t.decPhase = .body := by
  rcases exec_decPhase_cases hx with e | ⟨hne, -⟩ | ⟨-, hnot, -⟩
  · exact e.trans hp
  · exact absurd hp hne
  · exact absurd (hi.symm.trans hnot) (by decide)

/-- Settles O51: by what the step did; only an instruction moves a phase, and it does so along an edge. -/
theorem phaseEdges : Obligations.PhaseEdges := by
  unfold Obligations.PhaseEdges
  intro s t hstep hreset
  rcases step_cases hstep with ⟨cw, ok, rest, i, hhost, hd, hx⟩ | ⟨_, _, _, _, _, _, rfl⟩ | ⟨hturn, hx⟩ |
    ⟨_, _, _, _, rfl⟩ | ⟨rest, hhost, _⟩
  · have henc := exec_encPhase_edge hx
    have hdec := exec_decPhase_edge hx
    refine ⟨henc, hdec, fun hp hleft => ?_, fun hp hleft => ?_, fun hp hdone => ?_⟩
    · exact absurd (hostCommand_keeps_decBody (isHostCommand_of_decode hd) hx hp) hleft
    · exact ⟨cw, ok, rest, i, hhost, hd, onEncodePath_of_leaves_body hx hp hleft⟩
    · cases eq_encEnd_of_done hx hp hdone
      exact ⟨cw, ok, rest, hhost, hd⟩
  case inr.inr.inr.inr => exact absurd hhost (hreset rest)
  case inr.inr.inl =>
    have hdec := exec_decPhase_edge hx
    have henc : t.encPhase = s.encPhase := (exec_keeps_encodePath rfl hx).1
    rw [henc]
    exact ⟨phaseEdge_self _, hdec, fun _ _ => hturn, fun hp hne => absurd hp hne,
      fun hp hdone => absurd (hp.symm.trans hdone) (by decide)⟩
  all_goals
    exact ⟨phaseEdge_self _, phaseEdge_self _, fun hp hne => absurd hp hne, fun hp hne => absurd hp hne,
      fun hp hdone => absurd (hp.symm.trans hdone) (by decide)⟩

end Sys2Proof.Machine
end

section
/-! PROOFS. The invariant of the block (spec/10_state.md R39): it holds at reset, and every step keeps it. -/

namespace Sys2Proof.Machine

/-! ### The encode path -/

/-- The invariant in E_BODY: no cause, whole records in the sink, and only the header as long as nothing is pending. -/
theorem encodeInv_body_iff {s : State} (hp : s.encPhase = .body) :
    EncodeInv s ↔ s.encErr = .none ∧ 8 ≤ s.wrLen.toNat ∧ (s.wrLen.toNat - 8) % 4 = 0 ∧
      (s.encRun = 0 → s.wrLen.toNat = 8) := by
  constructor
  · rintro ⟨hfault, -, -, hbounds, hempty, -⟩
    obtain ⟨hlen, hlen4⟩ := hbounds (.inl hp)
    exact ⟨by simpa [hp] using hfault, hlen, hlen4, hempty hp⟩
  · rintro ⟨herr, hlen, hlen4, hempty⟩
    exact ⟨by simp [hp, herr], .inl herr, by simp [hp], fun _ => ⟨hlen, hlen4⟩, fun _ => hempty, by simp [hp]⟩

/-- The invariant in E_DONE: no cause, whole records in the sink, nothing pending. -/
theorem encodeInv_done_iff {s : State} (hp : s.encPhase = .done) :
    EncodeInv s ↔ s.encErr = .none ∧ 8 ≤ s.wrLen.toNat ∧ (s.wrLen.toNat - 8) % 4 = 0 ∧ s.encRun = 0 := by
  constructor
  · rintro ⟨hfault, -, -, hbounds, -, hrun⟩
    obtain ⟨hlen, hlen4⟩ := hbounds (.inr hp)
    exact ⟨by simpa [hp] using hfault, hlen, hlen4, hrun hp⟩
  · rintro ⟨herr, hlen, hlen4, hrun⟩
    exact ⟨by simp [hp, herr], .inl herr, by simp [hp], fun _ => ⟨hlen, hlen4⟩, by simp [hp], fun _ => hrun⟩

/-- After a failed transfer the invariant asks for the cause alone: `wr_len` is unspecified (41_container_writer R137). -/
theorem encodeInv_encIoError (s : State) : EncodeInv (encIoError s) := by
  simp [EncodeInv]

theorem EncodeInv.of_sameEncodePath {s t : State} (h : EncodeInv s) (hsame : sameEncodePath t s) : EncodeInv t := by
  obtain ⟨hphase, -, hrun, hlen, herr, -, -⟩ := hsame
  simpa only [EncodeInv, hphase, hrun, hlen, herr] using h

/-- A record that fits the sink moves `wr_len` by 4, without wrapping. -/
theorem appendCout_serRec_wrLen_toNat {s : State} (run : Run) (h : coutFits 4 s = true) :
    (appendCout (serRec run) s).wrLen.toNat = s.wrLen.toNat + 4 := by
  rw [coutFits_iff] at h
  rw [appendCout_wrLen, serRec_length, BitVec.toNat_add, BitVec.toNat_ofNat]
  omega

/-- The sink in E_BODY after one record more. -/
theorem EncodeInv.record_written {s : State} (h : EncodeInv s) (hp : s.encPhase = .body) (hfit : coutFits 4 s = true)
    (run : Run) :
    s.encErr = .none ∧ 8 ≤ (appendCout (serRec run) s).wrLen.toNat ∧
      ((appendCout (serRec run) s).wrLen.toNat - 8) % 4 = 0 := by
  obtain ⟨herr, hlen, hlen4, -⟩ := (encodeInv_body_iff hp).1 h
  rw [appendCout_serRec_wrLen_toNat run hfit]
  exact ⟨herr, by omega, by omega⟩

theorem execEncBegin_encodeInv {w h : Dim} {s t : State} (hinv : EncodeInv s) (hx : execEncBegin w h s = .next t) :
    EncodeInv t := by
  rcases execEncBegin_cases w h s with ⟨_, e⟩ | ⟨_, _, e⟩ | ⟨_, _, e⟩
  all_goals rw [e] at hx; cases hx
  · exact hinv
  · exact encodeInv_encIoError _
  · rw [encodeInv_body_iff rfl]
    simp

theorem execEncPix_encodeInv {r g b : Byte} {s t : State} (hinv : EncodeInv s) (hx : execEncPix r g b s = .next t) :
    EncodeInv t := by
  rcases execEncPix_cases r g b s with ⟨_, e⟩ | ⟨hp, _, hlt, e⟩ | ⟨hp, _, e⟩ | ⟨_, _, _, _, e⟩ | ⟨_, _, _, _, _, e⟩ |
    ⟨hp, _, _, _, hfit, e⟩
  all_goals rw [e] at hx; cases hx
  · exact hinv
  · obtain ⟨herr, hlen, hlen4, -⟩ := (encodeInv_body_iff hp).1 hinv
    have hrun : s.encRun + 1 ≠ 0 := by bv_omega
    exact (encodeInv_body_iff (by exact hp)).2 ⟨herr, hlen, hlen4, fun h0 => absurd h0 hrun⟩
  · obtain ⟨herr, hlen, hlen4, -⟩ := (encodeInv_body_iff hp).1 hinv
    exact (encodeInv_body_iff (by exact hp)).2 ⟨herr, hlen, hlen4, fun h0 => absurd h0 (by decide : (1 : Byte) ≠ 0)⟩
  · exact encodeInv_encIoError _
  · obtain ⟨herr, hlen, hlen4⟩ := hinv.record_written hp hfit ⟨s.encRun, s.encLast⟩
    exact (encodeInv_body_iff (by exact hp)).2 ⟨herr, hlen, hlen4, fun h0 => absurd h0 (by decide : (1 : Byte) ≠ 0)⟩

theorem execEncEnd_encodeInv {s t : State} (hinv : EncodeInv s) (hx : execEncEnd s = .next t) : EncodeInv t := by
  rcases execEncEnd_cases s with ⟨_, e⟩ | ⟨_, _, e⟩ | ⟨hp, _, _, e⟩ | ⟨_, _, _, _, e⟩ | ⟨hp, _, _, hfit, e⟩
  all_goals rw [e] at hx; cases hx
  · exact hinv
  · exact encodeInv_encIoError _
  · obtain ⟨herr, hlen, hlen4, -⟩ := (encodeInv_body_iff hp).1 hinv
    exact (encodeInv_done_iff rfl).2 ⟨herr, hlen, hlen4, rfl⟩
  · obtain ⟨herr, hlen, hlen4⟩ := hinv.record_written hp hfit ⟨s.encRun, s.encLast⟩
    exact (encodeInv_done_iff rfl).2 ⟨herr, hlen, hlen4, rfl⟩

/-- Every instruction keeps the invariant of the encode path. -/
theorem exec_encodeInv {i : Instr} {s t : State} (hx : exec i s = .next t) (hinv : EncodeInv s) : EncodeInv t := by
  by_cases hi : onEncodePath i = true
  case neg => exact hinv.of_sameEncodePath (exec_keeps_encodePath (Bool.eq_false_of_not_eq_true hi) hx)
  cases i with
  | encBegin w h => exact execEncBegin_encodeInv hinv hx
  | encPix r g b => exact execEncPix_encodeInv hinv hx
  | encEnd => exact execEncEnd_encodeInv hinv hx
  | decBegin n => cases hi
  | decRdpix idx => cases hi
  | rdReg n => cases hi
  | decStep => cases hi
  | hdr w h => cases hi
  | run len r g b => cases hi

/-! ### The registers of the decode path -/

/-- The offsets, the pixel count and the cursor of a container that has been taken (10_state R39 (d)). -/
def TakenBounds (s : State) : Prop :=
  8 ≤ s.rdLen.toNat ∧ (s.rdLen.toNat - 8) % 4 = 0 ∧ 8 ≤ s.rdOff.toNat ∧ s.rdOff.toNat ≤ s.rdLen.toNat ∧
  (s.rdOff.toNat - 8) % 4 = 0 ∧ s.decNpix.toNat ≤ s.par.pixbufCap.toNat ∧ s.decCursor.toNat ≤ s.decNpix.toNat

theorem decodeInv_body_iff {s : State} (hp : s.decPhase = .body) :
    DecodeInv s ↔ s.decErr = .none ∧ s.decSub = .none ∧ s.decNpix = pixelCount s.decW s.decH ∧ TakenBounds s := by
  constructor
  · rintro ⟨hfault, hsub, hnpix, -, -, -, hbounds, -, -⟩
    have herr : s.decErr = .none := by simpa [hp] using hfault
    exact ⟨herr, by simpa [herr] using hsub, hnpix, hbounds (.inl hp)⟩
  · rintro ⟨herr, hsub, hnpix, hbounds⟩
    exact ⟨by simp [hp, herr], by simp [herr, hsub], hnpix, by simp [hp], by simp [herr, hsub], by simp [hsub],
      fun _ => hbounds, by simp [hp], by simp [herr]⟩

theorem decodeInv_done_iff {s : State} (hp : s.decPhase = .done) :
    DecodeInv s ↔ s.decErr = .none ∧ s.decSub = .none ∧ s.decNpix = pixelCount s.decW s.decH ∧ TakenBounds s ∧
      s.rdOff = s.rdLen := by
  constructor
  · rintro ⟨hfault, hsub, hnpix, -, -, -, hbounds, hend, -⟩
    have herr : s.decErr = .none := by simpa [hp] using hfault
    exact ⟨herr, by simpa [herr] using hsub, hnpix, hbounds (.inr (.inl hp)), hend hp⟩
  · rintro ⟨herr, hsub, hnpix, hbounds, hend⟩
    exact ⟨by simp [hp, herr], by simp [herr, hsub], hnpix, by simp [hp], by simp [herr, hsub], by simp [hsub],
      fun _ => hbounds, fun _ => hend, by simp [herr]⟩

/-- An overflow keeps the registers as they were before the record that did not fit (10_state R39 (d), 60_exceptions R207). -/
theorem decodeInv_raise_outOfBounds {s : State} (hnpix : s.decNpix = pixelCount s.decW s.decH) (hbounds : TakenBounds s)
    (hlt : s.rdOff.toNat < s.rdLen.toNat) : DecodeInv (raiseDec .outOfBounds .none s) :=
  ⟨by simp, by simp, hnpix, by simp, by simp, by simp, fun _ => hbounds, by simp, fun _ => hlt⟩

/-- A `DEC_BEGIN` that fails before the header is read has cleared the registers (42_container_reader R154). -/
theorem decodeInv_begin_fault (clen : Cnt) (s : State) {cause : Cause} {sub : SubReason}
    (h : cause = .ioError ∧ sub = .none ∨ cause = .formatError ∧ (sub = .short ∨ sub = .unaligned)) :
    DecodeInv (decBeginFault cause sub (openDecode clen s)) := by
  rcases h with ⟨rfl, rfl⟩ | ⟨rfl, rfl | rfl⟩
  all_goals simp [DecodeInv, decodeOpened, pixelCount]

/-- Dimensions beyond the capacity stay in the registers (42_container_reader R154, 90_conflicts C10). -/
theorem decodeInv_dims {s : State} {w h : Dim} (hcap : s.par.pixbufCap.toNat < w.toNat * h.toNat)
    (hcur : s.decCursor = 0) (hoff : s.rdOff = 0) :
    DecodeInv (decBeginFault .formatError .dims { s with decW := w, decH := h, decNpix := pixelCount w h }) := by
  simp [DecodeInv, decodeOpened, pixelCount_toNat, hcap, hcur, hoff]

/-! ### What the decode path holds, and its source -/

/-- The invariant of the decode path and of its source: all of `BlockInv` that `CIN` and the decode path decide, but for
the canonical form. -/
def SourceInv (s : State) : Prop := DecodeInv s ∧ DecodeContent s ∧ SlotsBounded s ∧ ContainerPlaced s

theorem blockInv_iff (s : State) : BlockInv s ↔ memoriesWf s = true ∧ EncodeInv s ∧ SourceInv s := Iff.rfl

theorem SourceInv.of_same {s t : State} (h : SourceInv s) (hsame : sameDecodePath t s) (hin : sameInputs t s) :
    SourceInv t := by
  obtain ⟨hphase, hw, hh, hnpix, hcur, hoff, hlen, herr, hsub, hbuf, -⟩ := hsame
  obtain ⟨hcin, hcinLen, -, -, hpar⟩ := hin
  simpa only [SourceInv, DecodeInv, DecodeContent, DecodedFrom, decodeOpened, SlotsBounded, ContainerPlaced, hphase, hw,
    hh, hnpix, hcur, hoff, hlen, herr, hsub, hbuf, hcin, hcinLen, hpar] using h

/-! ### `DEC_BEGIN` -/

/-- After a `DEC_BEGIN` that faults no container is taken: only the registers are left to say something about. -/
theorem sourceInv_decBeginFault {cause : Cause} {sub : SubReason} {s : State} (hcause : cause ≠ .outOfBounds)
    (hcin : ∀ cell ∈ s.cin, cell.1 < s.cinLen) (hinv : DecodeInv (decBeginFault cause sub s)) :
    SourceInv (decBeginFault cause sub s) := by
  refine ⟨hinv, fun hopened => ?_, fun cell hcell => ?_, ⟨(fun hbody => nomatch hbody), hcin⟩⟩
  · rcases hopened with hp | hp | herr
    · cases hp
    · cases hp
    · exact absurd herr hcause
  · obtain ⟨cell', hmem, haddr⟩ := mem_cellsOf _ _ _ hcell
    have hlt := (List.mem_filter.1 hmem).2
    rw [decide_eq_true_eq, haddr] at hlt
    exact hlt

/-- The container of `CIN` is taken: its header's dimensions, no record consumed, an empty buffer (42_container_reader R154). -/
theorem sourceInv_taken {clen : Cnt} {s : State} (hcin : ∀ cell ∈ s.cin, cell.1 < s.cinLen) (htrue : clen.toNat = s.cinLen)
    (hlen : 8 ≤ clen.toNat) (hlen4 : (clen.toNat - 8) % 4 = 0) {w h : Dim}
    (hhdr : parHdr (s.cin.readBytes 0 8) = (w, h)) (hcap : w.toNat * h.toNat ≤ s.par.pixbufCap.toNat) :
    SourceInv { openDecode clen s with
      decW := w, decH := h, decNpix := pixelCount w h, pixbuf := [], decCursor := 0, rdOff := 8, decPhase := .body } := by
  refine ⟨(decodeInv_body_iff rfl).2 ⟨rfl, rfl, rfl, ?_⟩, fun _ => ?_, fun cell hcell => ?_, ?_⟩
  · rw [← pixelCount_toNat] at hcap
    exact ⟨hlen, hlen4, Nat.le_refl 8, hlen, rfl, hcap, Nat.zero_le _⟩
  · have hnone : recordsUpTo s.cin (recordIndex (8 : Cnt).toNat) = [] := rfl
    exact ⟨s.cin, fun _ _ _ => rfl, hhdr, congrArg totalLength hnone.symm,
      fun i => congrArg (expandedSlot · i) hnone.symm, fun herr => nomatch herr⟩
  · cases hcell
  · exact ⟨fun _ => Nat.le_of_eq htrue, hcin⟩

theorem execDecBegin_sourceInv {clen : Cnt} {s t : State} (hinv : SourceInv s) (hx : execDecBegin clen s = .next t) :
    SourceInv t := by
  have ⟨_, _, _, _, hcin⟩ := hinv
  rcases execDecBegin_cases clen s with ⟨_, e⟩ | ⟨_, _, e⟩ | ⟨_, _, _, e⟩ | ⟨_, _, _, _, e⟩ | ⟨_, _, _, _, _, e⟩ |
    ⟨_, htrue, _, hlen, hlen4, e⟩
  all_goals rw [e] at hx; cases hx
  · exact hinv
  · exact sourceInv_decBeginFault (by decide) hcin (decodeInv_begin_fault _ _ (.inl ⟨rfl, rfl⟩))
  · exact sourceInv_decBeginFault (by decide) hcin (decodeInv_begin_fault _ _ (.inr ⟨rfl, .inl rfl⟩))
  · exact sourceInv_decBeginFault (by decide) hcin (decodeInv_begin_fault _ _ (.inr ⟨rfl, .inr rfl⟩))
  · rcases consumeHeader_cases (parHdr (s.cin.readBytes 0 8)).1 (parHdr (s.cin.readBytes 0 8)).2 (openDecode clen s) with
      ⟨hcap, e⟩ | ⟨hcap, e⟩ <;> rw [e]
    · exact sourceInv_decBeginFault (by decide) hcin (decodeInv_dims hcap rfl rfl)
    · exact sourceInv_taken hcin htrue hlen hlen4 rfl hcap

/-! ### `DEC_STEP` -/

/-- In D_BODY the record fetched is the next one of the container taken (20_memory R57). -/
theorem fetched_eq_recordAt {c : Memory} {s : State} (hbounds : TakenBounds s)
    (hready : s.rdOff.toNat + 4 ≤ s.rdLen.toNat) (hcin : ∀ a < s.rdLen.toNat, c.read a = s.cin.read a) :
    parRec (s.cin.readBytes s.rdOff.toNat 4) = recordAt c (recordIndex s.rdOff.toNat) := by
  obtain ⟨-, -, hoff, -, hoff4, -, -⟩ := hbounds
  have hplace := recordIndex_offset _ hoff hoff4
  rw [recordAt_congr c s.cin _ fun a _ hlt => hcin a (by omega)]
  show _ = parRec (s.cin.readBytes (8 + 4 * recordIndex s.rdOff.toNat) 4)
  rw [hplace]

section Fits

variable {run : Run} {s : State} (hfit : run.len.toNat ≤ s.decNpix.toNat - s.decCursor.toNat)

include hfit

/-- A record that fits is expanded at the cursor and passed (43_decoder R173). -/
theorem consumeRun_of_fits : consumeRun run s = { s with
    pixbuf := s.pixbuf.fill run.color s.decCursor.toNat run.len.toNat
    decCursor := s.decCursor + run.len.setWidth 64
    rdOff := s.rdOff + 4 } := by
  rcases consumeRun_cases run s with ⟨hover, _⟩ | ⟨_, e⟩
  · omega
  · exact e

/-- `rd_off` moves by 4, without wrapping (43_decoder R173). -/
theorem consumeRun_rdOff_toNat (hready : s.rdOff.toNat + 4 ≤ s.rdLen.toNat) :
    (consumeRun run s).rdOff.toNat = s.rdOff.toNat + 4 := by
  rw [consumeRun_of_fits hfit]
  show (s.rdOff + 4).toNat = _
  bv_omega

variable (hbounds : TakenBounds s)

include hbounds

/-- The cursor moves by the run's length, without wrapping (43_decoder R172). -/
theorem consumeRun_decCursor_toNat : (consumeRun run s).decCursor.toNat = s.decCursor.toNat + run.len.toNat := by
  obtain ⟨-, -, -, -, -, -, hcur⟩ := hbounds
  have hnpix := s.decNpix.isLt
  rw [consumeRun_of_fits hfit]
  show (s.decCursor + run.len.setWidth 64).toNat = _
  rw [BitVec.toNat_add, BitVec.toNat_setWidth]
  omega

variable (hready : s.rdOff.toNat + 4 ≤ s.rdLen.toNat)

include hready

/-- The bounds hold after a record that fits: the offset stays a whole number of records, the cursor within the grid. -/
theorem TakenBounds.record_consumed : TakenBounds (consumeRun run s) := by
  have hcur' := consumeRun_decCursor_toNat hfit hbounds
  have hoff' := consumeRun_rdOff_toNat hfit hready
  obtain ⟨-, ⟨-, -, -, -, hpar⟩, -, -, -, -, hnpix, hrdLen⟩ := consumeRun_frame run s
  obtain ⟨hlen, hlen4, hoff, hle, hoff4, hcap, hcur⟩ := hbounds
  rw [TakenBounds, hcur', hoff', hnpix, hrdLen, hpar]
  omega

/-- The content after a record that fits: the buffer holds the expansion of one record more (43_decoder R178). -/
theorem DecodedFrom.record_consumed {c : Memory} (h : DecodedFrom c s) (herr : s.decErr = .none) (hbuf : s.pixbuf.wf = true)
    (hrun : run = recordAt c (recordIndex s.rdOff.toNat)) : DecodedFrom c (consumeRun run s) := by
  have hcur' := consumeRun_decCursor_toNat hfit hbounds
  have hoff' := consumeRun_rdOff_toNat hfit hready
  obtain ⟨hhdr, hcur, hslots, -⟩ := h
  obtain ⟨-, -, hoff, -, -, -, -⟩ := hbounds
  have hrecords : recordsUpTo c (recordIndex (consumeRun run s).rdOff.toNat) =
      recordsUpTo c (recordIndex s.rdOff.toNat) ++ [run] := by
    rw [hoff', recordIndex_add _ hoff, recordsUpTo_succ, ← hrun]
  rw [DecodedFrom, hrecords, hcur', totalLength_append, ← hcur, consumeRun_of_fits hfit]
  refine ⟨hhdr, rfl, fun i => ?_, fun hover => absurd (herr.symm.trans hover) (by decide)⟩
  show (s.pixbuf.fill run.color s.decCursor.toNat run.len.toNat).read i = _
  rw [hcur]
  exact fill_expandedSlot _ _ _ hbuf hslots i

end Fits

/-- A record in D_BODY, expanded or overflowing, keeps the invariant. -/
theorem consumeRun_sourceInv {s : State} (hbuf : s.pixbuf.wf = true) (hinv : SourceInv s) (hp : s.decPhase = .body)
    (hready : s.rdOff.toNat + 4 ≤ s.rdLen.toNat) :
    SourceInv (consumeRun (parRec (s.cin.readBytes s.rdOff.toNat 4)) s) := by
  obtain ⟨hdec, hcontent, hslots, hplaced, hcells⟩ := hinv
  obtain ⟨herr, hsub, hnpix, hbounds⟩ := (decodeInv_body_iff hp).1 hdec
  obtain ⟨c, hcin, hfrom⟩ := hcontent (.inl hp)
  have hrun := fetched_eq_recordAt hbounds hready (hcin hp)
  generalize parRec (s.cin.readBytes s.rdOff.toNat 4) = run at hrun ⊢
  rcases consumeRun_cases run s with ⟨hover, e⟩ | ⟨hfit, e⟩
  · obtain ⟨hhdr, hcur, hread, -⟩ := hfrom
    rw [hrun] at hover
    rw [e]
    exact ⟨decodeInv_raise_outOfBounds hnpix hbounds (by omega),
      fun _ => ⟨c, (fun hbody => nomatch hbody), hhdr, hcur, hread, fun _ => hover⟩, hslots,
      ⟨(fun hbody => nomatch hbody), hcells⟩⟩
  · have hbounds' := hbounds.record_consumed hfit hready
    have hfrom' := hfrom.record_consumed hfit hbounds hready herr hbuf hrun
    obtain ⟨-, -, -, -, -, -, hcur⟩ := hbounds
    rw [e] at hbounds' hfrom' ⊢
    refine ⟨(decodeInv_body_iff (by exact hp)).2 ⟨herr, hsub, hnpix, hbounds'⟩, fun _ => ⟨c, hcin, hfrom'⟩,
      fun cell hcell => ?_, ⟨hplaced, hcells⟩⟩
    rcases PixelMemory.mem_fill _ _ _ _ _ hcell with hnew | hold
    · show cell.1 < s.decNpix.toNat
      omega
    · exact hslots cell hold

theorem execDecStep_sourceInv {s t : State} (hx : execDecStep s = .next t) (hbuf : s.pixbuf.wf = true)
    (hinv : SourceInv s) : SourceInv t := by
  rcases execDecStep_cases s with ⟨_, e⟩ | ⟨hp, hready, e⟩ | ⟨hp, hend, e⟩ | ⟨_, _, _, e⟩
  all_goals rw [e] at hx; cases hx
  · exact hinv
  · exact consumeRun_sourceInv hbuf hinv hp hready
  · obtain ⟨hdec, hcontent, hslots, -, hcells⟩ := hinv
    obtain ⟨herr, hsub, hnpix, hbounds⟩ := (decodeInv_body_iff hp).1 hdec
    obtain ⟨c, -, hfrom⟩ := hcontent (.inl hp)
    exact ⟨(decodeInv_done_iff rfl).2 ⟨herr, hsub, hnpix, hbounds, hend⟩, fun _ => ⟨c, (fun hbody => nomatch hbody), hfrom⟩,
      hslots, ⟨(fun hbody => nomatch hbody), hcells⟩⟩

/-! ### The host's events -/

/-- A host command keeps the invariant of the decode path and its source. -/
theorem hostCommand_sourceInv {cw : CmdWord} {i : Instr} {s t : State} (hd : decode (.command cw) = .ok i)
    (hx : exec i s = .next t) (hinv : SourceInv s) : SourceInv t := by
  have hin := exec_keeps_inputs hx
  rcases decode_command_kinds hd with ⟨_, _, rfl⟩ | ⟨_, _, _, rfl⟩ | rfl | ⟨n, rfl⟩ | ⟨idx, rfl⟩ | ⟨_, rfl⟩
  case inr.inr.inr.inl => exact execDecBegin_sourceInv hinv hx
  case inr.inr.inr.inr.inl => exact hinv.of_same (exec_decRdpix_frame hx) hin
  all_goals exact hinv.of_same (exec_keeps_decodePath (by rfl) hx) hin

/-- Placing a container that keeps the bytes the decode path may still read keeps the invariant (70_reset_and_hazards R236). -/
theorem sourceInv_placed {bytes : List Byte} {s : State} (hwf : s.cin.wf = true) (hinv : SourceInv s)
    (hkept : s.decPhase = .body → s.rdLen.toNat ≤ bytes.length ∧
      (containerOf bytes).below s.rdLen.toNat = s.cin.below s.rdLen.toNat) :
    SourceInv { s with cin := containerOf bytes, cinLen := bytes.length } := by
  obtain ⟨hdec, hcontent, hslots, -⟩ := hinv
  refine ⟨hdec, fun hopened => ?_, hslots, ⟨fun hp => (hkept hp).1, containerOf_mem bytes⟩⟩
  obtain ⟨c, hcin, hfrom⟩ := hcontent hopened
  refine ⟨c, fun hp a ha => ?_, hfrom⟩
  have hsame := (Memory.below_eq_iff _ _ _ (containerOf_wf bytes) hwf).1 (hkept hp).2
  exact (hcin hp a ha).trans (hsame a ha).symm

/-- The encode path after `RESET` is idle (70_reset_and_hazards R231). -/
theorem encodeInv_applyReset (s : State) : EncodeInv (applyReset s) := by
  simp [EncodeInv, State.reset]

/-- The decode path after `RESET` is idle; the container in `CIN` stays (70_reset_and_hazards R231, R232). -/
theorem sourceInv_applyReset {s : State} (hcells : ∀ cell ∈ s.cin, cell.1 < s.cinLen) : SourceInv (applyReset s) := by
  refine ⟨by simp [DecodeInv, decodeOpened, pixelCount, State.reset], fun hopened => ?_, (fun _ hcell => nomatch hcell),
    ⟨(fun hbody => nomatch hbody), hcells⟩⟩
  rcases hopened with hp | hp | herr
  · cases hp
  · cases hp
  · cases herr

/-- Settles O47: every register of the reset state is 0, as after a `RESET`, and its memories are empty. -/
theorem invariantAtReset : Obligations.InvariantAtReset := by
  unfold Obligations.InvariantAtReset
  refine ⟨(blockInv_iff _).2 ⟨memoriesWf_reset, encodeInv_applyReset State.reset, ?_⟩, fun hp => ?_⟩
  · exact sourceInv_applyReset (s := State.reset) fun _ hcell => nomatch hcell
  · rcases hp with hp | hp <;> cases hp

/-- Settles O48: by what the step did. The memories, the encode path, and the decode path with its source each keep their
part of the invariant. -/
theorem stepKeepsInvariant : Obligations.StepKeepsInvariant := by
  unfold Obligations.StepKeepsInvariant
  intro s t hinv hstep
  rw [blockInv_iff] at hinv ⊢
  obtain ⟨hwf, henc, hsrc⟩ := hinv
  obtain ⟨hcout, hcin, hbuf⟩ := (memoriesWf_iff s).1 hwf
  rcases step_cases hstep with ⟨_, _, _, _, _, hd, hx⟩ | ⟨_, _, _, _, _, _, rfl⟩ | ⟨_, hx⟩ |
    ⟨bytes, rest, _, hkept, rfl⟩ | ⟨rest, _, rfl⟩
  · exact ⟨exec_memoriesWf _ _ _ (by exact hwf) hx, exec_encodeInv hx henc, hostCommand_sourceInv hd hx hsrc⟩
  · exact ⟨hwf, henc, hsrc⟩
  · exact ⟨exec_memoriesWf _ _ _ (by exact hwf) hx, exec_encodeInv hx henc, execDecStep_sourceInv hx hbuf hsrc⟩
  · refine ⟨?_, henc, sourceInv_placed (s := { s with host := rest }) hcin hsrc hkept⟩
    exact (memoriesWf_iff _).2 ⟨hcout, containerOf_wf bytes, hbuf⟩
  · obtain ⟨-, -, -, -, hcells⟩ := hsrc
    refine ⟨?_, encodeInv_applyReset _, sourceInv_applyReset hcells⟩
    exact (memoriesWf_iff _).2 ⟨cellsOf_wf _ _, hcin, rfl⟩

end Sys2Proof.Machine
end

section
/-! PROOFS. The two memories at the byte (spec/20_memory.md): the byte order of the header fields (R55), what the encode
path leaves of `COUT` and of its registers (R22 to R26, R52), and the reads, which write nothing (R60). -/

namespace Sys2Proof.Machine

/-! ### The byte order -/

/-- The bytes of a value as numbers, least significant first (20_memory R55). -/
theorem bytesLe32_map_toNat (v : Dim) : (bytesLe32 v).map BitVec.toNat =
    [v.toNat % 2 ^ 8, v.toNat / 2 ^ 8 % 2 ^ 8, v.toNat / 2 ^ 16 % 2 ^ 8, v.toNat / 2 ^ 24 % 2 ^ 8] := by
  simp only [bytesLe32, List.map_cons, List.map_nil, toNat_field, Nat.pow_zero, Nat.div_one]

theorem le32_of_bytesLe32_eq {v : Dim} {b0 b1 b2 b3 : Byte} (h : bytesLe32 v = [b0, b1, b2, b3]) :
    le32 b0 b1 b2 b3 = v := by
  cases h
  exact le32_bytes v

/-- Settles O4: the two functions as numbers, and each inverse to the other; the writer and the reader use them by
definition. -/
theorem headerFieldsLittleEndian : Obligations.HeaderFieldsLittleEndian := by
  unfold Obligations.HeaderFieldsLittleEndian
  exact ⟨le32_toNat, bytesLe32_map_toNat, fun _ _ _ _ _ h => le32_of_bytesLe32_eq h, bytes_le32, fun _ _ => rfl,
    fun _ _ _ _ _ _ _ _ => rfl⟩

/-! ### What the encode path writes -/

/-- A record appended to the sink leaves every byte outside its four alone (41_container_writer R133). -/
theorem appendCout_serRec_read_outside {s : State} (hcout : s.cout.wf = true) (run : Run) {a : Nat}
    (ha : a < s.wrLen.toNat ∨ s.wrLen.toNat + 4 ≤ a) : (appendCout (serRec run) s).cout.read a = s.cout.read a := by
  rw [appendCout_cout, Memory.read_writeBytes _ _ _ _ hcout, serRec_length, if_neg (by omega)]

/-- A header written to the emptied sink leaves nothing beyond itself (41_container_writer R134). -/
theorem openEncode_serHdr_read_beyond (w h : Dim) (s : State) {a : Nat} (ha : 8 ≤ a) :
    (appendCout (serHdr w h) (openEncode s)).cout.read a = 0 := by
  have hwr : (0 : Cnt).toNat = 0 := rfl
  rw [appendCout_cout, openEncode_cout, openEncode_wrLen, hwr, Memory.read_writeBytes _ _ _ _ Memory.wf_nil,
    serHdr_length, if_neg (by omega), Memory.read_nil]

/-- A pending run that the pixel does not continue is emitted (40_encoder R112). -/
theorem encPix_emits {last p : Pixel} {run : Byte} (hrun : run ≠ 0) (hturn : p ≠ last ∨ run = 255) :
    (encPix last run p).2.2 = some ⟨run, last⟩ := by
  rcases encPix_cases last p run with ⟨hp, hlt, _⟩ | ⟨h0, _⟩ | ⟨_, _, e⟩
  · rcases hturn with hne | rfl
    · exact absurd hp hne
    · exact absurd hlt (by decide)
  · exact absurd h0 hrun
  · rw [e]

/-- Settles O35: by everything each instruction can do. Only a record written touches `COUT` in E_BODY, at its four bytes;
an accepted `ENC_BEGIN` starts from the emptied sink. -/
theorem encodeWritesFrame : Obligations.EncodeWritesFrame := by
  unfold Obligations.EncodeWritesFrame
  intro s t hw
  obtain ⟨hcout, -, -⟩ := (memoriesWf_iff s).1 hw
  refine ⟨fun w h hx => ?encBegin, fun r g b hx => ?encPix, fun hx => ?encEnd⟩
  case encBegin =>
    simp only [exec] at hx
    rcases execEncBegin_cases w h s with ⟨hp, e⟩ | ⟨hp, _, e⟩ | ⟨hp, _, e⟩
    all_goals rw [e] at hx; cases hx
    · exact ⟨rfl, fun _ hne => absurd hp hne, fun _ _ => rfl⟩
    · exact ⟨rfl, fun hbody => absurd hbody (by simp), fun hbody => absurd hbody hp⟩
    · exact ⟨rfl, fun _ _ a ha => openEncode_serHdr_read_beyond w h s ha, fun hbody => absurd hbody hp⟩
  case encPix =>
    simp only [exec] at hx
    rcases execEncPix_cases r g b s with ⟨_, e⟩ | ⟨_, _, _, e⟩ | ⟨_, _, e⟩ | ⟨_, _, _, hio, e⟩ | ⟨_, _, _, _, _, e⟩ |
      ⟨hp, hrun, hturn, _, _, e⟩
    all_goals rw [e] at hx; cases hx
    · simp
    · simp
    · simp
    · exact .inl ⟨rfl, rfl, hio, rfl, rfl⟩
    · refine .inr ⟨rfl, rfl, rfl, fun a ha => appendCout_serRec_read_outside hcout _ ha, ?_⟩
      rintro (hne | hnone)
      · exact absurd hp hne
      · exact absurd ((encPix_emits hrun hturn).symm.trans hnone) (by simp)
  case encEnd =>
    simp only [exec] at hx
    rcases execEncEnd_cases s with ⟨_, e⟩ | ⟨_, hio, e⟩ | ⟨_, _, _, e⟩ | ⟨_, _, _, _, e⟩ | ⟨hp, _, hrun, _, e⟩
    all_goals rw [e] at hx; cases hx
    · simp
    · exact .inl ⟨rfl, rfl, hio, rfl, rfl⟩
    · simp
    · refine .inr ⟨rfl, rfl, rfl, fun a ha => appendCout_serRec_read_outside hcout _ ha, ?_⟩
      rintro (hne | hzero)
      · exact absurd hp hne
      · exact absurd hzero hrun

/-! ### The reads -/

/-- A read always gives a response, also where it is refused (43_decoder R177, 44_status_access R190). -/
theorem exec_read_answers {i : Instr} {s t : State} (hi : (∃ idx, i = .decRdpix idx) ∨ (∃ n, i = .rdReg n))
    (hx : exec i s = .next t) : t.resp ≠ .none := by
  rcases hi with ⟨idx, rfl⟩ | ⟨n, rfl⟩
  · simp only [exec] at hx
    rcases execDecRdpix_cases idx s with ⟨_, _, e⟩ | ⟨_, e⟩
    all_goals rw [e] at hx; cases hx; simp
  · simp only [exec] at hx
    rcases execRdReg_cases n s with ⟨_, _, _, e⟩ | ⟨_, e⟩
    all_goals rw [e] at hx; cases hx; simp

/-- Neither read moves the decode path: `RD_REG` is not of it, and `DEC_RDPIX` only looks at the buffer (20_memory R60). -/
theorem exec_read_keeps_decodePath {i : Instr} {s t : State}
    (hi : (∃ idx, i = .decRdpix idx) ∨ (∃ n, i = .rdReg n)) (hx : exec i s = .next t) : sameDecodePath t s := by
  rcases hi with ⟨idx, rfl⟩ | ⟨n, rfl⟩
  · exact exec_decRdpix_frame hx
  · exact exec_keeps_decodePath rfl hx

/-- Settles O38: the frames of the two paths, of the inputs and of `proto`, and the answer. -/
theorem readsChangeNothing : Obligations.ReadsChangeNothing := by
  unfold Obligations.ReadsChangeNothing
  intro i s t hi hx
  have henc : onEncodePath i = false := by rcases hi with ⟨_, rfl⟩ | ⟨_, rfl⟩ <;> rfl
  exact ⟨exec_keeps_encodePath henc hx, exec_read_keeps_decodePath hi hx, exec_keeps_inputs hx, exec_keeps_proto hx,
    exec_read_answers hi hx⟩

end Sys2Proof.Machine
end

section
/-! PROOFS. The encodings (spec/30_encoding.md): a command word as operation code and operand (R88), what each operation
code decodes to (R89, R90), the encoder against the decoder (R83), and the command table against the decoder (R94). -/

namespace Sys2Proof

/-! ### Command words -/

/-- A command word is its operation code and its operand (30_encoding R88). -/
theorem opField_append_operand (cw : CmdWord) : opField cw ++ cw.extractLsb' 0 64 = cw :=
  BitVec.extractLsb'_append_extractLsb' (w := 4) (len := 64)

/-- Words with one operand field have every part of that field in common. -/
theorem field_congr_of_le {m : Nat} {x y : BitVec m} {n : Nat} (h : x.extractLsb' 0 n = y.extractLsb' 0 n) {k j : Nat}
    (hk : k + j ≤ n) : x.extractLsb' k j = y.extractLsb' k j := by
  have part : ∀ z : BitVec m, z.extractLsb' k j = (z.extractLsb' 0 n).extractLsb' k j := fun z => by
    rw [BitVec.extractLsb'_extractLsb'_of_le hk]
  rw [part x, part y, h]

/-! ### The operation codes one by one -/

theorem decode_encBegin_word (arg : BitVec 64) : decode (.command (0x1#4 ++ arg)) =
    .ok (.encBegin (arg.extractLsb' 0 32) (arg.extractLsb' 32 32)) := decode_command 0x1#4 arg

theorem decode_encPix_word (arg : BitVec 64) : decode (.command (0x2#4 ++ arg)) =
    .ok (.encPix (arg.extractLsb' 0 8) (arg.extractLsb' 8 8) (arg.extractLsb' 16 8)) := decode_command 0x2#4 arg

theorem decode_encEnd_word (arg : BitVec 64) : decode (.command (0x3#4 ++ arg)) = .ok .encEnd :=
  decode_command 0x3#4 arg

theorem decode_decBegin_word (clen : Cnt) : decode (.command (0x4#4 ++ clen)) = .ok (.decBegin clen) :=
  decode_command 0x4#4 clen

theorem decode_decRdpix_word (idx : Cnt) : decode (.command (0x5#4 ++ idx)) = .ok (.decRdpix idx) :=
  decode_command 0x5#4 idx

theorem decode_rdReg_word (arg : BitVec 64) : decode (.command (0x6#4 ++ arg)) =
    .ok (.rdReg (arg.extractLsb' 0 4)) := decode_command 0x6#4 arg

/-- The operation codes 0x0 and 0x7 to 0xF are rejected by name (30_encoding R90). -/
theorem decode_unassigned {cw : CmdWord} (h : (opField cw).toNat = 0 ∨ 7 ≤ (opField cw).toNat) :
    decode (.command cw) = .error (.unassignedOp (opField cw)) := by
  have hne : ∀ k : BitVec 4, 0 < k.toNat → k.toNat < 7 → opField cw ≠ k := by
    rintro k hpos hlt rfl
    omega
  show decodeCommand cw = _
  unfold decodeCommand
  rw [if_neg (hne 1 (by decide) (by decide)), if_neg (hne 2 (by decide) (by decide)),
    if_neg (hne 3 (by decide) (by decide)), if_neg (hne 4 (by decide) (by decide)),
    if_neg (hne 5 (by decide) (by decide)), if_neg (hne 6 (by decide) (by decide))]

/-! ### The container items -/

theorem decode_header_serHdr (w h : Dim) : decode (.header (serHdr w h)) = .ok (.hdr w h) := by
  show decodeHeader _ = _
  rw [decodeHeader, if_pos (serHdr_length w h), parHdr_serHdr]

theorem decode_record_serRec (run : Run) :
    decode (.record (serRec run)) = .ok (.run run.len run.color.r run.color.g run.color.b) := by
  show decodeRecord _ = _
  rw [decodeRecord, if_pos (serRec_length run), parRec_serRec]

/-! ### The encoder against the decoder -/

theorem decode_encode_encBegin (w h : Dim) : decode (encode (.encBegin w h)) = .ok (.encBegin w h) := by
  rw [encode, decode_encBegin_word, field_low h w 0 32 (by omega), field_all, field_high]

theorem decode_encode_encPix (r g b : Byte) : decode (encode (.encPix r g b)) = .ok (.encPix r g b) := by
  have hr : (0#40 ++ (b ++ (g ++ r))).extractLsb' 0 8 = r := by
    rw [field_low _ _ _ _ (by omega), field_low _ _ _ _ (by omega), field_low _ _ _ _ (by omega), field_all]
  have hg : (0#40 ++ (b ++ (g ++ r))).extractLsb' 8 8 = g := by
    rw [field_low _ _ _ _ (by omega), field_low _ _ _ _ (by omega), field_high]
  have hb : (0#40 ++ (b ++ (g ++ r))).extractLsb' 16 8 = b := by
    rw [field_low _ _ _ _ (by omega), field_high]
  rw [encode, decode_encPix_word, hr, hg, hb]

theorem decode_encode_rdReg (n : BitVec 4) : decode (encode (.rdReg n)) = .ok (.rdReg n) := by
  rw [encode, decode_rdReg_word, field_low _ _ _ _ (by omega), field_all]

/-- Settles O1: the operand fields the encoder lays out are the fields the decoder reads, format by format. -/
theorem decodeOfEncode : Obligations.DecodeOfEncode := by
  unfold Obligations.DecodeOfEncode
  intro i
  cases i with
  | encBegin w h => exact decode_encode_encBegin w h
  | encPix r g b => exact decode_encode_encPix r g b
  | encEnd => exact decode_encEnd_word _
  | decBegin clen => exact decode_decBegin_word clen
  | decRdpix idx => exact decode_decRdpix_word idx
  | rdReg n => exact decode_encode_rdReg n
  | decStep => rfl
  | hdr w h => exact decode_header_serHdr w h
  | run len r g b => exact decode_record_serRec ⟨len, ⟨r, g, b⟩⟩

/-! ### The command table against the decoder -/

/-- The mnemonic of what the decoder reads from a command word, if it reads an instruction. -/
def decodedMnemonic (cw : CmdWord) : Option String := (decode (.command cw)).toOption.map Instr.mnemonic

theorem decodedMnemonic_eq_some_iff (cw : CmdWord) (name : String) :
    decodedMnemonic cw = some name ↔ ∃ i, decode (.command cw) = .ok i ∧ i.mnemonic = name := by
  unfold decodedMnemonic
  cases decode (.command cw) <;> simp [Except.toOption]

/-- The operation code alone decides the mnemonic (30_encoding R88, R89). -/
theorem decodedMnemonic_append (op : BitVec 4) (arg : BitVec 64) :
    decodedMnemonic (op ++ arg) = decodedMnemonic (op ++ 0#64) := by
  simp only [decodedMnemonic, decode_command]
  split_ifs <;> rfl

/-- Every row of the table compares the operation code and no operand bit (30_encoding R94). -/
theorem selects_append_iff {row : CommandRow} (hrow : row ∈ commandTable) (op : BitVec 4) (arg : BitVec 64) :
    row.selects (op ++ arg) = true ↔ op ++ 0#64 = row.pattern := by
  have hmask : ∀ row ∈ commandTable, row.mask = 0xF0000000000000000 := by decide
  rw [CommandRow.selects, hmask row hrow, Laws.Format.mask_append, beq_iff_eq]

/-- The sixteen operation codes against the six rows. -/
theorem pattern_iff_decodedMnemonic : ∀ row ∈ commandTable, ∀ op : BitVec 4,
    op ++ 0#64 = row.pattern ↔ decodedMnemonic (op ++ 0#64) = some row.mnemonic := by decide

/-- Settles O2: the operand bits matter neither to a row nor to the mnemonic, so the sixteen operation codes decide. -/
theorem commandTableAgreesWithDecoder : Obligations.CommandTableAgreesWithDecoder := by
  unfold Obligations.CommandTableAgreesWithDecoder
  intro row hrow cw
  rw [← decodedMnemonic_eq_some_iff, ← opField_append_operand cw, selects_append_iff hrow, decodedMnemonic_append]
  exact pattern_iff_decodedMnemonic row hrow (opField cw)

end Sys2Proof

namespace Sys2Proof.Machine

/-! ### Ignored commands and ignored bits -/

/-- Settles O3: the decoder rejects an unassigned code, and the fields it reads of the other forms are those kept. -/
theorem unassignedCodesAndUnusedBits : Obligations.UnassignedCodesAndUnusedBits := by
  unfold Obligations.UnassignedCodesAndUnusedBits
  refine ⟨fun s cw ok rest hhost hop => ?unassigned, fun arg arg' h => ?encPix, fun arg arg' => ?encEnd,
    fun arg arg' h => ?rdReg⟩
  case unassigned => rw [step_of_command hhost, stepCommand_of_error (decode_unassigned hop), ignoreCommand]
  case encPix =>
    have channel : ∀ k, k + 8 ≤ 24 → arg.extractLsb' k 8 = arg'.extractLsb' k 8 := fun k => field_congr_of_le h
    rw [decode_encPix_word, decode_encPix_word, channel 0 (by omega), channel 8 (by omega), channel 16 (by omega)]
  case encEnd => rw [decode_encEnd_word, decode_encEnd_word]
  case rdReg => rw [decode_rdReg_word, decode_rdReg_word, h]

/-- Settles O7: each word is evaluated by the decoder. -/
theorem writtenOutWordsDecode : Obligations.WrittenOutWordsDecode := by
  unfold Obligations.WrittenOutWordsDecode
  decide

end Sys2Proof.Machine
end

section
/-! PROOFS. The records in the sink are canonical (spec/40_encoder.md R118 (b), (d), spec/30_encoding.md R87), and every
step keeps them so. -/

namespace Sys2Proof.Machine

/-! ### Canonical records -/

/-- The first `n` records of `c` have lengths from 1 to 255, and one has the colour of the next only if it is full. -/
def RecordsCanonical (c : Memory) (n : Nat) : Prop :=
  ∀ k < n, (recordAt c k).len ≠ 0 ∧
    (k + 1 < n → (recordAt c k).color = (recordAt c (k + 1)).color → (recordAt c k).len = 255)

/-- A run of colour `p` may follow the first `n` records of `c`: the last of them has that colour only if it is full. -/
def MayFollowRecords (c : Memory) (n : Nat) (p : Pixel) : Prop :=
  ∀ k, k + 1 = n → (recordAt c k).color = p → (recordAt c k).len = 255

/-- In E_BODY the pending run may follow the records. -/
theorem outputCanonical_body_iff {s : State} (hp : s.encPhase = .body) :
    OutputCanonical s ↔ RecordsCanonical s.cout (recordIndex s.wrLen.toNat) ∧
      MayFollowRecords s.cout (recordIndex s.wrLen.toNat) s.encLast := by
  constructor
  · intro h
    refine ⟨fun k hk => ?_, fun k hk => ?_⟩
    · obtain ⟨hlen, hnext, -⟩ := h (.inl hp) k hk
      exact ⟨hlen, hnext⟩
    · obtain ⟨-, -, hpending⟩ := h (.inl hp) k (by omega)
      exact hpending hp hk
  · rintro ⟨hrecs, hpending⟩ - k hk
    obtain ⟨hlen, hnext⟩ := hrecs k hk
    exact ⟨hlen, hnext, fun _ => hpending k⟩

/-- In E_DONE nothing is pending. -/
theorem outputCanonical_done_iff {s : State} (hp : s.encPhase = .done) :
    OutputCanonical s ↔ RecordsCanonical s.cout (recordIndex s.wrLen.toNat) := by
  constructor
  · intro h k hk
    obtain ⟨hlen, hnext, -⟩ := h (.inr hp) k hk
    exact ⟨hlen, hnext⟩
  · intro hrecs _ k hk
    obtain ⟨hlen, hnext⟩ := hrecs k hk
    exact ⟨hlen, hnext, fun hbody => by simp [hp] at hbody⟩

theorem outputCanonical_of_no_record {s : State} (h : recordIndex s.wrLen.toNat = 0) : OutputCanonical s :=
  fun _ k hk => absurd (h ▸ hk : k < 0) (Nat.not_lt_zero k)

/-- After a failed transfer nothing is claimed of the sink (41_container_writer R137). -/
theorem outputCanonical_encIoError (s : State) : OutputCanonical (encIoError s) := by
  simp [OutputCanonical]

/-- After `RESET` the path is idle, and what the sink holds is unspecified (70_reset_and_hazards R232). -/
theorem outputCanonical_applyReset (s : State) : OutputCanonical (applyReset s) := by
  simp [OutputCanonical, State.reset]

theorem OutputCanonical.of_sameEncodePath {s t : State} (h : OutputCanonical s) (hsame : sameEncodePath t s) :
    OutputCanonical t := by
  obtain ⟨hphase, hlast, -, hlen, -, hcout, -⟩ := hsame
  simpa only [OutputCanonical, hphase, hlast, hlen, hcout] using h

/-! ### A record appended -/

/-- The records before the appended one are as they were. -/
theorem RecordsCanonical.record_appended {c : Memory} {n : Nat} {run : Run} (h : RecordsCanonical c n)
    (hwf : c.wf = true) (hlen : run.len ≠ 0) (hfollow : MayFollowRecords c n run.color) :
    RecordsCanonical (c.writeBytes (8 + 4 * n) (serRec run)) (n + 1) := by
  intro k hk
  rcases Nat.lt_succ_iff_lt_or_eq.1 hk with hlt | rfl
  · rw [recordAt_writeBytes_other c k n run hwf (by omega)]
    obtain ⟨hk0, hnext⟩ := h k hlt
    refine ⟨hk0, fun _ => ?_⟩
    by_cases hend : k + 1 = n
    · rw [hend, recordAt_writeBytes_self c n run hwf]
      exact hfollow k hend
    · rw [recordAt_writeBytes_other c (k + 1) n run hwf hend]
      exact hnext (by omega)
  · rw [recordAt_writeBytes_self c k run hwf]
    exact ⟨hlen, fun hlt => by omega⟩

/-- What may follow once a run is appended: another colour, or any if the run is full. -/
theorem mayFollowRecords_record_appended {c : Memory} {n : Nat} {run : Run} {p : Pixel} (hwf : c.wf = true)
    (h : p ≠ run.color ∨ run.len = 255) : MayFollowRecords (c.writeBytes (8 + 4 * n) (serRec run)) (n + 1) p := by
  intro k hk hcolor
  obtain rfl : k = n := by omega
  rw [recordAt_writeBytes_self c k run hwf] at hcolor ⊢
  exact h.resolve_left (not_not_intro hcolor.symm)

/-- A record appended to the sink in E_BODY is written at the next record's offset. -/
theorem EncodeInv.appendCout_serRec {s : State} (h : EncodeInv s) (hp : s.encPhase = .body) (hfit : coutFits 4 s = true)
    (run : Run) :
    recordIndex (appendCout (serRec run) s).wrLen.toNat = recordIndex s.wrLen.toNat + 1 ∧
      (appendCout (serRec run) s).cout = s.cout.writeBytes (8 + 4 * recordIndex s.wrLen.toNat) (serRec run) := by
  obtain ⟨-, hlen, hlen4, -⟩ := (encodeInv_body_iff hp).1 h
  rw [appendCout_serRec_wrLen_toNat run hfit, recordIndex_add _ hlen, recordIndex_offset _ hlen hlen4]
  exact ⟨rfl, rfl⟩

/-! ### Every instruction -/

/-- An accepted `ENC_BEGIN` leaves a sink without records. -/
theorem execEncBegin_outputCanonical {w h : Dim} {s t : State} (hcan : OutputCanonical s)
    (hx : execEncBegin w h s = .next t) : OutputCanonical t := by
  rcases execEncBegin_cases w h s with ⟨_, e⟩ | ⟨_, _, e⟩ | ⟨_, _, e⟩
  all_goals rw [e] at hx; cases hx
  · exact hcan
  · exact outputCanonical_encIoError _
  · exact outputCanonical_of_no_record (by simp [recordIndex, Config.hdrLen])

section Encode

variable {s t : State} (hwf : s.cout.wf = true) (hinv : EncodeInv s) (hcan : OutputCanonical s)

include hwf hinv hcan

/-- The pending run appended in E_BODY leaves canonical records, which a pixel that does not continue it may follow. -/
theorem pendingRun_appended_canonical {u : State} (hp : s.encPhase = .body) (hrun : s.encRun ≠ 0)
    (hfit : coutFits 4 s = true) (hu : u = appendCout (serRec ⟨s.encRun, s.encLast⟩) s) :
    RecordsCanonical u.cout (recordIndex u.wrLen.toNat) ∧
      ∀ p, p ≠ s.encLast ∨ s.encRun = 255 → MayFollowRecords u.cout (recordIndex u.wrLen.toNat) p := by
  subst hu
  obtain ⟨hrecs, hfollow⟩ := (outputCanonical_body_iff hp).1 hcan
  obtain ⟨hindex, hcout⟩ := hinv.appendCout_serRec hp hfit ⟨s.encRun, s.encLast⟩
  rw [hindex, hcout]
  exact ⟨hrecs.record_appended hwf hrun hfollow, fun _ hturn => mayFollowRecords_record_appended hwf hturn⟩

theorem execEncPix_outputCanonical {r g b : Byte} (hx : execEncPix r g b s = .next t) : OutputCanonical t := by
  rcases execEncPix_cases r g b s with ⟨_, e⟩ | ⟨_, _, _, e⟩ | ⟨hp, h0, e⟩ | ⟨_, _, _, _, e⟩ | ⟨_, _, _, _, _, e⟩ |
    ⟨hp, hrun, hturn, _, hfit, e⟩
  all_goals rw [e] at hx; cases hx
  · exact hcan
  · exact hcan
  · obtain ⟨-, -, -, hempty⟩ := (encodeInv_body_iff hp).1 hinv
    have hnone : recordIndex s.wrLen.toNat = 0 := by rw [hempty h0]; rfl
    exact outputCanonical_of_no_record hnone
  · exact outputCanonical_encIoError _
  · obtain ⟨hrecs, hfollow⟩ := pendingRun_appended_canonical hwf hinv hcan hp hrun hfit rfl
    exact (outputCanonical_body_iff (by exact hp)).2 ⟨hrecs, hfollow _ hturn⟩

theorem execEncEnd_outputCanonical (hx : execEncEnd s = .next t) : OutputCanonical t := by
  rcases execEncEnd_cases s with ⟨_, e⟩ | ⟨_, _, e⟩ | ⟨hp, _, _, e⟩ | ⟨_, _, _, _, e⟩ | ⟨hp, _, hrun, hfit, e⟩
  all_goals rw [e] at hx; cases hx
  · exact hcan
  · exact outputCanonical_encIoError _
  · exact (outputCanonical_done_iff rfl).2 ((outputCanonical_body_iff hp).1 hcan).1
  · exact (outputCanonical_done_iff rfl).2 (pendingRun_appended_canonical hwf hinv hcan hp hrun hfit rfl).1

end Encode

/-- Every instruction keeps the output canonical. -/
theorem exec_outputCanonical {i : Instr} {s t : State} (hx : exec i s = .next t) (hwf : s.cout.wf = true)
    (hinv : EncodeInv s) (hcan : OutputCanonical s) : OutputCanonical t := by
  by_cases hi : onEncodePath i = true
  case neg => exact hcan.of_sameEncodePath (exec_keeps_encodePath (Bool.eq_false_of_not_eq_true hi) hx)
  cases i with
  | encBegin w h => exact execEncBegin_outputCanonical hcan hx
  | encPix r g b => exact execEncPix_outputCanonical hwf hinv hcan hx
  | encEnd => exact execEncEnd_outputCanonical hwf hinv hcan hx
  | decBegin n => cases hi
  | decRdpix idx => cases hi
  | rdReg n => cases hi
  | decStep => cases hi
  | hdr w h => cases hi
  | run len r g b => cases hi

/-- Settles O49: by what the step did. An instruction keeps each of the three parts, and no other step changes the encode
path but `RESET`, which leaves it idle. -/
theorem stepKeepsOutputCanonical : Obligations.StepKeepsOutputCanonical := by
  unfold Obligations.StepKeepsOutputCanonical
  rintro s t ⟨hwf, hinv, hcan⟩ hstep
  obtain ⟨hcout, hcin, hbuf⟩ := (memoriesWf_iff s).1 hwf
  have hexec : ∀ {i host ok}, exec i { s with host := host, ioOk := ok } = .next t →
      memoriesWf t = true ∧ EncodeInv t ∧ OutputCanonical t := fun hx =>
    ⟨exec_memoriesWf _ _ _ (by exact hwf) hx, exec_encodeInv hx hinv, exec_outputCanonical hx hcout hinv hcan⟩
  rcases step_cases hstep with ⟨_, _, _, _, _, _, hx⟩ | ⟨_, _, _, _, _, _, rfl⟩ | ⟨_, hx⟩ | ⟨bytes, _, _, _, rfl⟩ |
    ⟨_, _, rfl⟩
  · exact hexec hx
  · exact ⟨hwf, hinv, hcan⟩
  · exact hexec hx
  · exact ⟨(memoriesWf_iff _).2 ⟨hcout, containerOf_wf bytes, hbuf⟩, hinv, hcan⟩
  · exact ⟨(memoriesWf_iff _).2 ⟨cellsOf_wf _ _, hcin, rfl⟩, encodeInv_applyReset _, outputCanonical_applyReset _⟩

end Sys2Proof.Machine
end

section
/-! PROOFS. The encoder as functions (spec/40_encoder.md): one pixel and the flush (R112, R113), the cap (R114), and the
stream emitted over a sequence of pixels (R115, R118). -/

namespace Sys2Proof.Machine

/-! ### One pixel -/

/-- The pixel becomes the last one (40_encoder R112). -/
@[simp] theorem encPix_last (last p : Pixel) (run : Byte) : (encPix last run p).1 = p := by
  rcases encPix_cases last p run with ⟨rfl, _, e⟩ | ⟨_, e⟩ | ⟨_, _, e⟩
  all_goals rw [e]

/-- A pixel that does not continue the pending run flushes it and starts a new one (40_encoder R112, R113). -/
theorem encPix_flushes {last p : Pixel} {run : Byte} (h : ¬(p = last ∧ run.toNat < 255)) :
    encPix last run p = (p, 1, (encFlush last run).2) := encPix_turn last p run h

theorem encPix_restart {last p : Pixel} {run : Byte} (hrun : run ≠ 0) (hturn : p ≠ last ∨ run = 255) :
    encPix last run p = (p, 1, some ⟨run, last⟩) := by
  have hstop : ¬(p = last ∧ run.toNat < 255) := by
    rintro ⟨rfl, hlt⟩
    obtain rfl := hturn.resolve_left (not_not_intro rfl)
    exact absurd hlt (by decide)
  rw [encPix_flushes hstop, encFlush_pending last run hrun]

/-- A run below the cap grows without wrapping (40_encoder R112). -/
theorem run_grow_toNat {run : Byte} (h : run.toNat < 255) : (run + 1).toNat = run.toNat + 1 := by
  bv_omega

/-- Settles O8: the two branches of `enc_pix`, and `enc_flush` by definition. -/
theorem encoderFunctions : Obligations.EncoderFunctions := by
  unfold Obligations.EncoderFunctions
  intro last p run
  refine ⟨?_, encPix_turn last p run, rfl⟩
  rintro ⟨rfl, hlt⟩
  exact ⟨encPix_grow p run hlt, run_grow_toNat hlt⟩

/-- Settles O9: with nothing pending the first pixel starts a run, whatever colour was kept. -/
theorem pendingColourIrrelevantAtZero : Obligations.PendingColourIrrelevantAtZero :=
  ⟨encPix_zero, encodedStream_zero⟩

/-! ### The expansion of the stream -/

/-- Settles O11: with nothing pending the runs expand to the pixels alone, and lengths are counted by the expansion. -/
theorem streamExpandsToPixels : Obligations.StreamExpandsToPixels := by
  unfold Obligations.StreamExpandsToPixels
  intro last pixels
  have hexpand : expand (encodedStream last 0 pixels) = pixels := expand_encodedStream last 0 pixels
  exact ⟨hexpand, by rw [totalLength_eq, hexpand]⟩

/-! ### The emitted runs -/

/-- An encoder step followed by the rest: the pixel continues the pending run, starts the first one, or restarts. -/
theorem encodedStream_cons_cases (last p : Pixel) (run : Byte) (ps : List Pixel) :
    (p = last ∧ run.toNat < 255 ∧ encodedStream last run (p :: ps) = encodedStream p (run + 1) ps) ∨
    (run = 0 ∧ encodedStream last run (p :: ps) = encodedStream p 1 ps) ∨
    (run ≠ 0 ∧ (p ≠ last ∨ run = 255) ∧
      encodedStream last run (p :: ps) = ⟨run, last⟩ :: encodedStream p 1 ps) := by
  rw [encodedStream]
  rcases encPix_cases last p run with ⟨rfl, hlt, e⟩ | ⟨h0, e⟩ | ⟨hrun, hturn, e⟩
  all_goals rw [e]
  · exact .inl ⟨rfl, hlt, rfl⟩
  · exact .inr (.inl ⟨h0, rfl⟩)
  · exact .inr (.inr ⟨hrun, hturn, rfl⟩)

/-- No run of length 0 is emitted (40_encoder R118 (b)). -/
theorem encodedStream_len_ne_zero (last : Pixel) (run : Byte) (ps : List Pixel) :
    ∀ r ∈ encodedStream last run ps, r.len ≠ 0 := by
  induction ps generalizing last run with
  | nil =>
    by_cases h0 : run = 0
    · subst h0
      exact fun _ hr => nomatch hr
    · rw [encodedStream, encFlush_pending last run h0]
      rintro r hr
      obtain rfl := List.mem_singleton.1 hr
      exact h0
  | cons p ps ih =>
    rcases encodedStream_cons_cases last p run ps with ⟨_, _, e⟩ | ⟨_, e⟩ | ⟨hrun, _, e⟩
    all_goals rw [e]
    · exact ih p (run + 1)
    · exact ih p 1
    · exact List.forall_mem_cons.2 ⟨hrun, ih p 1⟩

/-- A run of the colour of the one before it follows a full run (40_encoder R118 (d)). -/
theorem encodedStream_capped (last : Pixel) (run : Byte) (ps : List Pixel) :
    cappedBeforeRepeat (encodedStream last run ps) := by
  induction ps generalizing last run with
  | nil =>
    by_cases h0 : run = 0
    · subst h0
      trivial
    · rw [encodedStream, encFlush_pending last run h0]
      trivial
  | cons p ps ih =>
    rcases encodedStream_cons_cases last p run ps with ⟨_, _, e⟩ | ⟨_, e⟩ | ⟨_, hturn, e⟩
    all_goals rw [e]
    · exact ih p (run + 1)
    · exact ih p 1
    · obtain ⟨r, rs, hstream, hcolor⟩ := encodedStream_head p 1 (by decide) ps
      have hrest := ih p 1
      rw [hstream] at hrest ⊢
      exact ⟨fun hsame => hturn.resolve_left (not_not_intro (hcolor.symm.trans hsame.symm)), hrest⟩

/-- Settles O12: the lengths fit a byte and none is 0; the colours are capped from any pending run on. -/
theorem streamIsCanonical : Obligations.StreamIsCanonical := by
  unfold Obligations.StreamIsCanonical
  intro last pixels
  refine ⟨fun r hr => ?_, encodedStream_capped last 0 pixels⟩
  have hne := encodedStream_len_ne_zero last 0 pixels r hr
  bv_omega

/-! ### Blocks of equal pixels -/

/-- The runs of `m` equal pixels: as many full ones as fit, and one of the rest (40_encoder R118 (e)). -/
def blockRuns (c : Pixel) (m : Nat) : List Run :=
  List.replicate (m / 255) ⟨255, c⟩ ++ (if 0 < m % 255 then [⟨BitVec.ofNat 8 (m % 255), c⟩] else [])

/-- A full run more. -/
theorem blockRuns_add_full (c : Pixel) (m : Nat) : blockRuns c (255 + m) = ⟨255, c⟩ :: blockRuns c m := by
  rw [blockRuns, blockRuns, show (255 + m) / 255 = m / 255 + 1 by omega, show (255 + m) % 255 = m % 255 by omega,
    List.replicate_succ, List.cons_append]

/-- One pending run is what the flush emits of it. -/
theorem blockRuns_pending (c : Pixel) (run : Byte) : blockRuns c run.toNat = (encFlush c run).2.toList := by
  by_cases hfull : run = 255
  · subst hfull
    rfl
  · have hlt : run.toNat < 255 := by bv_omega
    rw [blockRuns, encFlush, Nat.div_eq_of_lt hlt, Nat.mod_eq_of_lt hlt, BitVec.ofNat_toNat, BitVec.setWidth_eq]
    split <;> rfl

/-- Equal pixels after a pending run of their colour: the cap alone cuts the block (40_encoder R114). -/
theorem encodedStream_replicate_pending (c : Pixel) (run : Byte) (m : Nat) :
    encodedStream c run (List.replicate m c) = blockRuns c (run.toNat + m) := by
  induction m generalizing run with
  | zero => exact (blockRuns_pending c run).symm
  | succ m ih =>
    rw [List.replicate_succ]
    rcases encodedStream_cons_cases c c run (List.replicate m c) with ⟨_, hlt, e⟩ | ⟨rfl, e⟩ | ⟨_, hturn, e⟩
    all_goals rw [e, ih]
    · rw [run_grow_toNat hlt, Nat.add_right_comm, Nat.add_assoc]
    · refine congrArg (blockRuns c) (?_ : 1 + m = 0 + (m + 1))
      omega
    · obtain rfl := hturn.resolve_left (not_not_intro rfl)
      rw [← blockRuns_add_full]
      refine congrArg (blockRuns c) (?_ : 255 + (1 + m) = 255 + (m + 1))
      omega

/-- A block of equal pixels by itself. -/
theorem encodedStream_replicate (last c : Pixel) (m : Nat) :
    encodedStream last 0 (List.replicate m c) = blockRuns c m := by
  rw [encodedStream_zero last c, encodedStream_replicate_pending]
  exact congrArg (blockRuns c) (Nat.zero_add m)

/-- Settles O10: at the cap the 256th pixel restarts the run, below it a pixel emits nothing, and the blocks of 255 and
256 pixels are cut by the cap alone. -/
theorem capPolicy : Obligations.CapPolicy := by
  unfold Obligations.CapPolicy
  intro c
  refine ⟨encPix_restart (by decide) (.inr rfl), fun run hlt => ?_, rfl, fun last => ⟨?_, ?_⟩⟩
  · rw [encPix_grow c run hlt]
  · exact encodedStream_replicate last c 255
  · exact encodedStream_replicate last c 256

/-! ### Where the colour changes -/

/-- A pixel that does not continue the pending run finds it flushed. -/
theorem encodedStream_flush {last : Pixel} (run : Byte) {ps : List Pixel} (h : ps.head? ≠ some last) :
    encodedStream last run ps = (encFlush last run).2.toList ++ encodedStream last 0 ps := by
  cases ps with
  | nil => exact (List.append_nil _).symm
  | cons p ps =>
    have hp : p ≠ last := fun heq => h (congrArg some heq)
    rw [encodedStream, encodedStream, encPix_flushes fun hgrow => hp hgrow.1, encPix_zero]
    rfl

/-- The stream of two sequences of pixels is that of each, where the second does not begin with the colour the first
leaves pending. -/
theorem encodedStream_append (last : Pixel) (run : Byte) {xs ys : List Pixel} (h : ys.head? ≠ some (xs.getLastD last)) :
    encodedStream last run (xs ++ ys) = encodedStream last run xs ++ encodedStream last 0 ys := by
  induction xs generalizing last run with
  | nil => exact encodedStream_flush run h
  | cons x xs ih =>
    rw [List.getLastD_cons] at h
    rw [List.cons_append, encodedStream, encodedStream, encPix_last, ih x _ h, encodedStream_zero last x ys,
      List.append_assoc]

/-- Settles O13: the colour changes where the block begins and where it ends, so the stream is cut there. -/
theorem maximalBlockRuns : Obligations.MaximalBlockRuns := by
  unfold Obligations.MaximalBlockRuns
  intro last c before after m hm hbefore hafter
  obtain ⟨n, rfl⟩ : ∃ n, m = n + 1 := ⟨m - 1, by omega⟩
  have hblock : encodedStream last 0 (List.replicate (n + 1) c ++ after) =
      blockRuns c (n + 1) ++ encodedStream last 0 after := by
    rw [encodedStream_append last 0 (by simpa [List.getLast?_replicate] using hafter), encodedStream_replicate]
  rw [List.append_assoc, List.append_assoc, ← blockRuns, ← hblock]
  cases before with
  | nil => rfl
  | cons p ps =>
    refine encodedStream_append last 0 fun hhead => hbefore ?_
    rw [List.getLast?_cons, ← List.getLastD_eq_getLast?, ← List.getLastD_cons]
    exact hhead.symm

end Sys2Proof.Machine
end

section
/-! PROOFS. The encode path as a whole: every case of `ENC_PIX` (spec/40_encoder.md R116), what an encode operation leaves
in the sink (spec/41_container_writer.md R136), and that it depends on the operands alone (40_encoder R120). -/

namespace Sys2Proof.Machine

/-! ### One pixel -/

section OnePixel

variable {s : State} {r g b run : Byte} {last : Pixel} (hp : s.encPhase = .body)

include hp

/-- A pixel that emits no run touches the registers alone (40_encoder R116). -/
theorem execEncPix_silent (e : encPix s.encLast s.encRun ⟨r, g, b⟩ = (last, run, none)) :
    execEncPix r g b s = .next { s with encLast := last, encRun := run, resp := .none } := by
  rw [execEncPix, if_neg (not_not_intro hp), e]

variable {out : Run} (e : encPix s.encLast s.encRun ⟨r, g, b⟩ = (last, run, some out))

include e

/-- A pixel that emits a run appends its record (40_encoder R116). -/
theorem execEncPix_emits (hio : ioGood s = true) (hfit : s.wrLen.toNat + 4 < 2 ^ 64) :
    execEncPix r g b s =
      .next { appendCout (serRec out) s with encLast := last, encRun := run, resp := .none } := by
  have hfits : coutFits Config.recLen s = true := (coutFits_iff 4 s).2 hfit
  rw [execEncPix, if_neg (not_not_intro hp), e]
  simp only [hio, hfits, Bool.true_eq_false, if_false]

/-- A pixel that would emit a run fails with the sink (40_encoder R116). -/
theorem execEncPix_io_error (hio : ioGood s = false) : execEncPix r g b s = .next (encIoError s) := by
  rw [execEncPix, if_neg (not_not_intro hp), e]
  exact if_pos hio

end OnePixel

/-- The unused operand bits of `ENC_PIX` do not matter (30_encoding R90). -/
theorem decode_encPix_unused (unused : BitVec 40) (r g b : Byte) :
    decode (.command (0x2#4 ++ (unused ++ (b ++ (g ++ r))))) = .ok (.encPix r g b) := by
  obtain ⟨-, hunused, -, -⟩ := unassignedCodesAndUnusedBits
  have hkept : ∀ u : BitVec 40, (u ++ (b ++ (g ++ r))).extractLsb' 0 24 = b ++ (g ++ r) := fun u => by
    rw [field_low _ _ _ _ (by omega), field_all]
  exact (hunused _ (0#40 ++ (b ++ (g ++ r))) ((hkept unused).trans (hkept 0#40).symm)).trans (decode_encode_encPix r g b)

/-- Settles O15: by what `enc_pix` returns; only a pixel that emits a run consults `io_ok`. -/
theorem encPixResult : Obligations.EncPixResult := by
  unfold Obligations.EncPixResult
  intro r g b s
  refine ⟨fun unused => decode_encPix_unused unused r g b, fun hp => if_pos hp, fun hp hsame hlt => ?grow,
    fun hp h0 => ?start, fun hp hrun hturn hio hfit => ?emit, fun hp hrun hturn hio => ?fail⟩
  case grow =>
    have e := encPix_grow s.encLast s.encRun hlt
    exact execEncPix_silent hp (by rw [hsame, e])
  case start =>
    exact execEncPix_silent hp (by rw [h0, encPix_zero])
  case emit => exact execEncPix_emits hp (encPix_restart hrun hturn) hio hfit
  case fail => exact ⟨_, _, execEncPix_io_error hp (encPix_restart hrun hturn) hio⟩

/-! ### A sequence of pixels -/

/-- Nothing appended. -/
@[simp] theorem appendCout_nil (s : State) : appendCout [] s = s := by
  simp [appendCout, Memory.writeBytes]

/-- Bytes that fit the sink move `wr_len` by their number, without wrapping (41_container_writer R133). -/
theorem appendCout_wrLen_toNat {bytes : List Byte} {s : State} (h : s.wrLen.toNat + bytes.length < 2 ^ 64) :
    (appendCout bytes s).wrLen.toNat = s.wrLen.toNat + bytes.length := by
  rw [appendCout_wrLen, BitVec.toNat_add, BitVec.toNat_ofNat]
  omega

/-- Two byte sequences appended one after the other, the first fitting the sink. -/
theorem appendCout_append {xs : List Byte} (ys : List Byte) {s : State} (h : s.wrLen.toNat + xs.length < 2 ^ 64) :
    appendCout (xs ++ ys) s = appendCout ys (appendCout xs s) := by
  have hlen := appendCout_wrLen_toNat h
  rw [appendCout_wrLen] at hlen
  simp only [appendCout, List.length_append, Memory.writeBytes_append, hlen, BitVec.ofNat_add, BitVec.add_assoc]

theorem flatMap_serRec_length (runs : List Run) : (runs.flatMap serRec).length = 4 * runs.length := by
  simp [List.length_flatMap, Nat.mul_comm]

section Operation

variable {s : State} (hp : s.encPhase = .body) (hio : ioGood s = true)

include hp hio

/-- One pixel, the sink having room for what it emits. -/
theorem exec_encPix_room (p : Pixel)
    (hroom : s.wrLen.toNat + 4 * (encPix s.encLast s.encRun p).2.2.toList.length < 2 ^ 64) :
    exec (.encPix p.r p.g p.b) s =
      .next { appendCout ((encPix s.encLast s.encRun p).2.2.toList.flatMap serRec) s with
        encLast := p, encRun := (encPix s.encLast s.encRun p).2.1, resp := .none } := by
  show execEncPix p.r p.g p.b s = _
  have hlast := encPix_last s.encLast p s.encRun
  rcases hpix : encPix s.encLast s.encRun p with ⟨last, run, out⟩
  rw [hpix] at hroom hlast
  obtain rfl : last = p := hlast
  cases out with
  | none =>
    rw [execEncPix_silent hp hpix]
    simp
  | some out =>
    rw [execEncPix_emits hp hpix hio hroom]
    simp

/-- The flush, the sink having room for the pending run. -/
theorem exec_encEnd_room (hroom : s.wrLen.toNat + 4 * (encFlush s.encLast s.encRun).2.toList.length < 2 ^ 64) :
    exec .encEnd s =
      .next { appendCout ((encFlush s.encLast s.encRun).2.toList.flatMap serRec) s with
        encRun := 0, encPhase := .done, resp := .none } := by
  show execEncEnd s = _
  rcases execEncEnd_cases s with ⟨hne, _⟩ | ⟨_, hbad, _⟩ | ⟨_, _, h0, e⟩ | ⟨_, _, hrun, hfull, _⟩ | ⟨_, _, hrun, _, e⟩
  · exact absurd hp hne
  · rw [hio] at hbad
    cases hbad
  · rw [e, h0, encFlush_zero]
    simp
  · rw [encFlush_pending _ _ hrun] at hroom
    rw [(coutFits_iff 4 s).2 hroom] at hfull
    cases hfull
  · rw [e, encFlush_pending _ _ hrun]
    simp

/-- From E_BODY, the pixels and the flush append the records of their stream (40_encoder R118). -/
theorem execAll_pixels_encEnd (ps : List Pixel)
    (hroom : s.wrLen.toNat + 4 * (encodedStream s.encLast s.encRun ps).length < 2 ^ 64) :
    execAll (ps.map (fun p => Instr.encPix p.r p.g p.b) ++ [.encEnd]) s =
      .next { appendCout ((encodedStream s.encLast s.encRun ps).flatMap serRec) s with
        encLast := ps.getLastD s.encLast, encRun := 0, encPhase := .done, resp := .none } := by
  induction ps generalizing s with
  | nil =>
    rw [List.map_nil, List.nil_append, execAll, exec_encEnd_room hp hio hroom]
    rfl
  | cons p ps ih =>
    rw [encodedStream, List.length_append, encPix_last] at hroom
    have hfits : s.wrLen.toNat + ((encPix s.encLast s.encRun p).2.2.toList.flatMap serRec).length < 2 ^ 64 := by
      rw [flatMap_serRec_length]
      omega
    rw [List.map_cons, List.cons_append, execAll, exec_encPix_room hp hio p (by omega)]
    refine (ih (by exact hp) (by exact hio) ?_).trans ?_
    · show (appendCout _ s).wrLen.toNat + 4 * (encodedStream p (encPix s.encLast s.encRun p).2.1 ps).length < 2 ^ 64
      rw [appendCout_wrLen_toNat hfits, flatMap_serRec_length]
      omega
    · rw [encodedStream, List.flatMap_append, appendCout_append _ hfits, encPix_last, List.getLastD_cons]
      rfl

end Operation

/-- A whole encode operation leaves the container of its stream in the sink (41_container_writer R136). -/
theorem execAll_encodeCommands (w h : Dim) (ps : List Pixel) {s : State} (hp : s.encPhase ≠ .body)
    (hio : ioGood s = true) (hps : ps.length < 2 ^ 62 - 2) :
    execAll (encodeCommands w h ps) s =
      .next { appendCout (containerBytes w h (encodedStream s.encLast 0 ps)) (openEncode s) with
        encLast := ps.getLastD s.encLast, encPhase := .done } := by
  have hbegin : exec (.encBegin w h) s =
      .next { appendCout (serHdr w h) (openEncode s) with encPhase := .body } := by
    rcases execEncBegin_cases w h s with ⟨hbody, _⟩ | ⟨_, hbad, _⟩ | ⟨_, _, e⟩
    · exact absurd hbody hp
    · rw [hio] at hbad
      cases hbad
    · exact e
  have hempty : (openEncode s).wrLen.toNat = 0 := rfl
  have hheader : (openEncode s).wrLen.toNat + (serHdr w h).length < 2 ^ 64 := by
    rw [hempty, serHdr_length]
    decide
  have hruns : (encodedStream s.encLast 0 ps).length ≤ ps.length := encodedStream_length s.encLast 0 ps
  rw [encodeCommands, execAll, hbegin]
  refine (execAll_pixels_encEnd (by rfl) (by exact hio) ps ?_).trans ?_
  · show (appendCout _ (openEncode s)).wrLen.toNat + 4 * (encodedStream s.encLast 0 ps).length < 2 ^ 64
    rw [appendCout_wrLen_toNat hheader, hempty, serHdr_length]
    omega
  · rw [containerBytes, appendCout_append _ hheader]
    rfl

/-- Settles O57: what an operation leaves names nothing of the state before it but the colour kept, which does not matter
to the stream. -/
theorem encodeDeterministic : Obligations.EncodeDeterministic := by
  unfold Obligations.EncodeDeterministic
  intro w h pixels s s' hp hp' hio hio' hps
  refine ⟨_, _, execAll_encodeCommands w h pixels hp hio hps, execAll_encodeCommands w h pixels hp' hio' hps, ?_⟩
  rw [encodedStream_zero s.encLast s'.encLast]
  exact ⟨rfl, rfl, rfl⟩

end Sys2Proof.Machine
end

section
/-! PROOFS. The container writer (spec/41_container_writer.md): every case of `ENC_BEGIN` (R134) and `ENC_END` (R135), and
what the host finds in the sink after an encode operation (R136, 70_reset_and_hazards R235). -/

namespace Sys2Proof.Machine

/-! ### The two commands -/

/-- Settles O14: by the branches of `ENC_BEGIN`; the header goes to the emptied sink, at offset 0. -/
theorem encBeginResult : Obligations.EncBeginResult := by
  unfold Obligations.EncBeginResult
  intro w h s
  refine ⟨decode_encode_encBegin w h, fun hp => if_pos hp, fun hp hio => ?accepted, fun hp hio => ?fail⟩
  case accepted =>
    have hgood : ioGood s ≠ false := by simp [hio]
    exact (if_neg hp).trans (if_neg hgood)
  case fail => exact ⟨_, _, (if_neg hp).trans (if_pos hio)⟩

/-- Settles O16: by the branches of `ENC_END`; `io_ok` is consulted before the pending run is looked at. -/
theorem encEndResult : Obligations.EncEndResult := by
  unfold Obligations.EncEndResult
  intro s
  refine ⟨decode_encEnd_word, fun hp => if_pos hp, fun hp hio h0 => ?nothing, fun hp hio hrun hfit => ?pending,
    fun hp hio => ?fail⟩
  case nothing =>
    have hroom : s.wrLen.toNat + 4 * (encFlush s.encLast s.encRun).2.toList.length < 2 ^ 64 := by
      rw [h0, encFlush_zero]
      exact s.wrLen.isLt
    rw [exec_encEnd_room hp hio hroom, h0, encFlush_zero]
    simp
  case pending =>
    have hflush := encFlush_pending s.encLast s.encRun hrun
    rw [exec_encEnd_room hp hio (by rw [hflush]; exact hfit), hflush]
    rfl
  case fail => exact ⟨_, _, (if_neg (not_not_intro hp)).trans (if_pos hio)⟩

/-! ### The sink as the host reads it -/

theorem containerBytes_length (w h : Dim) (runs : List Run) :
    (containerBytes w h runs).length = 8 + 4 * runs.length := by
  rw [containerBytes, List.length_append, serHdr_length, flatMap_serRec_length]

/-- Outside E_DONE the host may rely on no byte of the sink (70_reset_and_hazards R235). -/
theorem sinkByte_of_not_done {s : State} (a : Nat) (hp : s.encPhase ≠ .done) : sinkByte s a = none :=
  if_neg fun h => hp h.1

/-- At and beyond `wr_len` the sink has no byte (41_container_writer R136). -/
theorem sinkByte_of_wrLen_le {s : State} {a : Nat} (ha : s.wrLen.toNat ≤ a) : sinkByte s a = none :=
  if_neg fun h => Nat.not_lt.2 ha h.2

/-- In E_DONE the host finds in the sink the container that was written (41_container_writer R136). -/
theorem sinkByte_of_done {s : State} {bytes : List Byte} {a : Nat} (hp : s.encPhase = .done)
    (hcout : s.cout = containerOf bytes) (ha : a < s.wrLen.toNat) : sinkByte s a = some (bytes.getD a 0) := by
  rw [sinkByte, if_pos ⟨hp, ha⟩, hcout, containerOf_read]

/-- Settles O56: an operation appends its container to the emptied sink and leaves the decode path and the inputs alone;
the host reads that sink in E_DONE. -/
theorem encodeOperation : Obligations.EncodeOperation := by
  unfold Obligations.EncodeOperation
  refine ⟨fun w h pixels s hp hio hpixels => ?_, fun s a hp => sinkByte_of_not_done a hp⟩
  have hrun := execAll_encodeCommands w h pixels hp hio hpixels
  have hruns : (encodedStream s.encLast 0 pixels).length ≤ pixels.length := encodedStream_length s.encLast 0 pixels
  generalize encodedStream s.encLast 0 pixels = runs at hrun hruns ⊢
  have hempty : (openEncode s).wrLen.toNat = 0 := rfl
  have hlen : (appendCout (containerBytes w h runs) (openEncode s)).wrLen.toNat = 8 + 4 * runs.length := by
    rw [appendCout_wrLen_toNat, hempty, containerBytes_length, Nat.zero_add]
    rw [hempty, containerBytes_length]
    omega
  refine ⟨_, hrun, rfl, rfl, rfl, hlen, rfl, ?decodePath, ?inputs, rfl, fun a ha => ?below, fun a ha => ?beyond⟩
  case decodePath => exact ⟨rfl, rfl, rfl, rfl, rfl, rfl, rfl, rfl, rfl, rfl, rfl⟩
  case inputs => exact ⟨rfl, rfl, rfl, rfl, rfl⟩
  case below => exact sinkByte_of_done rfl rfl ha
  case beyond => exact sinkByte_of_wrLen_le ha

end Sys2Proof.Machine
end

section
/-! PROOFS. The container reader (spec/42_container_reader.md): the parsers against the serializers (R151, R152), `rd_check`
(R153), and every case of `DEC_BEGIN` (R154). -/

namespace Sys2Proof

/-! ### The parsers -/

/-- Serializing a parsed header gives its bytes back (42_container_reader R151). -/
theorem serHdr_parHdr : ∀ {bytes : List Byte}, bytes.length = 8 → serHdr (parHdr bytes).1 (parHdr bytes).2 = bytes
  | [b0, b1, b2, b3, b4, b5, b6, b7], _ => congrArg₂ (· ++ ·) (bytes_le32 b0 b1 b2 b3) (bytes_le32 b4 b5 b6 b7)

/-- Serializing a parsed record gives its bytes back (42_container_reader R152). -/
theorem serRec_parRec : ∀ {bytes : List Byte}, bytes.length = 4 → serRec (parRec bytes) = bytes
  | [_, _, _, _], _ => rfl

end Sys2Proof

namespace Sys2Proof.Machine

/-- Settles O5: `le32` and `bytes_le32` are inverse to each other on each of the two fields. -/
theorem headerParserInvertsSerializer : Obligations.HeaderParserInvertsSerializer := by
  unfold Obligations.HeaderParserInvertsSerializer
  exact ⟨fun _ _ _ _ _ _ _ _ => rfl, fun _ _ => rfl, parHdr_serHdr, fun _ => serHdr_parHdr,
    by decide, by decide, by decide, by decide⟩

/-- Settles O6: a record is its four bytes. -/
theorem recordParserInvertsSerializer : Obligations.RecordParserInvertsSerializer := by
  unfold Obligations.RecordParserInvertsSerializer
  exact ⟨fun _ _ _ _ => rfl, fun _ => rfl, parRec_serRec, fun _ => serRec_parRec, rfl, rfl, rfl, rfl⟩

/-! ### The header item -/

theorem pixelCount_eq_ofNat (w h : Dim) : pixelCount w h = BitVec.ofNat 64 (w.toNat * h.toNat) := by
  rw [← pixelCount_toNat, BitVec.ofNat_toNat, BitVec.setWidth_eq]

/-- Dimensions beyond the capacity are DIMS (42_container_reader R154). -/
theorem consumeHeader_dims {w h : Dim} {s : State} (hcap : s.par.pixbufCap.toNat < w.toNat * h.toNat) :
    consumeHeader w h s = decBeginFault .formatError .dims { s with decW := w, decH := h, decNpix := pixelCount w h } :=
  ((consumeHeader_cases w h s).resolve_right fun ⟨hfits, _⟩ => Nat.not_lt.2 hfits hcap).2

/-- Dimensions within the capacity are taken (42_container_reader R154). -/
theorem consumeHeader_taken {w h : Dim} {s : State} (hcap : w.toNat * h.toNat ≤ s.par.pixbufCap.toNat) :
    consumeHeader w h s = { s with
      decW := w, decH := h, decNpix := pixelCount w h, pixbuf := [], decCursor := 0, rdOff := 8, decPhase := .body } :=
  ((consumeHeader_cases w h s).resolve_left fun ⟨hexceeds, _⟩ => Nat.not_lt.2 hcap hexceeds).2

/-! ### `rd_check` -/

section RdCheck

variable {cap clen : Cnt} {bytes : List Byte} {w h : Dim}

theorem rdCheck_short (h8 : clen.toNat < 8) : rdCheck cap clen bytes = .error .short := if_pos h8

theorem rdCheck_unaligned (h8 : 8 ≤ clen.toNat) (h4 : (clen.toNat - 8) % 4 ≠ 0) :
    rdCheck cap clen bytes = .error .unaligned := (if_neg (Nat.not_lt.2 h8)).trans (if_pos h4)

/-- With the length in order `rd_check` compares the exact product with the capacity (42_container_reader R153). -/
theorem rdCheck_of_length (h8 : 8 ≤ clen.toNat) (h4 : (clen.toNat - 8) % 4 = 0) (hhdr : parHdr bytes = (w, h)) :
    rdCheck cap clen bytes =
      if cap.toNat < w.toNat * h.toNat then .error .dims else .ok (w, h, pixelCount w h) := by
  rw [← pixelCount_toNat, rdCheck, hhdr]
  exact (if_neg (Nat.not_lt.2 h8)).trans (if_neg (not_not_intro h4))

theorem rdCheck_dims (h8 : 8 ≤ clen.toNat) (h4 : (clen.toNat - 8) % 4 = 0) (hhdr : parHdr bytes = (w, h))
    (hcap : cap.toNat < w.toNat * h.toNat) : rdCheck cap clen bytes = .error .dims :=
  (rdCheck_of_length h8 h4 hhdr).trans (if_pos hcap)

theorem rdCheck_ok (h8 : 8 ≤ clen.toNat) (h4 : (clen.toNat - 8) % 4 = 0) (hhdr : parHdr bytes = (w, h))
    (hcap : w.toNat * h.toNat ≤ cap.toNat) : rdCheck cap clen bytes = .ok (w, h, pixelCount w h) :=
  (rdCheck_of_length h8 h4 hhdr).trans (if_neg (Nat.not_lt.2 hcap))

end RdCheck

/-! ### `DEC_BEGIN` -/

theorem lengthTrue_ne_false {clen : Cnt} {s : State} (hlen : clen.toNat = s.cinLen) : lengthTrue clen s ≠ false := by
  simp [lengthTrue, hlen]

section Accepted

variable {clen : Cnt} {s : State} (hp : s.decPhase ≠ .body) (hlen : clen.toNat = s.cinLen)
include hp hlen

theorem exec_decBegin_io_error (hio : ioGood s = false) :
    exec (.decBegin clen) s = .next (decBeginFault .ioError .none (openDecode clen s)) :=
  (if_neg hp).trans ((if_neg (lengthTrue_ne_false hlen)).trans (if_pos hio))

variable (hio : ioGood s = true)
include hio

/-- The source readable, an accepted `DEC_BEGIN` is its three format checks (42_container_reader R154). -/
theorem exec_decBegin_readable : exec (.decBegin clen) s =
    if clen.toNat < 8 then .next (decBeginFault .formatError .short (openDecode clen s))
    else if (clen.toNat - 8) % 4 ≠ 0 then .next (decBeginFault .formatError .unaligned (openDecode clen s))
    else .next (consumeHeader (parHdr (s.cin.readBytes 0 8)).1 (parHdr (s.cin.readBytes 0 8)).2 (openDecode clen s)) := by
  have hgood : ioGood s ≠ false := by simp [hio]
  exact (if_neg hp).trans ((if_neg (lengthTrue_ne_false hlen)).trans (if_neg hgood))

theorem exec_decBegin_short (h8 : clen.toNat < 8) :
    exec (.decBegin clen) s = .next (decBeginFault .formatError .short (openDecode clen s)) :=
  (exec_decBegin_readable hp hlen hio).trans (if_pos h8)

variable (h8 : 8 ≤ clen.toNat)
include h8

theorem exec_decBegin_unaligned (h4 : (clen.toNat - 8) % 4 ≠ 0) :
    exec (.decBegin clen) s = .next (decBeginFault .formatError .unaligned (openDecode clen s)) :=
  (exec_decBegin_readable hp hlen hio).trans ((if_neg (Nat.not_lt.2 h8)).trans (if_pos h4))

variable (h4 : (clen.toNat - 8) % 4 = 0) {w h : Dim} (hhdr : parHdr (s.cin.readBytes 0 8) = (w, h))
include h4 hhdr

theorem exec_decBegin_header : exec (.decBegin clen) s = .next (consumeHeader w h (openDecode clen s)) := by
  rw [exec_decBegin_readable hp hlen hio, hhdr]
  exact (if_neg (Nat.not_lt.2 h8)).trans (if_neg (not_not_intro h4))

theorem exec_decBegin_dims (hcap : s.par.pixbufCap.toNat < w.toNat * h.toNat) :
    exec (.decBegin clen) s = .next (decBeginFault .formatError .dims { openDecode clen s with
      decW := w, decH := h, decNpix := pixelCount w h }) :=
  (exec_decBegin_header hp hlen hio h8 h4 hhdr).trans (congrArg Host.Outcome.next (consumeHeader_dims hcap))

theorem exec_decBegin_taken (hcap : w.toNat * h.toNat ≤ s.par.pixbufCap.toNat) :
    exec (.decBegin clen) s = .next { openDecode clen s with
      decW := w, decH := h, decNpix := pixelCount w h, pixbuf := [], decCursor := 0, rdOff := 8, decPhase := .body } :=
  (exec_decBegin_header hp hlen hio h8 h4 hhdr).trans (congrArg Host.Outcome.next (consumeHeader_taken hcap))

end Accepted

/-- Settles O18: by the checks of `DEC_BEGIN` in their order; each fault is raised on the registers already cleared. -/
theorem decBeginResult : Obligations.DecBeginResult := by
  unfold Obligations.DecBeginResult
  intro clen s
  refine ⟨decode_decBegin_word clen, fun hp => if_pos hp, fun hp hlen hio => ?ioError, fun hp hlen hio h8 => ?short,
    fun hp hlen hio h8 h4 => ?unaligned, fun w h hp hlen hio h8 h4 hhdr hcap => ?dims,
    fun w h hp hlen hio h8 h4 hhdr hcap => ?taken⟩
  case ioError => exact ⟨_, exec_decBegin_io_error hp hlen hio⟩
  case short => exact ⟨_, exec_decBegin_short hp hlen hio h8⟩
  case unaligned => exact ⟨_, exec_decBegin_unaligned hp hlen hio h8 h4⟩
  case dims =>
    rw [← pixelCount_eq_ofNat]
    exact ⟨_, exec_decBegin_dims hp hlen hio h8 h4 hhdr hcap⟩
  case taken =>
    rw [← pixelCount_eq_ofNat]
    exact exec_decBegin_taken hp hlen hio h8 h4 hhdr hcap

/-! ### `DEC_BEGIN` against `rd_check` -/

/-- Everything `rd_check` can answer. -/
theorem rdCheck_cases (cap clen : Cnt) {bytes : List Byte} {w h : Dim} (hhdr : parHdr bytes = (w, h)) :
    (clen.toNat < 8 ∧ rdCheck cap clen bytes = .error .short) ∨
    (8 ≤ clen.toNat ∧ (clen.toNat - 8) % 4 ≠ 0 ∧ rdCheck cap clen bytes = .error .unaligned) ∨
    (8 ≤ clen.toNat ∧ (clen.toNat - 8) % 4 = 0 ∧ cap.toNat < w.toNat * h.toNat ∧
      rdCheck cap clen bytes = .error .dims) ∨
    (8 ≤ clen.toNat ∧ (clen.toNat - 8) % 4 = 0 ∧ w.toNat * h.toNat ≤ cap.toNat ∧
      rdCheck cap clen bytes = .ok (w, h, pixelCount w h)) := by
  rcases Nat.lt_or_ge clen.toNat 8 with h8 | h8
  · exact .inl ⟨h8, rdCheck_short h8⟩
  · by_cases h4 : (clen.toNat - 8) % 4 = 0
    · rcases Nat.lt_or_ge cap.toNat (w.toNat * h.toNat) with hcap | hcap
      · exact .inr (.inr (.inl ⟨h8, h4, hcap, rdCheck_dims h8 h4 hhdr hcap⟩))
      · exact .inr (.inr (.inr ⟨h8, h4, hcap, rdCheck_ok h8 h4 hhdr hcap⟩))
    · exact .inr (.inl ⟨h8, h4, rdCheck_unaligned h8 h4⟩)

section Follows

variable {clen : Cnt} {s : State} (hp : s.decPhase ≠ .body) (hlen : clen.toNat = s.cinLen) (hio : ioGood s = true)
include hp hlen hio

/-- `DEC_BEGIN` raises the FormatError that `rd_check` finds (42_container_reader R153, R154). -/
theorem exec_decBegin_of_rdCheck_error {sub : SubReason}
    (hcheck : rdCheck s.par.pixbufCap clen (s.cin.readBytes 0 8) = .error sub) :
    ∃ u, exec (.decBegin clen) s = .next (decBeginFault .formatError sub u) := by
  rcases rdCheck_cases s.par.pixbufCap clen (bytes := s.cin.readBytes 0 8) rfl with
    ⟨h8, e⟩ | ⟨h8, h4, e⟩ | ⟨h8, h4, hcap, e⟩ | ⟨_, _, _, e⟩
  all_goals cases hcheck.symm.trans e
  · exact ⟨_, exec_decBegin_short hp hlen hio h8⟩
  · exact ⟨_, exec_decBegin_unaligned hp hlen hio h8 h4⟩
  · exact ⟨_, exec_decBegin_dims hp hlen hio h8 h4 rfl hcap⟩

/-- `DEC_BEGIN` takes the container that `rd_check` finds in order (42_container_reader R153, R154). -/
theorem exec_decBegin_of_rdCheck_ok {w h : Dim} {npix : Cnt}
    (hcheck : rdCheck s.par.pixbufCap clen (s.cin.readBytes 0 8) = .ok (w, h, npix)) :
    exec (.decBegin clen) s = .next { openDecode clen s with
      decW := w, decH := h, decNpix := npix, pixbuf := [], decCursor := 0, rdOff := 8, decPhase := .body } := by
  rcases rdCheck_cases s.par.pixbufCap clen (bytes := s.cin.readBytes 0 8) rfl with
    ⟨_, e⟩ | ⟨_, _, e⟩ | ⟨_, _, _, e⟩ | ⟨h8, h4, hcap, e⟩
  all_goals cases hcheck.symm.trans e
  exact exec_decBegin_taken hp hlen hio h8 h4 rfl hcap

end Follows

/-- Settles O20: `rd_check` by its branches, and `DEC_BEGIN` by what `rd_check` answers. -/
theorem decBeginFollowsRdCheck : Obligations.DecBeginFollowsRdCheck := by
  unfold Obligations.DecBeginFollowsRdCheck
  refine ⟨fun cap clen bytes => ⟨rdCheck_short, rdCheck_unaligned, fun w h h8 h4 hhdr => ?header⟩,
    fun clen s hp hlen hio => ?begins⟩
  case header =>
    rw [← pixelCount_eq_ofNat]
    exact ⟨rdCheck_dims h8 h4 hhdr, fun hcap => ⟨rdCheck_ok h8 h4 hhdr hcap, pixelCount_toNat w h⟩⟩
  case begins =>
    cases hcheck : rdCheck s.par.pixbufCap clen (s.cin.readBytes 0 8) with
    | error sub =>
      obtain ⟨u, hx⟩ := exec_decBegin_of_rdCheck_error hp hlen hio hcheck
      exact ⟨_, hx, rfl, rfl, rfl⟩
    | ok found =>
      obtain ⟨w, h, npix⟩ := found
      exact ⟨_, exec_decBegin_of_rdCheck_ok hp hlen hio hcheck, rfl, rfl, rfl, rfl, rfl⟩

end Sys2Proof.Machine
end

section
/-! PROOFS. The run-length decoder (spec/43_decoder.md): `dec_run` (R172), the cases of `DEC_STEP` (R173, R174) and of
`DEC_RDPIX` (R177), and that a decode operation ends (R180). -/

namespace Sys2Proof.Machine

/-! ### `dec_run` -/

/-- A cursor that stays within the grid does not wrap (43_decoder R172). -/
theorem cursor_add_toNat {cursor npix : Cnt} {len : Byte} (hfit : cursor.toNat + len.toNat ≤ npix.toNat) :
    (cursor + len.setWidth 64).toNat = cursor.toNat + len.toNat := by
  have hnpix := npix.isLt
  rw [BitVec.toNat_add, BitVec.toNat_setWidth]
  omega

/-- Settles O21: `dec_run` by its one branch; what a fill writes is the law of the pixel memory. -/
theorem runExpansion : Obligations.RunExpansion := by
  unfold Obligations.RunExpansion
  intro cursor npix run buf hbuf hcursor
  refine ⟨fun hover => if_pos hover, fun hfit => ⟨_, _, if_neg (Nat.not_lt.2 hfit), ?_⟩⟩
  have hmoved := cursor_add_toNat (by omega : cursor.toNat + run.len.toNat ≤ npix.toNat)
  exact ⟨hmoved, by omega, fun i => PixelMemory.read_fill _ _ _ _ i hbuf⟩

/-! ### `DEC_STEP` -/

/-- A record that does not fit raises the cause alone (43_decoder R173). -/
theorem consumeRun_of_overflows {run : Run} {s : State}
    (hover : s.decNpix.toNat - s.decCursor.toNat < run.len.toNat) :
    consumeRun run s = raiseDec .outOfBounds .none s :=
  ((consumeRun_cases run s).resolve_right fun ⟨hfit, _⟩ => Nat.not_lt.2 hfit hover).2

section DecStep

variable {s : State} (hp : s.decPhase = .body)
include hp

/-- At the end of the container the operation is finished (43_decoder R174). -/
theorem exec_decStep_end (hend : s.rdOff = s.rdLen) : exec .decStep s = .next { s with decPhase := .done } := by
  have hnone : ¬ recordReady s = true := by
    rw [recordReady_iff, hend]
    omega
  exact (if_neg (not_not_intro hp)).trans ((if_neg hnone).trans (if_pos hend))

variable (hready : s.rdOff.toNat + 4 ≤ s.rdLen.toNat)
include hready

/-- With a record left it is fetched and consumed (43_decoder R173). -/
theorem exec_decStep_record :
    exec .decStep s = .next (consumeRun (parRec (s.cin.readBytes s.rdOff.toNat 4)) s) :=
  (if_neg (not_not_intro hp)).trans (if_pos ((recordReady_iff s).2 hready))

variable {run : Run} (hrec : s.cin.readBytes s.rdOff.toNat 4 = serRec run)
include hrec

/-- A record that fits is expanded at the cursor (43_decoder R173). -/
theorem exec_decStep_fits (hfit : run.len.toNat ≤ s.decNpix.toNat - s.decCursor.toNat) :
    exec .decStep s = .next { s with
      pixbuf := s.pixbuf.fill run.color s.decCursor.toNat run.len.toNat
      decCursor := s.decCursor + run.len.setWidth 64
      rdOff := s.rdOff + 4 } := by
  rw [exec_decStep_record hp hready, hrec, parRec_serRec, consumeRun_of_fits hfit]

/-- A record that does not fit is OutOfBoundsError, with nothing written (43_decoder R173). -/
theorem exec_decStep_overflows (hover : s.decNpix.toNat - s.decCursor.toNat < run.len.toNat) :
    exec .decStep s = .next (raiseDec .outOfBounds .none s) := by
  rw [exec_decStep_record hp hready, hrec, parRec_serRec, consumeRun_of_overflows hover]

end DecStep

/-- Settles O22: the four bytes are the record of the run, which fits or does not. -/
theorem decStepExecutesRecord : Obligations.DecStepExecutesRecord := by
  unfold Obligations.DecStepExecutesRecord
  intro len r g b s hp hready hbytes
  have hrec : s.cin.readBytes s.rdOff.toNat 4 = serRec ⟨len, ⟨r, g, b⟩⟩ := hbytes
  exact ⟨exec_decStep_fits hp hready hrec, exec_decStep_overflows hp hready hrec⟩

/-- Settles O23: at `rd_len` no record is left to fetch. -/
theorem decStepFinishes : Obligations.DecStepFinishes := by
  unfold Obligations.DecStepFinishes
  exact fun _ => exec_decStep_end

/-! ### `DEC_RDPIX` -/

/-- Settles O25: the word, the two branches of the read, and the fields of the response word. -/
theorem decRdpixResult : Obligations.DecRdpixResult := by
  unfold Obligations.DecRdpixResult
  intro idx s
  refine ⟨decode_decRdpix_word idx, fun hp hidx => ?answered, fun hrefused => ?refused, fun p => ?fields⟩
  case answered => exact if_pos (by simp [pixelReadable, hp, hidx])
  case refused => exact if_neg (by simpa [pixelReadable, imp_iff_not_or] using hrefused)
  case fields =>
    refine ⟨field_high _ _, ?_, ?_, ?_⟩
    · rw [pixelResponseWord, field_low _ _ _ _ (by omega), field_high]
    · rw [pixelResponseWord, field_low _ _ _ _ (by omega), field_low _ _ _ _ (by omega), field_high]
    · rw [pixelResponseWord, field_low _ _ _ _ (by omega), field_low _ _ _ _ (by omega),
        field_low _ _ _ _ (by omega), field_all]

/-! ### The end of an operation -/

/-- With `k` records left the operation has ended after `k + 1` steps at most (43_decoder R180). -/
theorem decode_ends_of_records_left (k : Nat) {s : State} (hp : s.decPhase = .body)
    (hleft : s.rdOff.toNat + 4 * k = s.rdLen.toNat) :
    ∃ n ≤ k + 1, ∃ t, execAll (List.replicate n .decStep) s = .next t ∧
      (t.decPhase = .done ∨ t.decPhase = .fault) := by
  induction k generalizing s with
  | zero =>
    refine ⟨1, Nat.le_refl _, { s with decPhase := .done }, ?_, .inl rfl⟩
    rw [List.replicate_one, execAll, exec_decStep_end hp (BitVec.eq_of_toNat_eq hleft)]
    rfl
  | succ k ih =>
    have hready : s.rdOff.toNat + 4 ≤ s.rdLen.toNat := by omega
    have hx := exec_decStep_record hp hready
    generalize parRec (s.cin.readBytes s.rdOff.toNat 4) = run at hx
    rcases consumeRun_cases run s with ⟨_, e⟩ | ⟨hfit, e⟩
    · refine ⟨1, by omega, raiseDec .outOfBounds .none s, ?_, .inr rfl⟩
      rw [List.replicate_one, execAll, hx, e]
      rfl
    · have hoff := consumeRun_rdOff_toNat hfit hready
      obtain ⟨-, -, -, -, -, -, -, hrdLen⟩ := consumeRun_frame run s
      obtain ⟨n, hn, t, hrun, hend⟩ := ih (s := consumeRun run s) (by rw [e]; exact hp)
        (by rw [hoff, hrdLen]; omega)
      refine ⟨n + 1, by omega, t, ?_, hend⟩
      rw [List.replicate_succ, execAll, hx]
      exact hrun

/-- Settles O55: in D_BODY a whole number of records is left, at most all of the container's. -/
theorem decodeEnds : Obligations.DecodeEnds := by
  unfold Obligations.DecodeEnds
  intro s hinv hp
  obtain ⟨-, -, hdec, -⟩ := hinv
  obtain ⟨-, -, -, hlen, hlen4, hoff, hle, hoff4, -, -⟩ := (decodeInv_body_iff hp).1 hdec
  obtain ⟨k, hk⟩ : ∃ k, s.rdOff.toNat + 4 * k = s.rdLen.toNat :=
    ⟨(s.rdLen.toNat - s.rdOff.toNat) / 4, by omega⟩
  obtain ⟨n, hn, hrun⟩ := decode_ends_of_records_left k hp hk
  exact ⟨n, by omega, hrun⟩

end Sys2Proof.Machine
end

section
/-! PROOFS. Whole decode operations (spec/43_decoder.md): one that fits (R175, R178), one that overflows (R176), and the
round trip through the two paths (R179). -/

namespace Sys2Proof.Machine

/-! ### Byte sequences of a memory -/

theorem Memory.readBytes_add (m : Memory) (a n k : Nat) :
    m.readBytes a (n + k) = m.readBytes a n ++ m.readBytes (a + n) k := by
  induction n generalizing a with
  | zero => rw [Nat.zero_add]; rfl
  | succ n ih => rw [Nat.succ_add, readBytes, readBytes, ih, List.cons_append, Nat.add_assoc a, Nat.add_comm 1]

/-- A memory that reads as a byte sequence has it as its bytes. -/
theorem Memory.readBytes_eq_of_read {m : Memory} {a : Nat} {bytes : List Byte}
    (h : ∀ i < bytes.length, m.read (a + i) = bytes.getD i 0) : m.readBytes a bytes.length = bytes := by
  refine List.ext_getElem (readBytes_length m a _) fun i h1 h2 => ?_
  rw [← List.getD_eq_getElem _ 0 h1, ← List.getD_eq_getElem _ 0 h2, readBytes_getD _ _ _ _ h2, h i h2]

/-- A sequence in two parts is read as its two parts. -/
theorem Memory.readBytes_eq_append {m : Memory} {a n k : Nat} {xs ys : List Byte} (hxs : xs.length = n)
    (h : m.readBytes a (n + k) = xs ++ ys) : m.readBytes a n = xs ∧ m.readBytes (a + n) k = ys := by
  rw [readBytes_add] at h
  exact List.append_inj h (by rw [readBytes_length, hxs])

/-! ### The runs of a container -/

/-- The records of the given runs lie in `m` from offset `off` on (20_memory R57). -/
def HoldsRecords (m : Memory) (off : Nat) (runs : List Run) : Prop :=
  m.readBytes off (4 * runs.length) = runs.flatMap serRec

theorem holdsRecords_append {m : Memory} {off : Nat} {xs ys : List Run} (h : HoldsRecords m off (xs ++ ys)) :
    HoldsRecords m off xs ∧ HoldsRecords m (off + 4 * xs.length) ys := by
  rw [HoldsRecords, List.length_append, Nat.mul_add, List.flatMap_append] at h
  exact Memory.readBytes_eq_append (flatMap_serRec_length xs) h

theorem holdsRecords_cons {m : Memory} {off : Nat} {run : Run} {runs : List Run}
    (h : HoldsRecords m off (run :: runs)) :
    m.readBytes off 4 = serRec run ∧ HoldsRecords m (off + 4) runs := by
  rw [HoldsRecords, List.length_cons, Nat.mul_succ, Nat.add_comm, List.flatMap_cons] at h
  exact Memory.readBytes_eq_append (serRec_length run) h

/-- A container in `CIN` is its header at offset 0 and its records from offset 8 on (20_memory R56, R57). -/
theorem container_read {m : Memory} {w h : Dim} {runs : List Run}
    (hbytes : ∀ a < 8 + 4 * runs.length, m.read a = (containerBytes w h runs).getD a 0) :
    parHdr (m.readBytes 0 8) = (w, h) ∧ HoldsRecords m 8 runs := by
  have hall : m.readBytes 0 (8 + 4 * runs.length) = serHdr w h ++ runs.flatMap serRec := by
    rw [← containerBytes_length w h runs]
    refine Memory.readBytes_eq_of_read fun i hi => ?_
    rw [containerBytes_length] at hi
    rw [Nat.zero_add, hbytes i hi]
  obtain ⟨hhdr, hrecs⟩ := Memory.readBytes_eq_append (serHdr_length w h) hall
  exact ⟨by rw [hhdr, parHdr_serHdr], hrecs⟩

/-! ### Runs filled in one after another -/

/-- The runs written to the slots from `i` up (43_decoder R178). -/
def PixelMemory.fillRuns (m : PixelMemory) : Nat → List Run → PixelMemory
  | _, [] => m
  | i, run :: runs => PixelMemory.fillRuns (m.fill run.color i run.len.toNat) (i + run.len.toNat) runs

/-- Behind the expansion of earlier runs, filling in more runs gives the expansion of all of them. -/
theorem PixelMemory.read_fillRuns {m : PixelMemory} (earlier runs : List Run) (hw : m.wf = true)
    (h : ∀ i, m.read i = expandedSlot earlier i) (i : Nat) :
    (m.fillRuns (totalLength earlier) runs).read i = expandedSlot (earlier ++ runs) i := by
  induction runs generalizing m earlier with
  | nil => rw [List.append_nil]; exact h i
  | cons run runs ih =>
    have hnext : totalLength earlier + run.len.toNat = totalLength (earlier ++ [run]) := by
      rw [totalLength_append]; rfl
    rw [fillRuns, hnext, ih (earlier ++ [run]) (fill_wf _ _ _ _ hw) (fill_expandedSlot _ _ _ hw h),
      List.append_assoc, List.singleton_append]

/-- Runs filled into the fresh buffer (43_decoder R171, R178). -/
theorem PixelMemory.read_fillRuns_empty (runs : List Run) (i : Nat) :
    (PixelMemory.fillRuns [] 0 runs).read i = (expand runs).getD i ⟨0, 0, 0⟩ :=
  read_fillRuns [] runs rfl (fun _ => rfl) i

/-! ### The records of an operation -/

/-- The decode path after it has consumed the given runs, all of which fit (43_decoder R178). -/
def runsConsumed (runs : List Run) (s : State) : State :=
  { s with
    pixbuf := s.pixbuf.fillRuns s.decCursor.toNat runs
    decCursor := s.decCursor + BitVec.ofNat 64 (totalLength runs)
    rdOff := s.rdOff + BitVec.ofNat 64 (4 * runs.length) }

/-- A sequence of instructions that answers goes on from its answer. -/
theorem execAll_append {is : List Instr} (js : List Instr) {s t : State} (h : execAll is s = .next t) :
    execAll (is ++ js) s = execAll js t := by
  induction is generalizing s with
  | nil => cases h; rfl
  | cons i is ih =>
    rw [execAll] at h
    rw [List.cons_append, execAll]
    cases hi : exec i s with
    | next u => rw [hi] at h; exact ih h
    | fault f => rw [hi] at h; cases h
    | refused r => rw [hi] at h; cases h

/-- One `DEC_STEP` for each run consumes runs that fit (43_decoder R173, R178). -/
theorem execAll_decSteps {runs : List Run} {s : State} (hp : s.decPhase = .body)
    (hrecs : HoldsRecords s.cin s.rdOff.toNat runs) (hroom : s.rdOff.toNat + 4 * runs.length ≤ s.rdLen.toNat)
    (hfit : s.decCursor.toNat + totalLength runs ≤ s.decNpix.toNat) :
    execAll (List.replicate runs.length .decStep) s = .next (runsConsumed runs s) := by
  induction runs generalizing s with
  | nil => simp [execAll, runsConsumed, PixelMemory.fillRuns, totalLength]
  | cons run runs ih =>
    obtain ⟨hrec, hrest⟩ := holdsRecords_cons hrecs
    rw [totalLength] at hfit
    rw [List.length_cons] at hroom ⊢
    have hoff : (s.rdOff + 4).toNat = s.rdOff.toNat + 4 := by bv_omega
    have hcur : (s.decCursor + run.len.setWidth 64).toNat = s.decCursor.toNat + run.len.toNat :=
      cursor_add_toNat (npix := s.decNpix) (by omega)
    rw [List.replicate_succ, execAll, exec_decStep_fits hp (by omega) hrec (by omega)]
    refine (ih (by exact hp) ?records ?room ?fit).trans ?consumed
    case records => show HoldsRecords s.cin (s.rdOff + 4).toNat runs; rwa [hoff]
    case room => show (s.rdOff + 4).toNat + 4 * runs.length ≤ s.rdLen.toNat; omega
    case fit => show (s.decCursor + run.len.setWidth 64).toNat + totalLength runs ≤ s.decNpix.toNat; omega
    case consumed =>
      simp only [runsConsumed, PixelMemory.fillRuns, totalLength, hcur, List.length_cons, Nat.mul_succ,
        Nat.add_comm _ 4, BitVec.ofNat_add, BitVec.add_assoc, BitVec.ofNat_toNat, BitVec.ofNat_eq_ofNat]

/-! ### Whole operations -/

/-- The state after `DEC_BEGIN` has taken a container with the given dimensions (42_container_reader R154). -/
def containerTaken (w h : Dim) (clen : Cnt) (s : State) : State :=
  { openDecode clen s with
    decW := w, decH := h, decNpix := pixelCount w h, pixbuf := [], decCursor := 0, rdOff := 8, decPhase := .body }

section Operation

variable {w h : Dim} {runs later : List Run} {clen : Cnt} {s : State}

/-- Within the grid the cursor is the sum of the run lengths (43_decoder R178). -/
theorem runsConsumed_decCursor_toNat (hfit : totalLength runs ≤ w.toNat * h.toNat) :
    (runsConsumed runs (containerTaken w h clen s)).decCursor.toNat = totalLength runs := by
  have hnpix := (pixelCount w h).isLt
  rw [pixelCount_toNat] at hnpix
  show (0#64 + BitVec.ofNat 64 (totalLength runs)).toNat = _
  rw [BitVec.zero_add, BitVec.toNat_ofNat, Nat.mod_eq_of_lt (by omega)]

/-- Within the container the offset is that of the next record (20_memory R57). -/
theorem runsConsumed_rdOff_toNat (hlen : clen.toNat = 8 + 4 * (runs ++ later).length) :
    (runsConsumed runs (containerTaken w h clen s)).rdOff.toNat = 8 + 4 * runs.length := by
  have hclen := clen.isLt
  rw [List.length_append] at hlen
  show (8#64 + BitVec.ofNat 64 (4 * runs.length)).toNat = _
  rw [BitVec.toNat_add, BitVec.toNat_ofNat, BitVec.toNat_ofNat]
  omega

variable (hp : s.decPhase ≠ .body) (hio : ioGood s = true) (hcap : w.toNat * h.toNat ≤ s.par.pixbufCap.toNat)
  (hfit : totalLength runs ≤ w.toNat * h.toNat) (htrue : clen.toNat = s.cinLen)
  (hlen : clen.toNat = 8 + 4 * (runs ++ later).length)
  (hbytes : ∀ a < clen.toNat, s.cin.read a = (containerBytes w h (runs ++ later)).getD a 0)

include hp hio hcap hfit htrue hlen hbytes

/-- A container is taken and its first runs, all of which fit, are consumed (43_decoder R178). -/
theorem execAll_decBegin_decSteps :
    execAll (.decBegin clen :: List.replicate runs.length .decStep) s =
      .next (runsConsumed runs (containerTaken w h clen s)) := by
  obtain ⟨hhdr, hrecs⟩ := container_read (hlen ▸ hbytes)
  rw [execAll, exec_decBegin_taken hp htrue hio (by omega) (by omega) hhdr hcap]
  rw [List.length_append] at hlen
  refine execAll_decSteps rfl (holdsRecords_append hrecs).1 ?_ ?_
  · show 8 + 4 * runs.length ≤ clen.toNat
    omega
  · show 0 + totalLength runs ≤ (pixelCount w h).toNat
    rw [pixelCount_toNat]
    omega

/-- One `DEC_STEP` more takes the operation to what that step answers. -/
theorem execAll_decBegin_decSteps_next {t : State}
    (hnext : exec .decStep (runsConsumed runs (containerTaken w h clen s)) = .next t) :
    execAll (.decBegin clen :: List.replicate (runs.length + 1) .decStep) s = .next t := by
  have hruns := execAll_decBegin_decSteps hp hio hcap hfit htrue hlen hbytes
  rw [List.replicate_succ', ← List.cons_append, execAll_append _ hruns, execAll, hnext]
  rfl

end Operation

/-- Settles O58: all runs consumed, the offset is at the end of the container, where the next step finishes. -/
theorem decodeOperation : Obligations.DecodeOperation := by
  unfold Obligations.DecodeOperation
  intro w h runs clen s hp hio hcap hfit htrue hlen hbytes
  rw [← List.append_nil runs] at hbytes
  have hlen' : clen.toNat = 8 + 4 * (runs ++ []).length := by rw [List.append_nil, hlen]
  have hoff : (runsConsumed runs (containerTaken w h clen s)).rdOff = clen :=
    BitVec.eq_of_toNat_eq ((runsConsumed_rdOff_toNat hlen').trans hlen.symm)
  have hrun := execAll_decBegin_decSteps_next hp hio hcap hfit htrue hlen' hbytes (exec_decStep_end (by rfl) hoff)
  refine ⟨_, hrun, rfl, rfl, rfl, rfl, pixelCount_toNat w h, runsConsumed_decCursor_toNat hfit, hoff, ?encodePath,
    fun i _ => PixelMemory.read_fillRuns_empty runs i⟩
  case encodePath => exact ⟨rfl, rfl, rfl, rfl, rfl, rfl, rfl⟩

/-- Settles O59: the runs before it consumed, the record at the offset is the one that does not fit. -/
theorem decodeOverflow : Obligations.DecodeOverflow := by
  unfold Obligations.DecodeOverflow
  intro w h before run after clen s hp hio hcap hfit hover htrue hlen hbytes
  have hcur : (runsConsumed before (containerTaken w h clen s)).decCursor.toNat = totalLength before :=
    runsConsumed_decCursor_toNat hfit
  have hoff := runsConsumed_rdOff_toNat (w := w) (h := h) (s := s) hlen
  have hfault : exec .decStep (runsConsumed before (containerTaken w h clen s)) =
      .next (raiseDec .outOfBounds .none (runsConsumed before (containerTaken w h clen s))) := by
    obtain ⟨-, hrecs⟩ := container_read (hlen ▸ hbytes)
    obtain ⟨hrec, -⟩ := holdsRecords_cons (holdsRecords_append hrecs).2
    refine exec_decStep_overflows (by rfl) ?_ (by rw [hoff]; exact hrec) ?_
    · rw [hoff]
      show _ ≤ clen.toNat
      rw [hlen, List.length_append, List.length_cons]
      omega
    · rw [hcur]
      show (pixelCount w h).toNat - _ < _
      rw [pixelCount_toNat]
      omega
  refine ⟨_, execAll_decBegin_decSteps_next hp hio hcap hfit htrue hlen hbytes hfault, rfl, rfl, rfl, hoff, hcur,
    fun i _ => PixelMemory.read_fillRuns_empty before i⟩

/-- Settles O60: the encode operation leaves the container of its stream in the sink; placed in `CIN` it is decoded, and
the stream expands to the pixels. -/
theorem roundTrip : Obligations.RoundTrip := by
  unfold Obligations.RoundTrip
  intro w h pixels s hpe hpd hio hgrid hpixels hcap
  obtain ⟨t, hrun, -, -, -, hlen, hcout, hdec, hin, -⟩ := encodeOperation.1 w h pixels s hpe hio hpixels
  obtain ⟨hexpand, htotal⟩ := streamExpandsToPixels s.encLast pixels
  generalize encodedStream s.encLast 0 pixels = runs at hlen hcout hexpand htotal
  have hpd' : t.decPhase ≠ .body := by rw [hdec.1]; exact hpd
  have hio' : ioGood t = true := (ioGood_congr hin).trans hio
  have hcap' : w.toNat * h.toNat ≤ t.par.pixbufCap.toNat := by
    obtain ⟨-, -, -, -, hpar⟩ := hin
    rwa [hpar]
  obtain ⟨u, hdecode, hdone, herr, hw, hh, hnpix, hcur, -, -, hslots⟩ :=
    decodeOperation w h runs t.wrLen { t with cin := t.cout, cinLen := t.wrLen.toNat } hpd' hio' hcap'
      (by omega) rfl hlen (fun a _ => by rw [hcout, containerOf_read])
  have hsteps : (t.wrLen.toNat - 8) / 4 = runs.length := by omega
  rw [htotal, hgrid] at hcur
  rw [hexpand] at hslots
  refine ⟨t, u, hrun, ?_, hdone, herr, hw, hh, BitVec.eq_of_toNat_eq (hnpix.trans hcur.symm), hcur, hslots⟩
  rw [hsteps]
  exact hdecode

end Sys2Proof.Machine
end

section
/-! PROOFS. Status access (spec/44_status_access.md): every register number of `RD_REG` (R190), the acceptance table
(R191), and the decode path where it fetches nothing (43_decoder R180). -/

namespace Sys2Proof.Machine

/-! ### `RD_REG` -/

/-- The unused operand bits of `RD_REG` do not matter (30_encoding R89). -/
theorem decode_rdReg_unused (n : BitVec 4) (unused : BitVec 60) :
    decode (.command (0x6#4 ++ (unused ++ n))) = .ok (.rdReg n) := by
  rw [decode_rdReg_word, field_low unused n 0 4 (by omega), field_all]

/-- A read of an assigned number answers the register (44_status_access R190). -/
theorem exec_rdReg_assigned {n : BitVec 4} {s : State} {v : Cnt} (h : regValue n s = some v) :
    exec (.rdReg n) s = .next { s with resp := .value v } := by
  show execRdReg n s = _
  rw [execRdReg, h]

/-- A read of an unassigned number answers 0 and sets `proto` (44_status_access R190). -/
theorem exec_rdReg_unassigned {n : BitVec 4} (s : State) (h : 8 ≤ n.toNat) :
    exec (.rdReg n) s = .next { s with proto := true, resp := .value 0 } := by
  rcases execRdReg_cases n s with ⟨_, _, hlt, _⟩ | ⟨_, e⟩
  · omega
  · exact e

/-- Settles O26: each assigned number by the register it names, and all the others at once. -/
theorem rdRegResult : Obligations.RdRegResult := by
  unfold Obligations.RdRegResult
  intro s
  refine ⟨decode_rdReg_unused, exec_rdReg_assigned rfl, exec_rdReg_assigned rfl, ?width, ?height,
    exec_rdReg_assigned rfl, exec_rdReg_assigned rfl, exec_rdReg_assigned rfl, exec_rdReg_assigned rfl,
    fun _ => exec_rdReg_unassigned s⟩
  case width => rw [BitVec.ofNat_toNat]; exact exec_rdReg_assigned rfl
  case height => rw [BitVec.ofNat_toNat]; exact exec_rdReg_assigned rfl

/-! ### The acceptance table -/

/-- A command of a path outside the phases of the table is ignored (44_status_access R191). -/
theorem exec_ignored {i : Instr} {s : State}
    (hi : i = .encEnd ∨ (∃ w h, i = .encBegin w h) ∨ (∃ r g b, i = .encPix r g b) ∨ (∃ n, i = .decBegin n))
    (hrej : accepts i s = false) : exec i s = .next { s with proto := true, resp := .none } := by
  rcases hi with rfl | ⟨w, h, rfl⟩ | ⟨r, g, b, rfl⟩ | ⟨n, rfl⟩
  · obtain ⟨-, hignored, -⟩ := encEndResult s
    exact hignored (of_decide_eq_false hrej)
  · obtain ⟨-, hignored, -⟩ := encBeginResult w h s
    exact hignored (not_not.mp (of_decide_eq_false hrej))
  · obtain ⟨-, hignored, -⟩ := encPixResult r g b s
    exact hignored (of_decide_eq_false hrej)
  · obtain ⟨-, hignored, -⟩ := decBeginResult n s
    exact hignored (not_not.mp (of_decide_eq_false hrej))

/-- A pixel read outside D_DONE or beyond the buffer is refused (43_decoder R177). -/
theorem exec_decRdpix_rejected {idx : Cnt} {s : State} (hrej : accepts (.decRdpix idx) s = false) :
    exec (.decRdpix idx) s = .next { s with proto := true, resp := .refusedPixel } := by
  obtain ⟨-, -, hrefused, -⟩ := decRdpixResult idx s
  have hout : s.decPhase ≠ .done ∨ s.decNpix.toNat ≤ idx.toNat := by
    simpa [accepts, imp_iff_not_or] using hrej
  exact hrefused hout

/-- A status read sets `proto` exactly for an unassigned number (44_status_access R190). -/
theorem exec_rdReg_proto {n : BitVec 4} {s t : State} (hx : exec (.rdReg n) s = .next t) :
    t.proto = (s.proto || decide (8 ≤ n.toNat)) := by
  rcases execRdReg_cases n s with ⟨_, _, hlt, e⟩ | ⟨hle, e⟩
  all_goals cases e.symm.trans hx
  · simp [hlt]
  · simp [hle]

/-- An accepted instruction of either path leaves `proto` alone (44_status_access R191). -/
theorem exec_accepted_proto {i : Instr} {s t : State} (hi : ∀ n, i ≠ .rdReg n) (hacc : accepts i s = true)
    (hx : exec i s = .next t) : t.proto = s.proto := by
  obtain ⟨henc, hdec⟩ := pathFrames i s t hx
  rcases path_cases i with hpath | hpath | ⟨n, rfl⟩
  · obtain ⟨-, -, hproto⟩ := henc hpath
    exact hproto hacc
  · obtain ⟨-, -, hproto⟩ := hdec hpath
    exact hproto hacc
  · exact absurd rfl (hi n)

/-- Settles O28: each row of the table by the result of its command, and `proto` by the frames of the two paths. -/
theorem acceptanceTable : Obligations.AcceptanceTable := by
  unfold Obligations.AcceptanceTable
  refine fun i s => ⟨exec_ignored, ?refused, fun t hacc hx => ?accepted⟩
  case refused =>
    rintro idx rfl hrej
    exact exec_decRdpix_rejected hrej
  case accepted =>
    split
    · exact exec_rdReg_proto hx
    · next hread =>
      rw [Bool.or_false]
      exact exec_accepted_proto hread hacc hx

/-! ### Where the decode path fetches nothing -/

/-- Settles O29: each of the three is the branch of its meaning that does nothing. -/
theorem notEnabledMeansNothing : Obligations.NotEnabledMeansNothing := by
  unfold Obligations.NotEnabledMeansNothing
  refine fun s => ⟨fun hp => if_pos hp, fun len r g b hrej => ?run, fun w h hp => if_pos hp⟩
  case run =>
    rcases execRun_cases len r g b s with ⟨_, e⟩ | ⟨hp, hleft, _⟩
    · exact e
    · simp [accepts, hp, hleft] at hrej

end Sys2Proof.Machine
end

section
/-! PROOFS. Faults (spec/60_exceptions.md): which instruction raises which cause (R202 to R204), what taking a fault does
(R206), and that a fault ends its operation (R209, R210). -/

namespace Sys2Proof.Machine

/-! ### The encode path -/

/-- Everything an instruction can do to `enc_err`: an accepted one of the encode path raises IOError (60_exceptions R204),
or the cause is kept or cleared and E_FAULT is not entered. -/
theorem exec_encErr_cases {i : Instr} {s t : State} (hx : exec i s = .next t) :
    (onEncodePath i = true ∧ accepts i s = true ∧ ioGood s = false ∧ t.encErr = .ioError) ∨
    ((t.encErr = s.encErr ∨ t.encErr = .none) ∧ (t.encPhase = s.encPhase ∨ t.encPhase ≠ .fault)) := by
  by_cases hi : onEncodePath i = true
  case neg =>
    obtain ⟨hphase, -, -, -, herr, -⟩ := exec_keeps_encodePath (Bool.eq_false_of_not_eq_true hi) hx
    exact .inr ⟨.inl herr, .inl hphase⟩
  cases i with
  | encBegin w h =>
    simp only [exec] at hx
    rcases execEncBegin_cases w h s with ⟨_, e⟩ | ⟨hp, hio, e⟩ | ⟨_, _, e⟩
    all_goals rw [e] at hx; cases hx
    · exact .inr ⟨.inl rfl, .inl rfl⟩
    · exact .inl ⟨rfl, decide_eq_true hp, hio, rfl⟩
    · exact .inr ⟨.inr rfl, .inr nofun⟩
  | encPix r g b =>
    simp only [exec] at hx
    rcases execEncPix_cases r g b s with ⟨_, e⟩ | ⟨_, _, _, e⟩ | ⟨_, _, e⟩ | ⟨hp, _, _, hio, e⟩ | ⟨_, _, _, _, _, e⟩ |
      ⟨_, _, _, _, _, e⟩
    case inr.inr.inr.inl =>
      rw [e] at hx; cases hx
      exact .inl ⟨rfl, decide_eq_true hp, hio, rfl⟩
    all_goals rw [e] at hx; cases hx
    all_goals exact .inr ⟨.inl rfl, .inl rfl⟩
  | encEnd =>
    simp only [exec] at hx
    rcases execEncEnd_cases s with ⟨_, e⟩ | ⟨hp, hio, e⟩ | ⟨_, _, _, e⟩ | ⟨_, _, _, _, e⟩ | ⟨_, _, _, _, e⟩
    all_goals rw [e] at hx; cases hx
    · exact .inr ⟨.inl rfl, .inl rfl⟩
    · exact .inl ⟨rfl, decide_eq_true hp, hio, rfl⟩
    · exact .inr ⟨.inl rfl, .inr nofun⟩
    · exact .inr ⟨.inl rfl, .inr nofun⟩
  | decBegin n => cases hi
  | decRdpix idx => cases hi
  | rdReg n => cases hi
  | decStep => cases hi
  | hdr w h => cases hi
  | run len r g b => cases hi

/-! ### The decode path -/

/-- The causes that an instruction may raise on the decode path, each with its sub-reason (60_exceptions R202 to R204,
R206). -/
def MayRaise (i : Instr) (s : State) : Cause → SubReason → Prop
  | .none, _ => False
  | .formatError, sub => ((∃ n, i = .decBegin n) ∨ ∃ w h, i = .hdr w h) ∧ sub ≠ .none
  | .outOfBounds, sub => (i = .decStep ∨ ∃ len r g b, i = .run len r g b) ∧ sub = .none
  | .ioError, sub => ((∃ n, i = .decBegin n) ∧ ioGood s = false) ∧ sub = .none

/-- What became of the cause of the decode path: a new one was raised, or it was kept or cleared and D_FAULT not entered. -/
def RaisedOrKept (i : Instr) (s t : State) : Prop :=
  (onDecodePath i = true ∧ accepts i s = true ∧ MayRaise i s t.decErr t.decSub) ∨
  ((t.decErr = s.decErr ∨ t.decErr = .none) ∧ (t.decPhase = s.decPhase ∨ t.decPhase ≠ .fault))

theorem RaisedOrKept.of_sameDecodePath {i : Instr} {s t : State} (h : sameDecodePath t s) : RaisedOrKept i s t := by
  obtain ⟨hphase, -, -, -, -, -, -, herr, -⟩ := h
  exact .inr ⟨.inl herr, .inl hphase⟩

/-- A header raises the FormatError of its dimensions, or the operation goes on (42_container_reader R154). -/
theorem consumeHeader_raises (w h : Dim) (s : State) :
    ((consumeHeader w h s).decErr = .formatError ∧ (consumeHeader w h s).decSub ≠ .none) ∨
    ((consumeHeader w h s).decErr = s.decErr ∧ (consumeHeader w h s).decPhase ≠ .fault) := by
  rcases consumeHeader_cases w h s with ⟨_, e⟩ | ⟨_, e⟩ <;> rw [e]
  · exact .inl ⟨rfl, nofun⟩
  · exact .inr ⟨rfl, nofun⟩

/-- A record raises OutOfBoundsError, or the operation goes on (43_decoder R173). -/
theorem consumeRun_raises (run : Run) (s : State) :
    ((consumeRun run s).decErr = .outOfBounds ∧ (consumeRun run s).decSub = .none) ∨
    ((consumeRun run s).decErr = s.decErr ∧ (consumeRun run s).decPhase = s.decPhase) := by
  rcases consumeRun_cases run s with ⟨_, e⟩ | ⟨_, e⟩ <;> rw [e]
  · exact .inl ⟨rfl, rfl⟩
  · exact .inr ⟨rfl, rfl⟩

theorem execDecBegin_raisedOrKept {clen : Cnt} {s t : State} (hx : execDecBegin clen s = .next t) :
    RaisedOrKept (.decBegin clen) s t := by
  rcases execDecBegin_cases clen s with ⟨_, e⟩ | ⟨_, _, e⟩ | ⟨hp, _, hio, e⟩ | ⟨hp, _, _, _, e⟩ | ⟨hp, _, _, _, _, e⟩ |
    ⟨hp, _, _, _, _, e⟩
  all_goals rw [e] at hx; cases hx
  · exact .inr ⟨.inl rfl, .inl rfl⟩
  · exact .inl ⟨rfl, decide_eq_true hp, ⟨⟨clen, rfl⟩, hio⟩, rfl⟩
  · exact .inl ⟨rfl, decide_eq_true hp, .inl ⟨clen, rfl⟩, nofun⟩
  · exact .inl ⟨rfl, decide_eq_true hp, .inl ⟨clen, rfl⟩, nofun⟩
  · rcases consumeHeader_raises (parHdr (s.cin.readBytes 0 8)).1 (parHdr (s.cin.readBytes 0 8)).2 (openDecode clen s) with
      ⟨herr, hsub⟩ | ⟨herr, hphase⟩
    · refine .inl ⟨rfl, decide_eq_true hp, ?_⟩
      rw [herr]
      exact ⟨.inl ⟨clen, rfl⟩, hsub⟩
    · exact .inr ⟨.inr herr, .inr hphase⟩

theorem execHdr_raisedOrKept {w h : Dim} {s t : State} (hx : execHdr w h s = .next t) : RaisedOrKept (.hdr w h) s t := by
  rcases execHdr_cases w h s with ⟨_, e⟩ | ⟨hp, e⟩
  all_goals rw [e] at hx; cases hx
  · exact .inr ⟨.inl rfl, .inl rfl⟩
  · rcases consumeHeader_raises w h s with ⟨herr, hsub⟩ | ⟨herr, hphase⟩
    · refine .inl ⟨rfl, decide_eq_true hp, ?_⟩
      rw [herr]
      exact ⟨.inr ⟨w, h, rfl⟩, hsub⟩
    · exact .inr ⟨.inl herr, .inr hphase⟩

/-- A record consumed by an accepted `DEC_STEP` or `RUN`. -/
theorem consumeRun_raisedOrKept {i : Instr} {run : Run} {s : State}
    (hi : i = .decStep ∨ ∃ len r g b, i = .run len r g b) (hacc : accepts i s = true) :
    RaisedOrKept i s (consumeRun run s) := by
  have hdec : onDecodePath i = true := by rcases hi with rfl | ⟨_, _, _, _, rfl⟩ <;> rfl
  rcases consumeRun_raises run s with ⟨herr, hsub⟩ | ⟨herr, hphase⟩
  · refine .inl ⟨hdec, hacc, ?_⟩
    rw [herr]
    exact ⟨hi, hsub⟩
  · exact .inr ⟨.inl herr, .inl hphase⟩

theorem execDecStep_raisedOrKept {s t : State} (hx : execDecStep s = .next t) : RaisedOrKept .decStep s t := by
  rcases execDecStep_cases s with ⟨_, e⟩ | ⟨hp, _, e⟩ | ⟨_, _, e⟩ | ⟨_, _, _, e⟩
  all_goals rw [e] at hx; cases hx
  · exact .inr ⟨.inl rfl, .inl rfl⟩
  · exact consumeRun_raisedOrKept (.inl rfl) (decide_eq_true hp)
  · exact .inr ⟨.inl rfl, .inr nofun⟩

theorem execRun_raisedOrKept {len r g b : Byte} {s t : State} (hx : execRun len r g b s = .next t) :
    RaisedOrKept (.run len r g b) s t := by
  rcases execRun_cases len r g b s with ⟨_, e⟩ | ⟨hp, hready, e⟩
  all_goals rw [e] at hx; cases hx
  · exact .inr ⟨.inl rfl, .inl rfl⟩
  · exact consumeRun_raisedOrKept (.inr ⟨len, r, g, b, rfl⟩) (by simp [accepts, hp, hready])

/-- Everything an instruction can do to `dec_err` and `dec_sub`. -/
theorem exec_raisedOrKept {i : Instr} {s t : State} (hx : exec i s = .next t) : RaisedOrKept i s t := by
  by_cases hi : onDecodePath i = true
  case neg => exact .of_sameDecodePath (exec_keeps_decodePath (Bool.eq_false_of_not_eq_true hi) hx)
  cases i with
  | decBegin n => exact execDecBegin_raisedOrKept hx
  | decRdpix idx => exact .of_sameDecodePath (exec_decRdpix_frame hx)
  | decStep => exact execDecStep_raisedOrKept hx
  | hdr w h => exact execHdr_raisedOrKept hx
  | run len r g b => exact execRun_raisedOrKept hx
  | encBegin w h => cases hi
  | encPix r g b => cases hi
  | encEnd => cases hi
  | rdReg n => cases hi

/-- A cause that was not there before is one the instruction may raise. -/
theorem mayRaise_of_new_cause {i : Instr} {s t : State} {cause : Cause} (hx : exec i s = .next t)
    (hcause : cause ≠ .none) (hnew : t.decErr = cause) (hold : s.decErr ≠ cause) : MayRaise i s cause t.decSub := by
  rcases exec_raisedOrKept hx with ⟨-, -, hraise⟩ | ⟨hkept | hcleared, -⟩
  · exact hnew ▸ hraise
  · exact absurd (hkept.symm.trans hnew) hold
  · exact absurd (hnew.symm.trans hcleared) hcause

/-- The sub-reason is that of the cause (60_exceptions R206). -/
theorem MayRaise.cause_sub {i : Instr} {s : State} {cause : Cause} {sub : SubReason} (h : MayRaise i s cause sub) :
    cause ≠ .none ∧ (cause ≠ .formatError → sub = .none) ∧ (cause = .formatError → sub ≠ .none) := by
  cases cause with
  | none => cases h
  | formatError => exact ⟨by decide, fun hne => absurd rfl hne, fun _ => h.2⟩
  | outOfBounds => exact ⟨by decide, fun _ => h.2, nofun⟩
  | ioError => exact ⟨by decide, fun _ => h.2, nofun⟩

/-! ### The statements -/

/-- Settles O31: on each path a new cause is one that the instruction may raise. -/
theorem causesRaisedOnlyBy : Obligations.CausesRaisedOnlyBy := by
  unfold Obligations.CausesRaisedOnlyBy
  intro i s t hx
  refine ⟨fun hnew hold => (mayRaise_of_new_cause hx (by decide) hnew hold).1,
    fun hnew hold => (mayRaise_of_new_cause hx (by decide) hnew hold).1,
    fun hnew hold => (mayRaise_of_new_cause hx (by decide) hnew hold).1, ?encode, ?values⟩
  case encode =>
    intro hnew hold
    rcases exec_encErr_cases hx with ⟨hi, -, hio, -⟩ | ⟨hkept | hcleared, -⟩
    · exact ⟨hi, hio⟩
    · exact absurd (hkept.symm.trans hnew) hold
    · exact absurd (hnew.symm.trans hcleared) (by decide)
  case values =>
    rcases exec_encErr_cases hx with ⟨-, -, -, herr⟩ | ⟨hkept | hcleared, -⟩
    · exact .inr (.inr herr)
    · exact .inl hkept
    · exact .inr (.inl hcleared)

/-- Settles O32: a fault newly entered was raised by an accepted instruction, and the frame of its path leaves the rest
alone. -/
theorem faultEntry : Obligations.FaultEntry := by
  unfold Obligations.FaultEntry
  intro i s t hx
  obtain ⟨hencFrame, hdecFrame⟩ := pathFrames i s t hx
  constructor
  · intro hfault hbefore
    rcases exec_encErr_cases hx with ⟨hi, hacc, -, herr⟩ | ⟨-, hphase | hphase⟩
    · obtain ⟨hdec, hin, hproto⟩ := hencFrame hi
      exact ⟨herr, hdec, hin, hproto hacc⟩
    · exact absurd (hphase.symm.trans hfault) hbefore
    · exact absurd hfault hphase
  · intro hfault hbefore
    rcases exec_raisedOrKept hx with ⟨hi, hacc, hraise⟩ | ⟨-, hphase | hphase⟩
    · obtain ⟨henc, hin, hproto⟩ := hdecFrame hi
      obtain ⟨hcause, hnone, hsome⟩ := hraise.cause_sub
      exact ⟨hcause, hnone, hsome, henc, hin, hproto hacc⟩
    · exact absurd (hphase.symm.trans hfault) hbefore
    · exact absurd hfault hphase

/-- Settles O33: in FAULT the acceptance table leaves a path only its BEGIN, and that clears the cause. -/
theorem faultIsTerminal : Obligations.FaultIsTerminal := by
  unfold Obligations.FaultIsTerminal
  refine fun s => ⟨fun hp => ?encode, fun hp => ?decode⟩
  case encode =>
    have hbody : s.encPhase ≠ .body := by rw [hp]; decide
    refine ⟨exec_ignored (.inl rfl) (decide_eq_false hbody),
      fun r g b => exec_ignored (.inr (.inr (.inl ⟨r, g, b, rfl⟩))) (decide_eq_false hbody), fun w h hio => ?_⟩
    obtain ⟨-, -, hopens, -⟩ := encBeginResult w h s
    exact ⟨_, hopens hbody hio, rfl, rfl⟩
  case decode =>
    have hbody : s.decPhase ≠ .body := by rw [hp]; decide
    refine ⟨(notEnabledMeansNothing s).1 hbody, fun idx => exec_decRdpix_rejected (by simp [accepts, hp]),
      fun clen npix w h hlen hio hcheck => ?_⟩
    exact ⟨_, exec_decBegin_of_rdCheck_ok hbody hlen hio hcheck, rfl, rfl, rfl, rfl, rfl⟩

end Sys2Proof.Machine
end

section
/-! PROOFS. The bounds of the memory accesses (spec/60_exceptions.md R217): within an operation `COUT` is only appended to,
and `CIN` is read below the container's end alone. -/

namespace Sys2Proof.Machine

/-! ### The sink -/

/-- The sink of `t` holds what that of `s` held, and perhaps more. -/
def SinkExtends (s t : State) : Prop :=
  s.wrLen.toNat ≤ t.wrLen.toNat ∧ ∀ a < s.wrLen.toNat, t.cout.read a = s.cout.read a

theorem SinkExtends.of_same {s t : State} (hlen : t.wrLen = s.wrLen) (hcout : t.cout = s.cout) : SinkExtends s t :=
  ⟨by rw [hlen], fun _ _ => by rw [hcout]⟩

/-- A record that fits is appended (41_container_writer R133). -/
theorem sinkExtends_appendCout_serRec {s : State} (hcout : s.cout.wf = true) (hfit : coutFits 4 s = true) (run : Run) :
    SinkExtends s (appendCout (serRec run) s) := by
  refine ⟨?_, fun a ha => appendCout_serRec_read_outside hcout run (.inl ha)⟩
  rw [appendCout_serRec_wrLen_toNat run hfit]
  omega

/-- In E_BODY an instruction that does not fault appends to the sink or leaves it (20_memory R52). -/
theorem exec_sinkExtends {i : Instr} {s t : State} (hx : exec i s = .next t) (hcout : s.cout.wf = true)
    (hp : s.encPhase = .body) (hfault : t.encPhase ≠ .fault) : SinkExtends s t := by
  by_cases hi : onEncodePath i = true
  case neg =>
    obtain ⟨-, -, -, hlen, -, hsame, -⟩ := exec_keeps_encodePath (Bool.eq_false_of_not_eq_true hi) hx
    exact .of_same hlen hsame
  cases i with
  | encBegin w h =>
    simp only [exec] at hx
    rcases execEncBegin_cases w h s with ⟨_, e⟩ | ⟨hne, _⟩ | ⟨hne, _⟩
    · rw [e] at hx; cases hx
      exact .of_same rfl rfl
    · exact absurd hp hne
    · exact absurd hp hne
  | encPix r g b =>
    simp only [exec] at hx
    rcases execEncPix_cases r g b s with ⟨_, e⟩ | ⟨_, _, _, e⟩ | ⟨_, _, e⟩ | ⟨_, _, _, _, e⟩ | ⟨_, _, _, _, _, e⟩ |
      ⟨_, _, _, _, hfit, e⟩
    all_goals rw [e] at hx; cases hx
    · exact .of_same rfl rfl
    · exact .of_same rfl rfl
    · exact .of_same rfl rfl
    · exact absurd rfl hfault
    · exact sinkExtends_appendCout_serRec hcout hfit _
  | encEnd =>
    simp only [exec] at hx
    rcases execEncEnd_cases s with ⟨_, e⟩ | ⟨_, _, e⟩ | ⟨_, _, _, e⟩ | ⟨_, _, _, _, e⟩ | ⟨_, _, _, hfit, e⟩
    all_goals rw [e] at hx; cases hx
    · exact .of_same rfl rfl
    · exact absurd rfl hfault
    · exact .of_same rfl rfl
    · exact sinkExtends_appendCout_serRec hcout hfit _
  | decBegin n => cases hi
  | decRdpix idx => cases hi
  | rdReg n => cases hi
  | decStep => cases hi
  | hdr w h => cases hi
  | run len r g b => cases hi

/-- Settles O53: by what the step did; only an instruction touches the sink. -/
theorem coutNeverRewritten : Obligations.CoutNeverRewritten := by
  unfold Obligations.CoutNeverRewritten
  intro s t hwf hstep hreset hp hfault
  obtain ⟨hcout, -, -⟩ := (memoriesWf_iff s).1 hwf
  have hexec : ∀ {i host ok}, exec i { s with host := host, ioOk := ok } = .next t → SinkExtends s t :=
    fun {_ host ok} hx => exec_sinkExtends (s := { s with host := host, ioOk := ok }) hx hcout hp hfault
  rcases step_cases hstep with ⟨_, _, _, _, _, _, hx⟩ | ⟨_, _, _, _, _, _, rfl⟩ | ⟨_, hx⟩ | ⟨_, _, _, _, rfl⟩ |
    ⟨rest, hhost, _⟩
  · exact hexec hx
  · exact SinkExtends.of_same rfl rfl
  · exact hexec hx
  · exact SinkExtends.of_same rfl rfl
  · exact absurd hhost (hreset rest)

/-! ### The source -/

section Source

variable (c : Memory)

theorem consumeRun_withCin (run : Run) (s : State) :
    consumeRun run { s with cin := c } = { consumeRun run s with cin := c } := by
  unfold consumeRun
  dsimp only
  cases decRun s.decCursor s.decNpix run s.pixbuf <;> rfl

theorem consumeHeader_withCin (w h : Dim) (s : State) :
    consumeHeader w h { s with cin := c } = { consumeHeader w h s with cin := c } := by
  unfold consumeHeader
  dsimp only
  split <;> rfl

/-- The same state, but for what `CIN` holds. -/
def ReplacesCin (t t' : State) : Prop := t' = { t with cin := c }

/-- The instructions that read `CIN` (30_encoding R83): the others find the same in any container. -/
def readsCin : Instr → Bool
  | .encBegin _ _ => false
  | .encPix _ _ _ => false
  | .encEnd => false
  | .decBegin _ => true
  | .decRdpix _ => false
  | .rdReg _ => false
  | .decStep => true
  | .hdr _ _ => false
  | .run _ _ _ _ => false

theorem execEncPix_withCin (r g b : Byte) (s : State) :
    OutcomesAgree (ReplacesCin c) (execEncPix r g b s) (execEncPix r g b { s with cin := c }) := by
  unfold execEncPix
  dsimp only
  refine .ite (.next rfl) ?_
  obtain ⟨last, run, out⟩ := encPix s.encLast s.encRun ⟨r, g, b⟩
  cases out with
  | none => exact .next rfl
  | some out => exact .ite (.next rfl) (.ite (.refused _) (.next rfl))

theorem execEncEnd_withCin (s : State) :
    OutcomesAgree (ReplacesCin c) (execEncEnd s) (execEncEnd { s with cin := c }) := by
  unfold execEncEnd
  dsimp only
  refine .ite (.next rfl) (.ite (.next rfl) ?_)
  obtain ⟨run, out⟩ := encFlush s.encLast s.encRun
  cases out with
  | none => exact .next rfl
  | some out => exact .ite (.refused _) (.next rfl)

theorem execRdReg_withCin (n : BitVec 4) (s : State) :
    OutcomesAgree (ReplacesCin c) (execRdReg n s) (execRdReg n { s with cin := c }) := by
  have hsame : regValue n { s with cin := c } = regValue n s := rfl
  unfold execRdReg
  rw [hsame]
  cases regValue n s with
  | none => exact .next rfl
  | some v => exact .next rfl

/-- An instruction that does not read `CIN` does the same whatever it holds. -/
theorem exec_withCin_of_unread {i : Instr} (hi : readsCin i = false) (s : State) :
    OutcomesAgree (ReplacesCin c) (exec i s) (exec i { s with cin := c }) := by
  cases i with
  | encBegin w h => exact .ite (.next rfl) (.ite (.next rfl) (.next rfl))
  | encPix r g b => exact execEncPix_withCin c r g b s
  | encEnd => exact execEncEnd_withCin c s
  | decRdpix idx => exact .ite (.next rfl) (.next rfl)
  | rdReg n => exact execRdReg_withCin c n s
  | hdr w h => exact .ite (.next rfl) (.next (consumeHeader_withCin c w h s))
  | run len r g b => exact .ite (.next (consumeRun_withCin c _ s)) (.next rfl)
  | decBegin n => cases hi
  | decStep => cases hi

variable {c} {s t : State}

/-- `DEC_STEP` reads the record at `rd_off`, below `rd_len` (43_decoder R173). -/
theorem exec_decStep_withCin (hagree : s.decPhase = .body → ∀ a < s.rdLen.toNat, c.read a = s.cin.read a)
    (hx : exec .decStep s = .next t) : exec .decStep { s with cin := c } = .next { t with cin := c } := by
  rcases execDecStep_cases s with ⟨hp, e⟩ | ⟨hp, hready, e⟩ | ⟨hp, hend, e⟩ | ⟨_, _, _, e⟩
  all_goals cases e.symm.trans hx
  · exact if_pos hp
  · have hrecord : c.readBytes s.rdOff.toNat 4 = s.cin.readBytes s.rdOff.toNat 4 :=
      Memory.readBytes_congr _ _ _ _ fun a _ hlt => hagree hp a (by omega)
    rw [exec_decStep_record (s := { s with cin := c }) hp hready, consumeRun_withCin, hrecord]
  · exact exec_decStep_end (s := { s with cin := c }) hp hend

/-- `DEC_BEGIN` reads the header, and only where the container is long enough (42_container_reader R153, R154). -/
theorem exec_decBegin_withCin {clen : Cnt}
    (hagree : clen.toNat = s.cinLen → ∀ a < clen.toNat, c.read a = s.cin.read a)
    (hx : exec (.decBegin clen) s = .next t) : exec (.decBegin clen) { s with cin := c } = .next { t with cin := c } := by
  rcases execDecBegin_cases clen s with ⟨hp, e⟩ | ⟨_, _, e⟩ | ⟨hp, hlen, hio, e⟩ | ⟨hp, hlen, hio, h8, e⟩ |
    ⟨hp, hlen, hio, h8, h4, e⟩ | ⟨hp, hlen, hio, h8, h4, e⟩
  all_goals cases e.symm.trans hx
  · exact if_pos hp
  · exact exec_decBegin_io_error (s := { s with cin := c }) hp hlen hio
  · exact exec_decBegin_short (s := { s with cin := c }) hp hlen hio h8
  · exact exec_decBegin_unaligned (s := { s with cin := c }) hp hlen hio h8 h4
  · have hheader : c.readBytes 0 8 = s.cin.readBytes 0 8 :=
      Memory.readBytes_congr _ _ _ _ fun a _ hlt => hagree hlen a (by omega)
    rw [exec_decBegin_header (s := { s with cin := c }) hp hlen hio h8 h4 rfl, ← consumeHeader_withCin, hheader]
    rfl

/-- With the container in place every instruction reads `CIN` below its length (70_reset_and_hazards R236). -/
theorem exec_withCin {i : Instr} (hplaced : ContainerPlaced s) (hagree : ∀ a < s.cinLen, c.read a = s.cin.read a)
    (hx : exec i s = .next t) : exec i { s with cin := c } = .next { t with cin := c } := by
  by_cases hi : readsCin i = true
  case neg =>
    obtain ⟨_, hx', rfl⟩ := (exec_withCin_of_unread c (Bool.eq_false_of_not_eq_true hi) s).exists_next hx
    exact hx'
  obtain ⟨hbody, -⟩ := hplaced
  cases i with
  | decBegin n => exact exec_decBegin_withCin (fun hlen a ha => hagree a (hlen ▸ ha)) hx
  | decStep => exact exec_decStep_withCin (fun hp a ha => hagree a (ha.trans_le (hbody hp))) hx
  | encBegin w h => cases hi
  | encPix r g b => cases hi
  | encEnd => cases hi
  | decRdpix idx => cases hi
  | rdReg n => cases hi
  | hdr w h => cases hi
  | run len r g b => cases hi

end Source

/-- Settles O54: `DEC_STEP` reads within its record, `DEC_BEGIN` within its header, and no other instruction reads `CIN`. -/
theorem cinReadsBounded : Obligations.CinReadsBounded := by
  unfold Obligations.CinReadsBounded
  exact fun s t c => ⟨fun _ hagree hx => exec_decStep_withCin (fun _ => hagree) hx,
    fun _ hagree hx => exec_decBegin_withCin (fun _ => hagree) hx, fun _ => exec_withCin⟩

end Sys2Proof.Machine
end

section
/-! PROOFS. The registers at reset and after the `RESET` event (spec/70_reset_and_hazards.md R230, R231). -/

namespace Sys2Proof.Machine

/-- `STATUS` is made of registers alone (10_state R37), and `RESET` gives each the value it has in the reset state. -/
@[simp] theorem statusWord_applyReset (s : State) : statusWord (applyReset s) = 0 :=
  calc statusWord (applyReset s) = statusWord State.reset := rfl
    _ = 0 := by decide

/-- Settles O45: the reset state is evaluated; a `RESET` event is `applyReset`, which takes every register from it and
keeps `CIN`, its length and the events that follow. -/
theorem resetValues : Obligations.ResetValues := by
  unfold Obligations.ResetValues
  refine ⟨by decide, fun s rest hhost => ⟨applyReset { s with host := rest }, step_of_reset hhost, ?_⟩⟩
  simp [State.reset]

end Sys2Proof.Machine
end

section
/-! PROOFS. The container items as instructions of their own (spec/30_encoding.md R80 to R82): what executing a header or a
record does (R154, R173), and that `DEC_BEGIN` and `DEC_STEP` execute the item they fetch (spec/42_container_reader.md R154,
spec/43_decoder.md R173). -/

namespace Sys2Proof.Machine

/-! ### The header -/

/-- Every 8 bytes are a header (30_encoding R83). -/
theorem decode_header_of_length {bytes : List Byte} (h : bytes.length = 8) :
    decode (.header bytes) = .ok (.hdr (parHdr bytes).1 (parHdr bytes).2) := if_pos h

/-- Outside D_BODY a header is consumed (42_container_reader R154). -/
theorem exec_hdr_consumes {s : State} (w h : Dim) (hp : s.decPhase ≠ .body) :
    exec (.hdr w h) s = .next (consumeHeader w h s) := if_neg hp

/-- Settles O19: a consumed header is taken or is DIMS, by the exact product of its dimensions. -/
theorem hdrResult : Obligations.HdrResult := by
  unfold Obligations.HdrResult
  intro w h s
  rw [← pixelCount_eq_ofNat]
  refine ⟨fun hp hcap => ?taken, fun hp hcap => ?dims⟩
  case taken => rw [exec_hdr_consumes w h hp, consumeHeader_taken hcap]
  case dims => exact ⟨_, (exec_hdr_consumes w h hp).trans (congrArg Host.Outcome.next (consumeHeader_dims hcap))⟩

/-- Settles O43: the header that `DEC_BEGIN` consumes on the cleared registers is the item its 8 bytes decode to. -/
theorem decBeginRunsDecodedHeader : Obligations.DecBeginRunsDecodedHeader := by
  unfold Obligations.DecBeginRunsDecodedHeader
  intro clen s i hp hlen hio h8 h4 hdecode
  cases (decode_header_of_length (s.cin.readBytes_length 0 8)).symm.trans hdecode
  have hopened : (openDecode clen s).decPhase ≠ .body := hp
  exact (exec_decBegin_header hp hlen hio h8 h4 rfl).trans (exec_hdr_consumes _ _ hopened).symm

/-! ### The record -/

/-- Every 4 bytes are a record (30_encoding R86). -/
theorem decode_record_of_length {bytes : List Byte} (h : bytes.length = 4) :
    decode (.record bytes) =
      .ok (.run (parRec bytes).len (parRec bytes).color.r (parRec bytes).color.g (parRec bytes).color.b) := if_pos h

section Record

variable {s : State} (hp : s.decPhase = .body) (hready : s.rdOff.toNat + 4 ≤ s.rdLen.toNat)
include hp hready

/-- With a record left a record item is consumed (43_decoder R173). -/
theorem exec_run_consumes (len r g b : Byte) : exec (.run len r g b) s = .next (consumeRun ⟨len, ⟨r, g, b⟩⟩ s) :=
  if_pos ⟨hp, (recordReady_iff s).2 hready⟩

/-- `DEC_STEP` executes the record at `rd_off` (43_decoder R173). -/
theorem exec_decStep_of_decode {i : Instr} (hdecode : decode (.record (s.cin.readBytes s.rdOff.toNat 4)) = .ok i) :
    exec .decStep s = exec i s := by
  cases (decode_record_of_length (s.cin.readBytes_length s.rdOff.toNat 4)).symm.trans hdecode
  rw [exec_decStep_record hp hready, exec_run_consumes hp hready]

end Record

/-- A run of length 0 writes no slot and leaves the cursor where it is (30_encoding R86). -/
theorem consumeRun_of_len_zero (color : Pixel) (s : State) :
    consumeRun ⟨0, color⟩ s = { s with rdOff := s.rdOff + 4 } := by
  have hcursor : s.decCursor + (0 : Byte).setWidth 64 = s.decCursor := BitVec.add_zero _
  rw [consumeRun_of_fits (Nat.zero_le _), hcursor]
  rfl

/-- Settles O24: a consumed record fits or overflows; one of length 0 always fits. -/
theorem runResult : Obligations.RunResult := by
  unfold Obligations.RunResult
  intro len r g b s hp hready
  rw [exec_run_consumes hp hready]
  refine ⟨fun hfit => ?fits, ?zero, fun hover => ?overflows⟩
  case fits => rw [consumeRun_of_fits hfit]
  case zero =>
    rintro rfl
    rw [consumeRun_of_len_zero]
  case overflows =>
    rw [consumeRun_of_overflows hover]
    rfl

end Sys2Proof.Machine
end

section
/-! PROOFS. Where the model stops: a record that no longer fits the sink (spec/41_container_writer.md R133, log 11), and a
fetch outside the container (spec/20_memory.md R65, log 13). -/

namespace Sys2Proof.Machine

/-! ### The sink -/

/-- No room for `n` bytes more: `wr_len + n` would wrap (41_container_writer R133). -/
theorem coutFits_eq_false {n : Nat} {s : State} (hover : 2 ^ 64 ≤ s.wrLen.toNat + n) : coutFits n s = false :=
  decide_eq_false (Nat.not_lt.2 hover)

section Overflow

variable {s : State} (hp : s.encPhase = .body) (hrun : s.encRun ≠ 0) (hio : ioGood s = true)
  (hover : 2 ^ 64 ≤ s.wrLen.toNat + 4)
include hp hrun hio hover

/-- `ENC_END` has no room to flush the pending run (41_container_writer R133, R135). -/
theorem exec_encEnd_refused : exec .encEnd s = .refused .coutOverflow := by
  have hfull : coutFits Config.recLen s = false := coutFits_eq_false hover
  show execEncEnd s = _
  rw [execEncEnd, if_neg (not_not_intro hp), encFlush_pending s.encLast s.encRun hrun]
  simp only [hio, hfull, Bool.true_eq_false, if_false, if_true]

/-- `ENC_PIX` has no room to emit the pending run (40_encoder R116, 41_container_writer R133). -/
theorem exec_encPix_refused {r g b : Byte} (hturn : (⟨r, g, b⟩ : Pixel) ≠ s.encLast ∨ s.encRun = 255) :
    exec (.encPix r g b) s = .refused .coutOverflow := by
  have hfull : coutFits Config.recLen s = false := coutFits_eq_false hover
  show execEncPix r g b s = _
  rw [execEncPix, if_neg (not_not_intro hp), encPix_restart hrun hturn]
  simp only [hio, hfull, Bool.true_eq_false, if_false, if_true]

end Overflow

/-- Settles O17: both commands come to append the pending run's record and find no room. -/
theorem sinkOverflowRefused : Obligations.SinkOverflowRefused := by
  unfold Obligations.SinkOverflowRefused
  exact fun s hp hrun hio hover =>
    ⟨exec_encEnd_refused hp hrun hio hover, fun _ _ _ => exec_encPix_refused hp hrun hio hover⟩

/-! ### The fetch -/

/-- Settles O30: of everything `DEC_STEP` can do, one case is the fault. -/
theorem fetchStopsOnlyOutOfRange : Obligations.FetchStopsOnlyOutOfRange := by
  unfold Obligations.FetchStopsOnlyOutOfRange
  refine fun s => ⟨fun hx => ?stopped, fun ⟨hp, hlt, hne⟩ => ?stops⟩
  case stopped =>
    rcases execDecStep_cases s with ⟨_, e⟩ | ⟨_, _, e⟩ | ⟨_, _, e⟩ | ⟨hp, hlt, hne, _⟩
    case inr.inr.inr => exact ⟨hp, hlt, hne⟩
    all_goals cases e.symm.trans hx
  case stops =>
    rcases execDecStep_cases s with ⟨hout, _⟩ | ⟨_, hready, _⟩ | ⟨_, hend, _⟩ | ⟨_, _, _, e⟩
    · exact absurd hp hout
    · omega
    · exact absurd hend hne
    · exact e

end Sys2Proof.Machine
end

section
/-! PROOFS. The machine's step by the host's next event (spec/00_scope.md R6, R7): a command, a turn of the decode path or
nothing pending (spec/43_decoder.md R180, spec/70_reset_and_hazards.md R231), and a container placed (R234, R236). -/

namespace Sys2Proof.Machine

/-! ### Commands and turns -/

/-- Settles O41: a command's step is the decoded instruction's. -/
theorem stepRunsDecodedCommand : Obligations.StepRunsDecodedCommand := by
  unfold Obligations.StepRunsDecodedCommand
  intro s cw ok rest i hhost hdecode
  rw [step_of_command hhost, stepCommand_of_ok hdecode]

/-- Settles O44: both are `DEC_STEP`, which outside D_BODY is not enabled. -/
theorem stepWithoutCommand : Obligations.StepWithoutCommand := by
  unfold Obligations.StepWithoutCommand
  refine fun s => ⟨step_of_idle, fun hhost hp => ?_, fun _ => step_of_decTurn⟩
  obtain ⟨hdisabled, -, -⟩ := notEnabledMeansNothing s
  exact (step_of_idle hhost).trans (hdisabled hp)

/-- Settles O42: both kinds of turn are `DEC_STEP`, which executes the record at `rd_off`. -/
theorem stepRunsDecodedRecord : Obligations.StepRunsDecodedRecord := by
  unfold Obligations.StepRunsDecodedRecord
  intro s i hp hready hdecode
  refine ⟨fun hhost => ?idle, fun rest hhost => ?turn⟩
  case idle => exact (step_of_idle hhost).trans (exec_decStep_of_decode hp hready hdecode)
  case turn =>
    exact (step_of_decTurn hhost).trans (exec_decStep_of_decode (s := { s with host := rest }) hp hready hdecode)

/-! ### A container placed -/

/-- Placing a container that is long enough and the same below `rd_len`, or placing it outside D_BODY, changes the source
alone (70_reset_and_hazards R234). -/
theorem placeContainer_next {bytes : List Byte} {s : State}
    (hkept : s.decPhase = .body → s.rdLen.toNat ≤ bytes.length ∧
      (containerOf bytes).below s.rdLen.toNat = s.cin.below s.rdLen.toNat) :
    placeContainer bytes s = .next { s with cin := containerOf bytes, cinLen := bytes.length } := by
  refine if_neg fun ⟨hp, hbroken⟩ => ?_
  obtain ⟨hlen, hsame⟩ := hkept hp
  exact hbroken.elim (Nat.not_lt.2 hlen) (not_not_intro hsame)

/-- A canonical source is kept below an offset exactly where the bytes placed read as it does. -/
theorem containerOf_below_eq {bytes : List Byte} {c : Memory} {n : Nat} (hwf : c.wf = true)
    (hsame : ∀ a < n, c.read a = bytes.getD a 0) : (containerOf bytes).below n = c.below n :=
  (Memory.below_eq_iff _ _ _ (containerOf_wf bytes) hwf).2 fun a ha => by rw [containerOf_read, hsame a ha]

/-- A byte below an offset that reads otherwise shows in what lies below that offset. -/
theorem containerOf_below_ne {bytes : List Byte} {c : Memory} {n a : Nat} (ha : a < n)
    (hdiff : c.read a ≠ bytes.getD a 0) : (containerOf bytes).below n ≠ c.below n := by
  intro hsame
  refine hdiff ?_
  calc c.read a = (c.below n).read a := (Memory.read_below c n a ha).symm
    _ = ((containerOf bytes).below n).read a := by rw [hsame]
    _ = bytes.getD a 0 := by rw [Memory.read_below _ n a ha, containerOf_read]

/-- Placing a container that drops or changes a byte below `rd_len` in D_BODY stops the model (70_reset_and_hazards R236,
log 6). -/
theorem placeContainer_fault {bytes : List Byte} {s : State} (hp : s.decPhase = .body)
    (hbroken : bytes.length < s.rdLen.toNat ∨ ∃ a < s.rdLen.toNat, s.cin.read a ≠ bytes.getD a 0) :
    placeContainer bytes s = .fault .cinChanged :=
  if_pos ⟨hp, hbroken.imp_right fun ⟨_, ha, hdiff⟩ => containerOf_below_ne ha hdiff⟩

/-- `DEC_BEGIN` outside D_BODY refuses a length that is not the container's (70_reset_and_hazards R236, log 21). -/
theorem exec_decBegin_wrong_length {clen : Cnt} {s : State} (hp : s.decPhase ≠ .body) (hlen : clen.toNat ≠ s.cinLen) :
    exec (.decBegin clen) s = .refused .lengthMismatch :=
  (if_neg hp).trans (if_pos (decide_eq_false hlen))

/-- Settles O46: the source becomes the placed bytes as a memory, unless one of those below `rd_len` is dropped or reads
otherwise. -/
theorem placingContainer : Obligations.PlacingContainer := by
  unfold Obligations.PlacingContainer
  refine ⟨fun s bytes rest hhost => ?_, fun _ _ => exec_decBegin_wrong_length⟩
  rw [step_of_place hhost]
  refine ⟨fun hallowed => ⟨containerOf bytes, placeContainer_next fun hp => ?kept, containerOf_wf bytes,
    containerOf_read bytes⟩, placeContainer_fault (s := { s with host := rest })⟩
  case kept =>
    obtain ⟨hwf, hlen, hsame⟩ := hallowed.resolve_left (not_not_intro hp)
    exact ⟨hlen, containerOf_below_eq hwf hsame⟩

end Sys2Proof.Machine
end
